-- ==== Sys2Proof/Word.lean ====
section
/-! DEFINITION. The word types of QRMA and the four-valued cell (00_scope.md rules R8, R10, R12). -/

namespace Sys2Proof

/-- A bus word, a command word, a register as the bus sees it: 32 bits (R8, R22). -/
abbrev Word := BitVec 32

/-- A byte address of the slave address space: 16 bits (R8, R60). -/
abbrev Addr := BitVec 16

/-- One byte lane of the 32-bit bus (R63). -/
abbrev Byte := BitVec 8

/-- One module of the matrix. "Every cell is exactly one of the four ModuleValue variants at all times" (R12). -/
inductive Cell where
  | white     -- document value 0, code 00
  | black     -- document value 1, code 01
  | reserved  -- ReservedPlaceholder, document value -2, code 10
  | unset     -- document value -1, code 11
  deriving DecidableEq, Repr, Inhabited

end Sys2Proof
end

