-- ==== Sys2Proof/Syntax.lean ====
section
/-! DEFINITION. The 18 commands of 30_encoding.md rule R96, one constructor per row of the opcode table. -/

namespace Sys2Proof

/-- One command. The operand fields have the widths of formats C, P and M (R92 to R94); format Z has none (R91). -/
inductive Instr where
  | nop
  | reset
  | setcfg (v : BitVec 4) (e : BitVec 2)
  | payclr
  | paypush (n : BitVec 5) (data : BitVec 16)
  | init
  | ptiming
  | pfinder
  | psep
  | pfmtrsv
  | pverinfo
  | place
  | meval
  | mcommit
  | fmtenc (m : BitVec 3)
  | fmtencw
  | fmtwrite
  | qzone
  deriving DecidableEq, Repr

end Sys2Proof
end

