-- ==== Sys2Proof/WellFormed.lean ====
section
/-! DEFINITION. Which instruction terms have operand values the encoding calls legal (30_encoding.md rules R92 to R95).
The operand widths are in the types of `Instr`, so only format P has a check left: R93 gives `n` the legal values 1..16
and asks that `data[15:n]` be 0. A word that breaks one of these still decodes as PAYPUSH and takes the fault `Operand`. -/

namespace Sys2Proof

/-- R93: the number of bits pushed is in 1..16. -/
def pushCountOk (n : BitVec 5) : Bool := decide (1 ≤ n.toNat) && decide (n.toNat ≤ 16)

/-- R93: `data[15:n]` is 0, that is, `data` fits in `n` bits. -/
def pushDataOk (n : BitVec 5) (data : BitVec 16) : Bool := decide (data.toNat < 2 ^ n.toNat)

/-- The operand values are among those the format calls legal. -/
def Instr.wellFormed : Instr → Bool
  | .nop => true
  | .reset => true
  | .setcfg _ _ => true
  | .payclr => true
  | .paypush n data => pushCountOk n && pushDataOk n data
  | .init => true
  | .ptiming => true
  | .pfinder => true
  | .psep => true
  | .pfmtrsv => true
  | .pverinfo => true
  | .place => true
  | .meval => true
  | .mcommit => true
  | .fmtenc _ => true
  | .fmtencw => true
  | .fmtwrite => true
  | .qzone => true

end Sys2Proof
end

