-- ==== Sys2Proof/Decode.lean ====
section
/-! DEFINITION. Decoding and encoding of command words (30_encoding.md rules R90 to R97). Decoding is total: a word that
matches no row of the opcode map is rejected with a name that says why (R97). -/

namespace Sys2Proof

/-- Why a word is no command (R97), or why a run of bytes is no command word (R62, R90). -/
inductive DecodeError where
  /-- The opcode `w[31:24]` is none of the 18 listed. -/
  | unassignedOpcode (op : BitVec 8)
  /-- The opcode is listed and a bit its format reserves is 1. -/
  | reservedBits (op : BitVec 8)
  /-- Not exactly four bytes: every command is one 32-bit word. -/
  | notOneWord (bytes : Nat)
  deriving DecidableEq, Repr

/-- `w[31:24]` (R90). -/
def opcodeOf (w : Word) : BitVec 8 := w.extractLsb' 24 8

/-- Format Z (R91): `w[23:0]` must be 0. -/
def decodeZ (w : Word) (i : Instr) : Except DecodeError Instr :=
  if w.extractLsb' 0 24 = 0 then .ok i else .error (.reservedBits (opcodeOf w))

/-- Format C (R92): `v = w[11:8]`, `e = w[1:0]`. -/
def decodeC (w : Word) : Except DecodeError Instr :=
  if w.extractLsb' 12 12 = 0 ∧ w.extractLsb' 2 6 = 0 then
    .ok (.setcfg (w.extractLsb' 8 4) (w.extractLsb' 0 2))
  else .error (.reservedBits (opcodeOf w))

/-- Format P (R93): `n = w[20:16]`, `data = w[15:0]`; the values of `n` and `data` are not checked here. -/
def decodeP (w : Word) : Except DecodeError Instr :=
  if w.extractLsb' 21 3 = 0 then .ok (.paypush (w.extractLsb' 16 5) (w.extractLsb' 0 16))
  else .error (.reservedBits (opcodeOf w))

/-- Format M (R94): `m = w[2:0]`. -/
def decodeM (w : Word) : Except DecodeError Instr :=
  if w.extractLsb' 3 21 = 0 then .ok (.fmtenc (w.extractLsb' 0 3))
  else .error (.reservedBits (opcodeOf w))

/-- The opcode map (R96): the opcode picks the format, which then checks its reserved bits (R90). -/
def decode (w : Word) : Except DecodeError Instr :=
  if opcodeOf w = 0x00 then decodeZ w .nop
  else if opcodeOf w = 0x01 then decodeZ w .reset
  else if opcodeOf w = 0x02 then decodeC w
  else if opcodeOf w = 0x03 then decodeZ w .payclr
  else if opcodeOf w = 0x04 then decodeP w
  else if opcodeOf w = 0x10 then decodeZ w .init
  else if opcodeOf w = 0x11 then decodeZ w .ptiming
  else if opcodeOf w = 0x12 then decodeZ w .pfinder
  else if opcodeOf w = 0x13 then decodeZ w .psep
  else if opcodeOf w = 0x14 then decodeZ w .pfmtrsv
  else if opcodeOf w = 0x15 then decodeZ w .pverinfo
  else if opcodeOf w = 0x20 then decodeZ w .place
  else if opcodeOf w = 0x30 then decodeZ w .meval
  else if opcodeOf w = 0x31 then decodeZ w .mcommit
  else if opcodeOf w = 0x40 then decodeM w
  else if opcodeOf w = 0x41 then decodeZ w .fmtencw
  else if opcodeOf w = 0x42 then decodeZ w .fmtwrite
  else if opcodeOf w = 0x50 then decodeZ w .qzone
  else .error (.unassignedOpcode (opcodeOf w))

/-- The word of a format Z command (R91). -/
def encodeZ (op : BitVec 8) : Word := op ++ 0#24

/-- The word of a command, by its format (R91 to R94, R96). -/
def encode : Instr → Word
  | .nop => encodeZ 0x00
  | .reset => encodeZ 0x01
  | .setcfg v e => 0x02#8 ++ 0#12 ++ v ++ 0#6 ++ e
  | .payclr => encodeZ 0x03
  | .paypush n data => 0x04#8 ++ 0#3 ++ n ++ data
  | .init => encodeZ 0x10
  | .ptiming => encodeZ 0x11
  | .pfinder => encodeZ 0x12
  | .psep => encodeZ 0x13
  | .pfmtrsv => encodeZ 0x14
  | .pverinfo => encodeZ 0x15
  | .place => encodeZ 0x20
  | .meval => encodeZ 0x30
  | .mcommit => encodeZ 0x31
  | .fmtenc m => 0x40#8 ++ 0#21 ++ m
  | .fmtencw => encodeZ 0x41
  | .fmtwrite => encodeZ 0x42
  | .qzone => encodeZ 0x50

/-- A row of the opcode map: a word `w` is the command exactly when `w & mask = value` (R96, whose column `match` this
calls `value`). -/
structure OpcodeRow where
  value : Word
  mask  : Word
  deriving DecidableEq, Repr

/-- The row of R96 each command stands on. -/
def rowOf : Instr → OpcodeRow
  | .nop => ⟨0x00000000, 0xFFFFFFFF⟩
  | .reset => ⟨0x01000000, 0xFFFFFFFF⟩
  | .setcfg _ _ => ⟨0x02000000, 0xFFFFF0FC⟩
  | .payclr => ⟨0x03000000, 0xFFFFFFFF⟩
  | .paypush _ _ => ⟨0x04000000, 0xFFE00000⟩
  | .init => ⟨0x10000000, 0xFFFFFFFF⟩
  | .ptiming => ⟨0x11000000, 0xFFFFFFFF⟩
  | .pfinder => ⟨0x12000000, 0xFFFFFFFF⟩
  | .psep => ⟨0x13000000, 0xFFFFFFFF⟩
  | .pfmtrsv => ⟨0x14000000, 0xFFFFFFFF⟩
  | .pverinfo => ⟨0x15000000, 0xFFFFFFFF⟩
  | .place => ⟨0x20000000, 0xFFFFFFFF⟩
  | .meval => ⟨0x30000000, 0xFFFFFFFF⟩
  | .mcommit => ⟨0x31000000, 0xFFFFFFFF⟩
  | .fmtenc _ => ⟨0x40000000, 0xFFFFFFF8⟩
  | .fmtencw => ⟨0x41000000, 0xFFFFFFFF⟩
  | .fmtwrite => ⟨0x42000000, 0xFFFFFFFF⟩
  | .qzone => ⟨0x50000000, 0xFFFFFFFF⟩

/-- The 18 rows of the opcode map, in the order of R96. -/
def opcodeTable : List OpcodeRow :=
  [rowOf .nop, rowOf .reset, rowOf (.setcfg 0 0), rowOf .payclr, rowOf (.paypush 0 0), rowOf .init]
  ++ [rowOf .ptiming, rowOf .pfinder, rowOf .psep, rowOf .pfmtrsv, rowOf .pverinfo, rowOf .place]
  ++ [rowOf .meval, rowOf .mcommit, rowOf (.fmtenc 0), rowOf .fmtencw, rowOf .fmtwrite, rowOf .qzone]

/-- `w & mask = match` (R96). -/
def OpcodeRow.covers (r : OpcodeRow) (w : Word) : Bool := w &&& r.mask == r.value

/-- Byte lane `k` carries bits `[8k+7:8k]`: the block is little-endian (R63). -/
def laneOf (w : Word) (k : Nat) : Byte := w.extractLsb' (8 * k) 8

/-- The word whose lanes 0 to 3 are the four bytes (R63). -/
def wordOfLanes (b0 b1 b2 b3 : Byte) : Word := b3 ++ b2 ++ b1 ++ b0

/-- Decoding of the bytes at ascending lanes: a command is exactly one word (R62, R63, R90). -/
def decodeBytes : List Byte → Except DecodeError Instr
  | [b0, b1, b2, b3] => decode (wordOfLanes b0 b1 b2 b3)
  | bs => .error (.notOneWord bs.length)

/-- The word an opcode-table number of `nbits` bits stands for: every bit above `nbits` is 0. -/
def tableWord (nbits w : Nat) : Word := BitVec.ofNat 32 (w % 2 ^ nbits)

/-- What the decoder reads from the bytes of an opcode-table word. -/
def decodeTableWord (nbits w : Nat) : Option Instr :=
  (decodeBytes ((List.range 4).map (laneOf (tableWord nbits w)))).toOption

end Sys2Proof
end

