-- ==== Sys2Proof/Config.lean ====
section
/-! DEFINITION. What is fixed for one QRMA: the fixed parameters of 00_scope.md rule R8, and the three open parameters
MASKFN, SCORE and FMT_COORDS of rule R7 as constants with no body (decisions D19, D33, D34, D40; log entry 3). -/

namespace Sys2Proof.Config

/-- Smallest supported version (R8). -/
def versionMin : Nat := 1
/-- Largest supported version (R8). -/
def versionMax : Nat := 6
/-- Rows and columns of the physical `GRID` and `DFLAG` arrays, `GS(6)` (R8). -/
abbrev gmax : Nat := 41
/-- Rows and columns of the physical `OUT` array, `GMAX + 2` (R8). -/
abbrev omax : Nat := 43
/-- Number of mask candidates (R8). -/
def nmask : Nat := 8
/-- Capacity of the payload buffer in bits (R8). -/
def payMax : Nat := 2048
/-- The hard-wired identification word (R29). -/
def idWord : Word := 0x51524D01
/-- The generator polynomial of the format code, 11 coefficients, highest degree first (R8, R236). -/
def gen : BitVec 15 := 0b10100110111
/-- The fixed constant the format code word is XORed with (R8, R237). -/
def fmtXor : BitVec 15 := 0b101010000010010

/-- A collaborator's raw answer to one query: an integer, or the block's `err` (R7, R80, R276). -/
inductive Answer where
  | int (n : Int)
  | err
  deriving DecidableEq, Repr, Inhabited

/-- FREE VALUE (log entry 3). MASKFN as the outside world connects it: mask id, row, column (R7, R204). -/
opaque maskFn : Nat → Nat → Nat → Answer

/-- FREE VALUE (log entry 3). SCORE as the outside world connects it: `gs` and the `gs * gs` cells of the candidate in
row-major order (R7, R79, R205). -/
opaque score : Nat → List Cell → Answer

/-- FREE VALUE (log entry 3). FMT_COORDS as the implementation fixes it: `gs`, copy 1 or 2, bit index; the answer is
`(row, col)` and may lie outside the grid (R7, R135, R244). -/
opaque fmtCoords : Nat → Nat → Nat → Int × Int

end Sys2Proof.Config
end

