-- ==== Sys2Proof/Machine/State.lean ====
section
/-! DEFINITION. The state of QRMA (10_state.md rules R20 to R40) as plain data, its reset value, and the reasons a step can
stop. Three fields are the model's own and no item of R20: `collab`, `inputs`, `reply` (log entries 1, 2, 3). -/

namespace Sys2Proof.Machine

/-- A square array of `n` rows and `n` columns, row first (R11, R35). -/
abbrev Plane (n : Nat) (α : Type) := Vector (Vector α n) n

/-- The values `PHASE` takes (R26). Codes 12, 13 and 14 are never taken and have no constructor (93 U18, log entry 6). -/
inductive Phase where
  | idle | cleared | timed | found | sepd | rsvd | patterned | placed | scoring | committed | fmtWritten | done | fault
  deriving DecidableEq, Repr

/-- The values `ERRCODE` takes (60_exceptions.md rule R270). Codes 9 to 15 are never written and have no constructor
(93 U18, log entry 6). Code 2 is reserved and no command writes it (R273). -/
inductive ErrCode where
  | noFault | unsupportedVersion | nonSquareMatrix | overlayOutOfBounds | payloadTooLong | collaborator | illegalCommand
  | sequence | operand
  deriving DecidableEq, Repr

/-- Which function answers a mask query where no listed answer does: the outside one, of which nothing is known, or the
eight standard predicates, the default of R7 (log entries 3 and 4). -/
inductive MaskBase where
  | free | standard
  deriving DecidableEq, Repr

/-- Which function answers a score query where no listed answer does: the outside one, of which nothing is known (R205
gives no default), or the stand-in of 95_test_vectors.md that counts `Black` cells. -/
inductive ScoreBase where
  | free | blackCount
  deriving DecidableEq, Repr

/-- Which table gives a format cell where no listed coordinate does: the implementation's own, of which nothing is known,
or the standard placement, the default of R7 (log entries 3 and 4). -/
inductive CoordsBase where
  | free | standard
  deriving DecidableEq, Repr

/-- The three open parameters of 00_scope.md rule R7 as plain data: the pure functions MASKFN, SCORE and FMT_COORDS, each
given by answers listed for single queries over a base. They are fixed for the whole of a run (R14): no step changes them. -/
structure Collab where
  /-- MASKFN, keyed by mask id, row and column. -/
  maskList   : List ((Nat × Nat × Nat) × Config.Answer)
  maskBase   : MaskBase
  /-- SCORE, keyed by `gs` and the row-major cells of the candidate. -/
  scoreList  : List ((Nat × List Cell) × Config.Answer)
  scoreBase  : ScoreBase
  /-- FMT_COORDS, keyed by `gs`, copy and bit index. -/
  coordsList : List ((Nat × Nat × Nat) × (Int × Int))
  coordsBase : CoordsBase
  deriving DecidableEq, Repr

/-- One bus access of the host: its width in bytes, its byte address and, for a write, the low 32 bits of its data
(20_memory.md rules R60, R62, R66, R67). -/
inductive Access where
  | read (bytes : Nat) (addr : Addr)
  | write (bytes : Nat) (addr : Addr) (data : Word)
  deriving DecidableEq, Repr

/-- What the outside does to the block: a bus access, or the hardware reset input (R6, R286, R300). -/
inductive Input where
  | access (a : Access)
  | resetPin
  deriving DecidableEq, Repr

/-- What the bus answers to an access (R64, R66, R67, R282). -/
inductive Reply where
  | data (w : Word)
  | ack
  | busError
  deriving DecidableEq, Repr

/-- The state. Fields from `version` to `errInfo` are the items of R20 (`PAYLEN` is the length of `pay`, R37, log entry 7). -/
structure State where
  /-- `VERSION`, as the host gave it, not validated (R25). -/
  version    : BitVec 4
  /-- `ECL`, the level by ordinal: 0 L, 1 M, 2 Q, 3 H (R24). -/
  ecl        : BitVec 2
  /-- `PHASE` (R26). -/
  phase      : Phase
  /-- `GRID`, the module matrix in the 41 x 41 array (R35). -/
  grid       : Plane Config.gmax Cell
  /-- `DFLAG`, true at the coordinates that received a payload bit (R36). -/
  dflag      : Plane Config.gmax Bool
  /-- `PAY`, the payload bits, element 0 first (R37). -/
  pay        : List Bool
  /-- `NPLACED`, the number of payload bits placed (R20). -/
  nplaced    : BitVec 12
  /-- `INCOMPLETE`, set when `PLACE` left `Unset` cells behind (R27). -/
  incomplete : Bool
  /-- `MCNT`, how many candidates have been scored, 0..8 (R20, R200). -/
  mcnt       : Fin 9
  /-- `MINSCORE`, the running minimum, two's complement (R33). -/
  minscore   : BitVec 32
  /-- `BEST`, the mask id that achieved `MINSCORE` first (R33). -/
  best       : BitVec 3
  /-- `FMTRAW`, the format code word before the fixed XOR (R34). -/
  fmtraw     : BitVec 15
  /-- `FMTVAL`, the format-information value (R34). -/
  fmtval     : BitVec 15
  /-- `FMTMASK`, the mask id `FMTRAW` and `FMTVAL` were computed for (R34). -/
  fmtmask    : BitVec 3
  /-- `FMT_VALID`, set when `FMTVAL` was computed for the committed winner (R27). -/
  fmtValid   : Bool
  /-- `OUT`, the bordered output matrix in the 43 x 43 array (R38). -/
  out        : Plane Config.omax Cell
  /-- `ERRCODE` (R270). -/
  errCode    : ErrCode
  /-- `ERRPHASE`, `PHASE` at the moment of the fault (R280). -/
  errPhase   : Phase
  /-- `ERRINFO`, the command word that faulted (R280). -/
  errInfo    : Word
  /-- MODEL'S OWN: the open parameters of R7 (log entry 3). -/
  collab     : Collab
  /-- MODEL'S OWN: what the outside will do next, oldest first (log entry 1). -/
  inputs     : List Input
  /-- MODEL'S OWN: what the bus answered last, none before the first access (log entry 2). -/
  reply      : Option Reply
  deriving DecidableEq, Repr

/-- What stops the machine. Faults of the SPEC (60_exceptions.md) are no such stop: they are states (phase `FAULT`). -/
inductive Fault where
  /-- Raised by the commands that work on the live grid (PTIMING, PFINDER, PSEP, PFMTRSV, PLACE, MEVAL, MCOMMIT, FMTWRITE,
  QZONE) when issued in their phase while `gs` is larger than the physical arrays, that is, `VERSION` is 7..15: a coordinate
  below `gs` then names a cell that does not exist (R35). No run reaches such a state (R42 item 7). Safe (log entry 8). -/
  | beyondArrays
  deriving DecidableEq, Repr

/-- Why the model gives no meaning to an instruction. -/
inductive Refusal where
  /-- Raised by an arm of `exec` whose instruction has no meaning yet; no arm raises it. Safe. -/
  | notModelled (mnemonic : String)
  deriving DecidableEq, Repr

/-- Every cell of an array holds `a`. -/
def planeFill (n : Nat) {α : Type} (a : α) : Plane n α := Vector.replicate n (Vector.replicate n a)

/-- The open parameters at reset: nothing listed, every base the outside one, of which nothing is known (log entry 3). -/
def Collab.unknown : Collab :=
  { maskList := [], maskBase := .free, scoreList := [], scoreBase := .free, coordsList := [], coordsBase := .free }

/-- The state right after reset (R40): every item at the value of R40's table; the model's own fields at the values of log
entries 1, 2 and 3. -/
def State.reset : State where
  version    := 0
  ecl        := 0
  phase      := .idle
  grid       := planeFill Config.gmax .unset
  dflag      := planeFill Config.gmax false
  pay        := []
  nplaced    := 0
  incomplete := false
  mcnt       := 0
  minscore   := 0
  best       := 0
  fmtraw     := 0
  fmtval     := 0
  fmtmask    := 0
  fmtValid   := false
  out        := planeFill Config.omax .unset
  errCode    := .noFault
  errPhase   := .idle
  errInfo    := 0
  collab     := Collab.unknown
  inputs     := []
  reply      := none

end Sys2Proof.Machine
end

