-- ==== Sys2Proof/Machine/Plane.lean ====
section
/-! DEFINITION. Reading and writing one element of the internal arrays (00_scope.md rule R13), and the codes of a cell (R12). -/

namespace Sys2Proof.Machine

/-- Element at row `r`, column `c`; `d` where the array has no such element. -/
def planeGet {n : Nat} {α : Type} (p : Plane n α) (r c : Nat) (d : α) : α := (p[r]?.bind fun row => row[c]?).getD d

/-- Write of one element; nothing where the array has no such element. -/
def planeSet {n : Nat} {α : Type} (p : Plane n α) (r c : Nat) (a : α) : Plane n α :=
  if h : r < n then p.set r (p[r].setIfInBounds c a) else p

/-- The array whose element at row `r`, column `c` is `f r c`. -/
def planeBuild (n : Nat) {α : Type} (f : Nat → Nat → α) : Plane n α :=
  Vector.ofFn fun r => Vector.ofFn fun c => f r.val c.val

/-- The 2-bit code of a cell (R12). -/
def cellCode : Cell → BitVec 2
  | .white => 0
  | .black => 1
  | .reserved => 2
  | .unset => 3

/-- The cell of a 2-bit code: all four codes are values (R12). -/
def cellOfCode (b : BitVec 2) : Cell :=
  if b = 0 then .white else if b = 1 then .black else if b = 2 then .reserved else .unset

/-- `White` or `Black`: the code has bit 1 clear (R12). -/
def cellIsColour (x : Cell) : Bool := !(cellCode x).getLsbD 1

/-- The colour of a bit: 1 is `Black`, 0 is `White` (R190, R246). -/
def colourOf (b : Bool) : Cell := if b then .black else .white

/-- XOR of a mask bit on bit 0 of the cell code (R208). -/
def cellXor (x : Cell) (b : Bool) : Cell := cellOfCode (cellCode x ^^^ if b then 1 else 0)

/-- `GRID[r][c]`. -/
def State.cell (s : State) (r c : Nat) : Cell := planeGet s.grid r c .unset

/-- `DFLAG[r][c]`. -/
def State.flag (s : State) (r c : Nat) : Bool := planeGet s.dflag r c false

/-- `OUT[r][c]`. -/
def State.outCell (s : State) (r c : Nat) : Cell := planeGet s.out r c .unset

end Sys2Proof.Machine
end

