-- ==== Sys2Proof/Machine/Operands.lean ====
section
/-! DEFINITION. The operands of the commands: the grid size, ranges of coordinates, the bits of a payload push, and the
answers of the three open parameters (00_scope.md rules R7, R9, R13; 30_encoding.md rule R95). -/

namespace Sys2Proof.Machine

/-- `GS(v) = 4*v + 17` (R8, R9). -/
def gridSize (v : Nat) : Nat := 4 * v + 17

/-- The inverse map, defined on the values `4*v + 17` only; no command uses it (R9, decision D36). -/
def versionOfSize (n : Nat) : Nat := (n - 17) / 4

/-- `CAP(v)`, the number of cells left free by the fixed passes (R8, R186). -/
def capacity (v : Nat) : Nat := gridSize v ^ 2 - 2 * gridSize v - 191

/-- `gs`, wherever a rule uses it (R25). -/
def State.gs (s : State) : Nat := gridSize s.version.toNat

/-- `PAYLEN` (R20, R37). -/
def State.payLen (s : State) : Nat := s.pay.length

/-- `VERSION` is in 1..6 (R130, R271). -/
def versionSupported (v : BitVec 4) : Bool := decide (Config.versionMin ≤ v.toNat) && decide (v.toNat ≤ Config.versionMax)

/-- `for x in a..b`: `a`, `a+1`, ..., `b`, empty when `b < a` (R13). -/
def span (a b : Int) : List Int := (List.range (b - a + 1).toNat).map fun (k : Nat) => a + (k : Int)

/-- The coordinates of the `n` by `n` grid in row-major order (R78, R79). -/
def coords (n : Nat) : List (Nat × Nat) := (List.range n).flatMap fun r => (List.range n).map fun c => (r, c)

/-- The bits `data[n-1]`, ..., `data[0]` in this order (R95, R128). -/
def pushedBits (n : BitVec 5) (data : BitVec 16) : List Bool :=
  (List.range n.toNat).map fun j => data.getLsbD (n.toNat - 1 - j)

/-- The three checks of `PAYPUSH`, with `len` the current `PAYLEN` (R128): true when the fault `Operand` is raised. -/
def pushRefused (n : BitVec 5) (data : BitVec 16) (len : Nat) : Bool :=
  decide (n.toNat < 1 ∨ 16 < n.toNat)
  || decide (data.toNat >>> n.toNat ≠ 0)
  || decide (Config.payMax < len + n.toNat)

/-- The eight standard mask predicates, the default of MASKFN (R206, general knowledge, log entry 4). -/
def standardMask (k i j : Nat) : Bool :=
  match k with
  | 0 => (i + j) % 2 == 0
  | 1 => i % 2 == 0
  | 2 => j % 3 == 0
  | 3 => (i + j) % 3 == 0
  | 4 => (i / 2 + j / 3) % 2 == 0
  | 5 => (i * j) % 2 + (i * j) % 3 == 0
  | 6 => ((i * j) % 2 + (i * j) % 3) % 2 == 0
  | _ => ((i + j) % 2 + (i * j) % 3) % 2 == 0

/-- The standard placement of format bit `i`, the default of FMT_COORDS (R244, general knowledge, log entry 4). -/
def standardCoords (gs copy i : Nat) : Int × Int :=
  if copy = 1 then
    if i ≤ 5 then (i, 8) else if i = 6 then (7, 8) else if i = 7 then (8, 8) else if i = 8 then (8, 7) else (8, 14 - (i : Int))
  else if i ≤ 7 then (8, (gs : Int) - 1 - i) else ((gs : Int) - 15 + i, 8)

/-- `MASKFN(k, r, c)`, the raw answer (R7, R204). -/
def Collab.maskAnswer (x : Collab) (k r c : Nat) : Config.Answer :=
  match x.maskList.lookup (k, r, c) with
  | some a => a
  | none =>
    match x.maskBase with
    | .free => Config.maskFn k r c
    | .standard => .int (if standardMask k r c then 1 else 0)

/-- `SCORE(gs, cand)`, the raw answer (R7, R205). -/
def Collab.scoreAnswer (x : Collab) (gs : Nat) (cand : List Cell) : Config.Answer :=
  match x.scoreList.lookup (gs, cand) with
  | some a => a
  | none =>
    match x.scoreBase with
    | .free => Config.score gs cand
    | .blackCount => .int (cand.count .black)

/-- `FMT_COORDS(gs, copy, i)` (R7, R244). -/
def Collab.coordsOf (x : Collab) (gs copy i : Nat) : Int × Int :=
  match x.coordsList.lookup (gs, copy, i) with
  | some p => p
  | none =>
    match x.coordsBase with
    | .free => Config.fmtCoords gs copy i
    | .standard => standardCoords gs copy i

/-- A mask answer as the block takes it: the bit, or none for `err`, which is anything but 0 or 1 (R204, R276). -/
def maskBit : Config.Answer → Option Bool
  | .int n => if n = 0 then some false else if n = 1 then some true else none
  | .err => none

/-- A score as the block takes it: a 32-bit two's-complement value, or none for `err`, which is anything outside
`-2^31 .. 2^31 - 1` (R79, R276). -/
def scoreWord : Config.Answer → Option (BitVec 32)
  | .int n => if -2 ^ 31 ≤ n ∧ n ≤ 2 ^ 31 - 1 then some (BitVec.ofInt 32 n) else none
  | .err => none

end Sys2Proof.Machine
end

