-- ==== Sys2Proof/Machine/Flags.lean ====
section
/-! DEFINITION. The status flags, the output lines and the codes a host reads (10_state.md rules R26, R27, R31;
60_exceptions.md rules R270, R287). -/

namespace Sys2Proof.Machine

/-- The code of a phase (R26). -/
def phaseCode : Phase → BitVec 4
  | .idle => 0
  | .cleared => 1
  | .timed => 2
  | .found => 3
  | .sepd => 4
  | .rsvd => 5
  | .patterned => 6
  | .placed => 7
  | .scoring => 8
  | .committed => 9
  | .fmtWritten => 10
  | .done => 11
  | .fault => 15

/-- The code of a fault (R270). -/
def errCodeBits : ErrCode → BitVec 4
  | .noFault => 0
  | .unsupportedVersion => 1
  | .nonSquareMatrix => 2
  | .overlayOutOfBounds => 3
  | .payloadTooLong => 4
  | .collaborator => 5
  | .illegalCommand => 6
  | .sequence => 7
  | .operand => 8

/-- Flag `ERR`: not stored, 1 when `PHASE = FAULT` (R27). -/
def State.errFlag (s : State) : Bool := s.phase == .fault

/-- Flag `DONE`: not stored, 1 when `PHASE = DONE` (R27). -/
def State.doneFlag (s : State) : Bool := s.phase == .done

/-- Output line `fault` (R287). -/
def State.faultLine (s : State) : Bool := s.errFlag

/-- Output line `done` (R287). -/
def State.doneLine (s : State) : Bool := s.doneFlag

/-- Flag `INCOMPLETE` as `PLACE` computes it: fewer bits than free cells (R188). -/
def incompleteFlag (len nfree : Nat) : Bool := decide (len < nfree)

/-- Strict signed comparison of two scores (R210). -/
def scoreLess (a b : BitVec 32) : Bool := a.slt b

end Sys2Proof.Machine
end

