-- ==== Sys2Proof/Machine/Ops.lean ====
section
/-! DEFINITION. The shared operations: fault entry and the way out of it, the legality of a command in a phase, the frame in
which every command runs, and Overlay (10_state.md rule R26; 30_encoding.md rule R100; 40_matrix_control.md rule R134;
60_exceptions.md rules R279 to R283). -/

namespace Sys2Proof.Machine

/-- A step's answer. -/
abbrev Result := Host.Outcome State Fault Refusal

/-- FAULT ENTRY (R280): fault `f` raised on command word `w`. "Nothing else is written." -/
def State.takeFault (s : State) (f : ErrCode) (w : Word) : State :=
  { s with errCode := f, errPhase := s.phase, errInfo := w, phase := .fault }

/-- RESET, the only way out of `FAULT` (R124, R283, R300): every item of R20 gets its value of R40. The open parameters are
no item of R20 and stay (R14), and so does what the outside will still do. -/
def State.resetBlock (s : State) : State :=
  { State.reset with collab := s.collab, inputs := s.inputs, reply := s.reply }

/-- In which phases a command is legal (the table of R26; `RESET` in every phase, R124). The conditions on `MCNT` and
`FMT_VALID` in that table are the commands' own first checks (R279 item 5). -/
def legalIn (i : Instr) (p : Phase) : Bool :=
  match i with
  | .nop => p != .fault
  | .reset => true
  | .setcfg _ _ => p == .idle || p == .done
  | .payclr => p == .idle || p == .done
  | .paypush _ _ => p == .idle || p == .done
  | .init => p == .idle || p == .done
  | .ptiming => p == .cleared
  | .pfinder => p == .timed
  | .psep => p == .found
  | .pfmtrsv => p == .sepd
  | .pverinfo => p == .rsvd
  | .place => p == .patterned
  | .meval => p == .placed || p == .scoring
  | .mcommit => p == .scoring
  | .fmtenc _ => p != .fault
  | .fmtencw => p == .committed
  | .fmtwrite => p == .committed
  | .qzone => p == .fmtWritten

/-- The commands that name cells by coordinates below `gs`. -/
def usesGrid : Instr → Bool
  | .nop => false
  | .reset => false
  | .setcfg _ _ => false
  | .payclr => false
  | .paypush _ _ => false
  | .init => false
  | .ptiming => true
  | .pfinder => true
  | .psep => true
  | .pfmtrsv => true
  | .pverinfo => false
  | .place => true
  | .meval => true
  | .mcommit => true
  | .fmtenc _ => false
  | .fmtencw => false
  | .fmtwrite => true
  | .qzone => true

/-- The frame of R100 around the rule `body` of a decoded command `i`: in `FAULT` the word is discarded (R282); then the
phase check; then the command's own checks and effect. A raised fault is entered with the command's word (R280); what `body`
computed before it raised is dropped, so no command half-completes (R281). -/
def runCommand (i : Instr) (body : State → Except ErrCode State) (s : State) : Result :=
  if s.phase = .fault then .next s
  else if legalIn i s.phase = false then .next (s.takeFault .sequence (encode i))
  else if usesGrid i = true ∧ Config.gmax < s.gs then .fault .beyondArrays
  else
    match body s with
    | .ok t => .next t
    | .error f => .next (s.takeFault f (encode i))

/-- A word that matches no command (R97, R278); in `FAULT` it is discarded (R282). -/
def illegalWord (w : Word) (s : State) : Result :=
  if s.phase = .fault then .next s else .next (s.takeFault .illegalCommand w)

/-- A triple of an Overlay list: row, column, value (R134). -/
abbrev Triple := Int × Int × Cell

/-- `0 <= r < gs` and `0 <= c < gs` (R134). -/
def inGrid (gs : Nat) (r c : Int) : Bool := decide (0 ≤ r) && decide (r < gs) && decide (0 ≤ c) && decide (c < gs)

/-- `GRID[r][c] <- v` for every triple, in list order, so that a later one wins (R134). -/
def writeTriples (g : Plane Config.gmax Cell) (l : List Triple) : Plane Config.gmax Cell :=
  l.foldl (fun acc t => planeSet acc t.1.toNat t.2.1.toNat t.2.2) g

/-- OVERLAY (R134): all coordinates are checked before any cell is written. -/
def overlay (l : List Triple) (s : State) : Except ErrCode State :=
  if l.all (fun t => inGrid s.gs t.1 t.2.1) then .ok { s with grid := writeTriples s.grid l }
  else .error .overlayOutOfBounds

/-- `PHASE <- p`. -/
def State.enter (s : State) (p : Phase) : State := { s with phase := p }

end Sys2Proof.Machine
end

