-- ==== Sys2Proof/Machine/Control.lean ====
section
/-! DEFINITION. Control, input and Matrix creation: NOP, RESET, SETCFG, PAYCLR, PAYPUSH, INIT (40_matrix_control.md). -/

namespace Sys2Proof.Machine

/-- NOP (R122): nothing, `PHASE` included. -/
def execNop (s : State) : Result := runCommand .nop (fun t => .ok t) s

/-- RESET (R124): legal in every phase, `FAULT` included. -/
def execReset (s : State) : Result := .next s.resetBlock

/-- The effect of SETCFG (R126): `v` is not validated here. -/
def setcfgBody (v : BitVec 4) (e : BitVec 2) (s : State) : Except ErrCode State :=
  .ok { s with version := v, ecl := e, phase := .idle }

/-- SETCFG v, e (R126). -/
def execSetcfg (v : BitVec 4) (e : BitVec 2) (s : State) : Result := runCommand (.setcfg v e) (setcfgBody v e) s

/-- PAYCLR (R127). -/
def execPayclr (s : State) : Result := runCommand .payclr (fun t => .ok { t with pay := [] }) s

/-- The checks and the effect of PAYPUSH (R128): most significant of the `n` bits first. -/
def paypushBody (n : BitVec 5) (data : BitVec 16) (s : State) : Except ErrCode State :=
  if pushRefused n data s.payLen then .error .operand else .ok { s with pay := s.pay ++ pushedBits n data }

/-- PAYPUSH n, data (R128). -/
def execPaypush (n : BitVec 5) (data : BitVec 16) (s : State) : Result := runCommand (.paypush n data) (paypushBody n data) s

/-- The effect of INIT once the version has passed (R130): all 41 x 41 physical cells are cleared. -/
def State.cleared (s : State) : State :=
  { s with
    grid := planeFill Config.gmax .unset
    dflag := planeFill Config.gmax false
    nplaced := 0
    incomplete := false
    mcnt := 0
    minscore := 0
    best := 0
    fmtValid := false
    phase := .cleared }

/-- INIT's check comes before any write (R130). -/
def initBody (s : State) : Except ErrCode State :=
  if versionSupported s.version then .ok s.cleared else .error .unsupportedVersion

/-- INIT (R130). -/
def execInit (s : State) : Result := runCommand .init initBody s

end Sys2Proof.Machine
end

