-- ==== Sys2Proof/Machine/Format.lean ====
section
/-! DEFINITION. The Format-Information Codec: FMTENC, FMTENCW, FMTWRITE (44_format_info.md). -/

namespace Sys2Proof.Machine

/-- The 2-bit indicator of an ECL code: L 1, M 0, Q 3, H 2 (R232). -/
def indicator (e : BitVec 2) : BitVec 2 :=
  if e = 0 then 1 else if e = 1 then 0 else if e = 2 then 3 else 2

/-- The five data bits: `(indicator << 3) | mask_id` (R234). -/
def formatData (e : BitVec 2) (m : BitVec 3) : BitVec 5 := indicator e ++ m

/-- One step of the long division, for bit `i` (R236). -/
def bchStep (x : BitVec 15) (i : Nat) : BitVec 15 := if x.getLsbD i then x ^^^ (Config.gen <<< (i - 10)) else x

/-- The remainder of `d(x) * x^10` by the generator, bits 14 down to 10 (R236). -/
def bchRem (d : BitVec 5) : BitVec 10 := ([14, 13, 12, 11, 10].foldl bchStep (d ++ 0#10)).extractLsb' 0 10

/-- `raw`, the systematic 15-bit code word (R230, R236). -/
def formatRaw (e : BitVec 2) (m : BitVec 3) : BitVec 15 := formatData e m ++ bchRem (formatData e m)

/-- `val`, the format-information value (R230, R237). -/
def formatVal (e : BitVec 2) (m : BitVec 3) : BitVec 15 := formatRaw e m ^^^ Config.fmtXor

/-- `FMTRAW`, `FMTVAL` and `FMTMASK` are written together (R34), for mask id `m` under the current `ECL`. -/
def State.formatted (s : State) (m : BitVec 3) (valid : Bool) : State :=
  { s with fmtraw := formatRaw s.ecl m, fmtval := formatVal s.ecl m, fmtmask := m, fmtValid := valid }

/-- FMTENC m (R238): a probe; it clears `FMT_VALID`. -/
def execFmtenc (m : BitVec 3) (s : State) : Result := runCommand (.fmtenc m) (fun t => .ok (t.formatted m false)) s

/-- FMTENCW (R240): for the committed winner; it sets `FMT_VALID`. -/
def execFmtencw (s : State) : Result := runCommand .fmtencw (fun t => .ok (t.formatted t.best true)) s

/-- Format bit `i` in copy `k` (R244, R246). -/
def formatTriple (s : State) (k i : Nat) : Triple :=
  ((s.collab.coordsOf s.gs k i).1, (s.collab.coordsOf s.gs k i).2, colourOf (s.fmtval.getLsbD i))

/-- FMTWRITE's 32 triples: both copies of the 15 bits, then the two timing cells (R246, R248). -/
def formatTriples (s : State) : List Triple :=
  ((List.range 15).flatMap fun i => [formatTriple s 1 i, formatTriple s 2 i]) ++ [(6, 8, Cell.black), (8, 6, Cell.black)]

/-- FMTWRITE's checks and effect (R246). -/
def fmtwriteBody (s : State) : Except ErrCode State :=
  if s.fmtValid = false then .error .sequence
  else
    match overlay (formatTriples s) s with
    | .error f => .error f
    | .ok t => .ok (t.enter .fmtWritten)

/-- FMTWRITE (R246). -/
def execFmtwrite (s : State) : Result := runCommand .fmtwrite fmtwriteBody s

end Sys2Proof.Machine
end

