-- ==== Sys2Proof/Machine/MaskEngine.lean ====
section
/-! DEFINITION. The Mask Engine: the candidate matrix, MEVAL and MCOMMIT (43_mask_engine.md). -/

namespace Sys2Proof.Machine

/-- A mask query at `(r, c)` for mask id `k`: the bit, or none for `err` (R78, R80, R204). -/
def State.maskQuery (s : State) (k r c : Nat) : Option Bool := maskBit (s.collab.maskAnswer k r c)

/-- Some mask query that `Cand(k)` makes answers `err`. The block asks at the data region only (R78, R202). -/
def State.maskErr (s : State) (k : Nat) : Bool :=
  (coords s.gs).any fun p => s.flag p.1 p.2 && (s.maskQuery k p.1 p.2).isNone

/-- `Cand(k)[r][c]` where no mask query answers `err` (R208). -/
def State.candCell (s : State) (k r c : Nat) : Cell :=
  if s.flag r c then cellXor (s.cell r c) ((s.maskQuery k r c).getD false) else s.cell r c

/-- The candidate matrix handed to SCORE, row-major (R79, R208). -/
def State.candidate (s : State) (k : Nat) : List Cell := (coords s.gs).map fun p => s.candCell k p.1 p.2

/-- The score of candidate `k`, or none when a collaborator answers `err`; a mask `err` comes before the score query is
made (R210, R279). -/
def State.candScore (s : State) (k : Nat) : Option (BitVec 32) :=
  if s.maskErr k then none else scoreWord (s.collab.scoreAnswer s.gs (s.candidate k))

/-- The running minimum after score `v` of candidate `k = MCNT` (R210): the first is taken without a comparison, a later one
only when strictly less. -/
def State.scored (s : State) (v : BitVec 32) (next : Fin 9) : State :=
  if s.mcnt.val = 0 ∨ scoreLess v s.minscore then
    { s with minscore := v, best := BitVec.ofNat 3 s.mcnt.val, mcnt := next, phase := .scoring }
  else { s with mcnt := next, phase := .scoring }

/-- MEVAL's checks and effect (R210). -/
def mevalBody (s : State) : Except ErrCode State :=
  if h : s.mcnt.val < 8 then
    match s.candScore s.mcnt.val with
    | none => .error .collaborator
    | some v => .ok (s.scored v ⟨s.mcnt.val + 1, by omega⟩)
  else .error .sequence

/-- MEVAL (R210). -/
def execMeval (s : State) : Result := runCommand .meval mevalBody s

/-- `GRID` with `Cand(k)` written over its `gs x gs` cells (R214). -/
def State.committed (s : State) (k : Nat) : State :=
  { s with
    grid := planeBuild Config.gmax fun r c => if r < s.gs ∧ c < s.gs then s.candCell k r c else s.cell r c
    phase := .committed }

/-- MCOMMIT's checks and effect (R214). -/
def mcommitBody (s : State) : Except ErrCode State :=
  if s.mcnt.val ≠ 8 then .error .sequence
  else if s.maskErr s.best.toNat then .error .collaborator
  else .ok (s.committed s.best.toNat)

/-- MCOMMIT (R214). -/
def execMcommit (s : State) : Result := runCommand .mcommit mcommitBody s

end Sys2Proof.Machine
end

