-- ==== Sys2Proof/Machine/Pattern.lean ====
section
/-! DEFINITION. The Fixed-Pattern Placer: PTIMING, PFINDER, PSEP, PFMTRSV, PVERINFO (41_pattern_placer.md). Every pass is an
ordered list of triples given to Overlay; `PHASE` fixes the order of the passes (R136, R150). -/

namespace Sys2Proof.Machine

/-- The timing value of an index (R154). -/
def timing (i : Int) : Cell := if i % 2 = 0 then .black else .white

/-- The timing row, first pass of PTIMING (R152). -/
def timingRow (gs : Nat) : List Triple := (span 0 (gs - 1)).map fun c => (6, c, timing c)

/-- The timing column, second pass of PTIMING (R152). -/
def timingColumn (gs : Nat) : List Triple := (span 0 (gs - 1)).map fun r => (r, 6, timing r)

/-- PTIMING's two overlays, row pass first (R152). -/
def ptimingBody (s : State) : Except ErrCode State :=
  match overlay (timingRow s.gs) s with
  | .error f => .error f
  | .ok t =>
    match overlay (timingColumn s.gs) t with
    | .error f => .error f
    | .ok u => .ok (u.enter .timed)

/-- PTIMING (R152). -/
def execPtiming (s : State) : Result := runCommand .ptiming ptimingBody s

/-- One overlay, then the next phase: the shape of the other passes. -/
def overlayThen (l : List Triple) (p : Phase) (s : State) : Except ErrCode State :=
  match overlay l s with
  | .error f => .error f
  | .ok t => .ok (t.enter p)

/-- The finder cell of offsets -1..6 (R158). -/
def finder (r c : Int) : Cell :=
  if ((r = 0 ∨ r = 6) ∧ 0 ≤ c ∧ c ≤ 6) ∨ ((c = 0 ∨ c = 6) ∧ 0 ≤ r ∧ r ≤ 6)
      ∨ (2 ≤ r ∧ r ≤ 4 ∧ 2 ≤ c ∧ c ≤ 4) then .black
  else .white

/-- The top-left corners of the three boxes, in order (R156). -/
def finderCorners (gs : Nat) : List (Int × Int) := [(0, 0), ((gs : Int) - 7, 0), (0, (gs : Int) - 7)]

/-- One finder's 8 x 8 window of offsets, clipped to the grid (R156). -/
def finderWindow (gs : Nat) (corner : Int × Int) : List Triple :=
  (span (-1) 6).flatMap fun r =>
    ((span (-1) 6).filter fun c => inGrid gs (corner.1 + r) (corner.2 + c)).map fun c =>
      (corner.1 + r, corner.2 + c, finder r c)

/-- PFINDER's list (R156). -/
def finderTriples (gs : Nat) : List Triple := (finderCorners gs).flatMap (finderWindow gs)

/-- PFINDER (R156). -/
def execPfinder (s : State) : Result := runCommand .pfinder (fun t => overlayThen (finderTriples t.gs) .found t) s

/-- PSEP's six segments S1 to S6 (R160). -/
def separatorTriples (gs : Nat) : List Triple :=
  ((span 0 7).map fun c => (7, c, Cell.white))
  ++ ((span 0 7).map fun r => (r, 7, Cell.white))
  ++ ((span (gs - 8) (gs - 1)).map fun c => (7, c, Cell.white))
  ++ ((span 0 7).map fun r => (r, (gs : Int) - 8, Cell.white))
  ++ ((span 0 7).map fun c => ((gs : Int) - 8, c, Cell.white))
  ++ ((span (gs - 8) (gs - 1)).map fun r => (r, 7, Cell.white))

/-- PSEP (R160). -/
def execPsep (s : State) : Result := runCommand .psep (fun t => overlayThen (separatorTriples t.gs) .sepd t) s

/-- PFMTRSV's list; the dark module is last, so it wins (R164, R166). -/
def reservationTriples (gs : Nat) : List Triple :=
  ((span 0 7).map fun c => (8, c, Cell.reserved))
  ++ ((span (gs - 8) (gs - 1)).map fun c => (8, c, Cell.reserved))
  ++ ((span 0 8).map fun r => (r, 8, Cell.reserved))
  ++ ((span (gs - 8) (gs - 1)).map fun r => (r, 8, Cell.reserved))
  ++ [((gs : Int) - 8, 8, Cell.black)]

/-- PFMTRSV (R164). -/
def execPfmtrsv (s : State) : Result := runCommand .pfmtrsv (fun t => overlayThen (reservationTriples t.gs) .rsvd t) s

/-- The version-information function on all versions: an empty list of triples, or `UnsupportedVersion` from 7 up (R170). -/
def versionInfo (v : Nat) : Except ErrCode (List Triple) := if 7 ≤ v then .error .unsupportedVersion else .ok []

/-- PVERINFO's check and its empty overlay (R170). -/
def pverinfoBody (s : State) : Except ErrCode State :=
  match versionInfo s.version.toNat with
  | .error f => .error f
  | .ok l => overlayThen l .patterned s

/-- PVERINFO (R170). -/
def execPverinfo (s : State) : Result := runCommand .pverinfo pverinfoBody s

end Sys2Proof.Machine
end

