-- ==== Sys2Proof/Machine/QuietZone.lean ====
section
/-! DEFINITION. The quiet zone and the output matrix: QZONE (45_quiet_zone.md). -/

namespace Sys2Proof.Machine

/-- `OUT[R][C]` after QZONE (R260): the border ring, the centred original, and `Unset` outside `(gs+2) x (gs+2)`. -/
def borderedCell (s : State) (r c : Nat) : Cell :=
  if r ≤ s.gs + 1 ∧ c ≤ s.gs + 1 then
    if r = 0 ∨ r = s.gs + 1 ∨ c = 0 ∨ c = s.gs + 1 then .white else s.cell (r - 1) (c - 1)
  else .unset

/-- QZONE's effect (R260): `GRID` is not changed. -/
def State.bordered (s : State) : State := { s with out := planeBuild Config.omax (borderedCell s), phase := .done }

/-- QZONE (R260). -/
def execQzone (s : State) : Result := runCommand .qzone (fun t => .ok t.bordered) s

end Sys2Proof.Machine
end

