-- ==== Sys2Proof/Machine/Walker.lean ====
section
/-! DEFINITION. The Data Placement Walker: the walk order and PLACE (42_data_walker.md). -/

namespace Sys2Proof.Machine

/-- The right column of sweep `k` (R180): the loop value `c0 = gs-1-2k`, shifted left by one when it is at most 6. -/
def sweepColumn (gs k : Nat) : Nat := if gs - 1 - 2 * k ≤ 6 then gs - 1 - 2 * k - 1 else gs - 1 - 2 * k

/-- The rows of sweep `k` (R180): sweep 0 goes up, from row `gs-1` to row 0; the sweeps alternate. -/
def sweepRows (gs k : Nat) : List Nat := if k % 2 = 0 then (List.range gs).reverse else List.range gs

/-- One sweep: in every row the right cell of the pair first (R180). -/
def sweep (gs k : Nat) : List (Nat × Nat) :=
  (sweepRows gs k).flatMap fun r => [(r, sweepColumn gs k), (r, sweepColumn gs k - 1)]

/-- `Walk(gs)` (R180): the sweeps of the loop values `gs-1, gs-3, ..., 2`. It does not read `GRID` (R185). -/
def walk (gs : Nat) : List (Nat × Nat) := (List.range ((gs - 1) / 2)).flatMap (sweep gs)

/-- The coordinates of the walk whose cell is `Unset`, in walk order (R188). -/
def freeCells (s : State) : List (Nat × Nat) := (walk s.gs).filter fun p => s.cell p.1 p.2 == .unset

/-- The loop of PLACE (R188): the grid, the data flags and the number of bits placed. -/
def placeLoop : List (Nat × Nat) → List Bool → Plane Config.gmax Cell → Plane Config.gmax Bool → Nat →
    Plane Config.gmax Cell × Plane Config.gmax Bool × Nat
  | [], _, g, d, i => (g, d, i)
  | (r, c) :: rest, bits, g, d, i =>
    match bits with
    | [] => (g, d, i)
    | b :: more =>
      if planeGet g r c .unset = .unset then
        placeLoop rest more (planeSet g r c (colourOf b)) (planeSet d r c true) (i + 1)
      else placeLoop rest bits g d i

/-- What PLACE leaves once the payload has been found to fit (R188). -/
def State.placedBits (s : State) : State :=
  let t := placeLoop (walk s.gs) s.pay s.grid s.dflag 0
  { s with
    grid := t.1
    dflag := t.2.1
    nplaced := BitVec.ofNat 12 t.2.2
    incomplete := incompleteFlag s.payLen (freeCells s).length
    phase := .placed }

/-- PLACE counts before it places (R188, R194). -/
def placeBody (s : State) : Except ErrCode State :=
  if (freeCells s).length < s.payLen then .error .payloadTooLong else .ok s.placedBits

/-- PLACE (R188). -/
def execPlace (s : State) : Result := runCommand .place placeBody s

end Sys2Proof.Machine
end

