-- ==== Sys2Proof/Machine/Dispatch.lean ====
section
/-! DEFINITION. One arm per command, each a call of its meaning. -/

namespace Sys2Proof.Machine

def exec (i : Instr) (s : State) : Host.Outcome State Fault Refusal :=
  match i with
  | .nop => Sys2Proof.Machine.execNop s
  | .reset => Sys2Proof.Machine.execReset s
  | .setcfg v e => Sys2Proof.Machine.execSetcfg v e s
  | .payclr => Sys2Proof.Machine.execPayclr s
  | .paypush n data => Sys2Proof.Machine.execPaypush n data s
  | .init => Sys2Proof.Machine.execInit s
  | .ptiming => Sys2Proof.Machine.execPtiming s
  | .pfinder => Sys2Proof.Machine.execPfinder s
  | .psep => Sys2Proof.Machine.execPsep s
  | .pfmtrsv => Sys2Proof.Machine.execPfmtrsv s
  | .pverinfo => Sys2Proof.Machine.execPverinfo s
  | .place => Sys2Proof.Machine.execPlace s
  | .meval => Sys2Proof.Machine.execMeval s
  | .mcommit => Sys2Proof.Machine.execMcommit s
  | .fmtenc m => Sys2Proof.Machine.execFmtenc m s
  | .fmtencw => Sys2Proof.Machine.execFmtencw s
  | .fmtwrite => Sys2Proof.Machine.execFmtwrite s
  | .qzone => Sys2Proof.Machine.execQzone s

end Sys2Proof.Machine
end

