-- ==== Sys2Proof/Machine/Bus.lean ====
section
/-! DEFINITION. The slave address space: the register map, the four read-only windows, the two access primitives and what
the outside does next (10_state.md rules R28 to R32; 20_memory.md rules R60 to R74, R82; 70_reset_and_hazards.md rule R300). -/

namespace Sys2Proof.Machine

/-- A flag in bit 0 of a word. -/
def boolWord (b : Bool) : Word := if b then 1 else 0

/-- The word whose field from bit `lo` up is `x`. -/
def fieldAt {k : Nat} (x : BitVec k) (lo : Nat) : Word := x.setWidth 32 <<< lo

/-- Register `STATUS` (R31). -/
def State.statusWord (s : State) : Word :=
  fieldAt (phaseCode s.phase) 0 ||| boolWord s.errFlag <<< 4 ||| boolWord s.doneFlag <<< 5
    ||| boolWord s.fmtValid <<< 6 ||| boolWord s.incomplete <<< 7

/-- Register `CFG` (R28). -/
def State.cfgWord (s : State) : Word := fieldAt s.version 8 ||| fieldAt s.ecl 0

/-- Register `GSIZE`, a function of `VERSION` valid or not (R32). -/
def State.gsizeWord (s : State) : Word := BitVec.ofNat 32 s.gs

/-- Register `PAYLEN`, a 12-bit field (R28). -/
def State.paylenWord (s : State) : Word := fieldAt (BitVec.ofNat 12 s.payLen) 0

/-- Register `NPLACED` (R28). -/
def State.nplacedWord (s : State) : Word := fieldAt s.nplaced 0

/-- Register `MASKST`: `MCNT` in bits 3:0, `BEST` in bits 10:8 (R28). -/
def State.maskstWord (s : State) : Word := fieldAt (BitVec.ofNat 4 s.mcnt.val) 0 ||| fieldAt s.best 8

/-- Register `FMTRAW` (R28). -/
def State.fmtrawWord (s : State) : Word := fieldAt s.fmtraw 0

/-- Register `FMTVAL`: the value in bits 14:0, `FMTMASK` in bits 18:16 (R28). -/
def State.fmtvalWord (s : State) : Word := fieldAt s.fmtval 0 ||| fieldAt s.fmtmask 16

/-- Register `ERR`: `ERRCODE` in bits 3:0, `ERRPHASE` in bits 11:8 (R28). -/
def State.errWord (s : State) : Word := fieldAt (errCodeBits s.errCode) 0 ||| fieldAt (phaseCode s.errPhase) 8

/-- The register at a word-aligned byte offset below `0x34` (R28); `CMD` reads 0 (R30). -/
def registerRead (s : State) (offset : Nat) : Option Word :=
  match offset / 4 with
  | 0 => some Config.idWord
  | 1 => some 0
  | 2 => some s.statusWord
  | 3 => some s.cfgWord
  | 4 => some s.gsizeWord
  | 5 => some s.paylenWord
  | 6 => some s.nplacedWord
  | 7 => some s.maskstWord
  | 8 => some s.minscore
  | 9 => some s.fmtrawWord
  | 10 => some s.fmtvalWord
  | 11 => some s.errWord
  | 12 => some s.errInfo
  | _ => none

/-- The `PAY` window at index `i` (R73): 0 from `PAYLEN` up. -/
def payRead (s : State) (i : Nat) : Word := boolWord (s.pay[i]?.getD false)

/-- The `GRID` window (R71): 3 everywhere in `FAULT`. -/
def gridRead (s : State) (r c : Nat) : Option Word :=
  if 40 < r ∨ 40 < c then none
  else if s.phase = .fault then some 3 else some ((cellCode (s.cell r c)).setWidth 32)

/-- The `OUT` window (R72): 3 everywhere outside `DONE`. -/
def outRead (s : State) (r c : Nat) : Option Word :=
  if 42 < r ∨ 42 < c then none
  else if s.phase = .done then some ((cellCode (s.outCell r c)).setWidth 32) else some 3

/-- The `DFLAG` window (R74): not gated. -/
def dflagRead (s : State) (r c : Nat) : Option Word :=
  if 40 < r ∨ 40 < c then none else some (boolWord (s.flag r c))

/-- The row of a cell window's word: the row stride is 64 words (R61). -/
def windowRow (offset : Nat) : Nat := offset / 256

/-- The column of a cell window's word (R61). -/
def windowCol (offset : Nat) : Nat := offset / 4 % 64

/-- `MemRead(addr, 4)` (R66); none is a bus error. A misaligned address is one (R62). A read changes no state. -/
def busRead (s : State) (addr : Addr) : Option Word :=
  let a := addr.toNat
  if a % 4 ≠ 0 then none
  else if a ≤ 0x0033 then registerRead s a
  else if 0x1000 ≤ a ∧ a ≤ 0x2FFF then some (payRead s ((a - 0x1000) / 4))
  else if 0x4000 ≤ a ∧ a ≤ 0x7FFF then gridRead s (windowRow (a - 0x4000)) (windowCol (a - 0x4000))
  else if 0x8000 ≤ a ∧ a ≤ 0xBFFF then outRead s (windowRow (a - 0x8000)) (windowCol (a - 0x8000))
  else if 0xC000 ≤ a then dflagRead s (windowRow (a - 0xC000)) (windowCol (a - 0xC000))
  else none

/-- The byte address of `CMD`, the only writable location (R28, R67). -/
def cmdAddr : Addr := 0x0004

/-- The bus answers (R64, R66, R67). -/
def State.answer (s : State) (r : Reply) : State := { s with reply := some r }

/-- The oldest input has been taken. -/
def State.taken (s : State) (rest : List Input) : State := { s with inputs := rest }

/-- A read of the host: only a word access reads anything (R62); the state of the block stays (R64, R66). -/
def readAccess (bytes : Nat) (addr : Addr) (s : State) : State :=
  match (if bytes = 4 then busRead s addr else none) with
  | some w => s.answer (.data w)
  | none => s.answer .busError

/-- The hardware reset input (R300): the reset of `RESET`; the bus has then answered nothing yet. -/
def State.hardReset (s : State) : State := { s.resetBlock with reply := none }

/-- What the block has to do for the oldest input. -/
inductive Work where
  /-- Nothing: the outside asks nothing. -/
  | wait
  /-- Something that is no command: the state after it. -/
  | settled (s : State)
  /-- The command word written to `CMD`, and the state it starts from. -/
  | command (w : Word) (s : State)

/-- The oldest input (R66, R67, R68, R82, R300): a word write to `CMD` presents a command, every other write is a bus
error that changes nothing (R64). -/
def nextWork (s : State) : Work :=
  match s.inputs with
  | [] => .wait
  | .resetPin :: rest => .settled (s.taken rest).hardReset
  | .access (.read bytes addr) :: rest => .settled (readAccess bytes addr (s.taken rest))
  | .access (.write bytes addr w) :: rest =>
    if bytes = 4 ∧ addr = cmdAddr then .command w (s.taken rest) else .settled ((s.taken rest).answer .busError)

/-- The write to `CMD` is acknowledged when the command is complete (R67). -/
def acknowledge : Result → Result
  | .next t => .next (t.answer .ack)
  | .fault f => .fault f
  | .refused r => .refused r

/-- `Execute(w)` (R100): decode and dispatch. -/
def executeWord (w : Word) (s : State) : Result :=
  match decode w with
  | .ok i => exec i s
  | .error _ => illegalWord w s

/-- A host write of a command word, as an input. -/
def commandInput (w : Word) : Input := .access (.write 4 cmdAddr w)

end Sys2Proof.Machine
end

