-- ==== Sys2Proof/Machine/Step.lean ====
section
/-! DEFINITION. One step: the block does what the oldest input asks (20_memory.md rule R82). -/

namespace Sys2Proof.Machine

/-- One step. With no input the block waits (R300): the state stays. -/
def step (s : State) : Host.Outcome State Fault Refusal :=
  match nextWork s with
  | .wait => .next s
  | .settled t => .next t
  | .command w t => acknowledge (executeWord w t)

/-- `s` with an opcode-table word as the host's next write to `CMD`, so that the very next step runs it. -/
def State.withFetchWord (s : State) (nbits w : Nat) : State :=
  { s with inputs := commandInput (tableWord nbits w) :: s.inputs }

end Sys2Proof.Machine
end

