-- ==== Sys2Proof/Machine/Assembler.lean ====
section
/-! DEFINITION. The text form of commands and the pseudo-commands (30_encoding.md rules R102 and R103). Nothing here is part
of a step: the host writes words. A line of text is a list of characters; log entry 9 names the choices R102 leaves open. -/

namespace Sys2Proof.Machine

/-- The pseudo-commands (R103). -/
inductive Pseudo where
  | paybits (bits : List Bool)
  | patterns
  | mselect
  | format
  | assemble
  | symbol (v : BitVec 4) (e : BitVec 2) (bits : List Bool)
  deriving DecidableEq, Repr

/-- A bit string cut from the left into pieces of 16 bits, the last one shorter when need be; `fuel` bounds the number of
pieces (R103). -/
def pieces : Nat → List Bool → List (List Bool)
  | 0, _ => []
  | _ + 1, [] => []
  | fuel + 1, b :: bs => (b :: bs).take 16 :: pieces fuel ((b :: bs).drop 16)

/-- A bit string read as a binary number, first bit most significant (R10, R103). -/
def bitsValue (bits : List Bool) : Nat := bits.foldl (fun n b => 2 * n + b.toNat) 0

/-- The push of one piece (R103). -/
def pushOf (piece : List Bool) : Instr := .paypush (BitVec.ofNat 5 piece.length) (BitVec.ofNat 16 (bitsValue piece))

/-- PAYBITS (R103). -/
def paybitsWords (bits : List Bool) : List Instr := (pieces bits.length bits).map pushOf

/-- PATTERNS (R103). -/
def patternsWords : List Instr := [.ptiming, .pfinder, .psep, .pfmtrsv, .pverinfo]

/-- MSELECT (R103). -/
def mselectWords : List Instr := List.replicate 8 .meval ++ [.mcommit]

/-- FORMAT (R103). -/
def formatWords : List Instr := [.fmtencw, .fmtwrite]

/-- ASSEMBLE (R103). -/
def assembleWords : List Instr := [.init] ++ patternsWords ++ [.place] ++ mselectWords ++ formatWords ++ [.qzone]

/-- The expansion of a pseudo-command (R103). -/
def expand : Pseudo → List Instr
  | .paybits bits => paybitsWords bits
  | .patterns => patternsWords
  | .mselect => mselectWords
  | .format => formatWords
  | .assemble => assembleWords
  | .symbol v e bits => [.setcfg v e, .payclr] ++ paybitsWords bits ++ assembleWords

/-- The characters up to the first `;`, which starts a comment (R102). -/
def dropComment (l : List Char) : List Char := l.takeWhile (· != ';')

/-- Without the spaces at both ends. -/
def trimText (l : List Char) : List Char := ((l.dropWhile (· == ' ')).reverse.dropWhile (· == ' ')).reverse

/-- The operands of a line, separated by commas (R102). -/
def splitCommas : List Char → List (List Char)
  | [] => [[]]
  | ch :: rest =>
    if ch = ',' then [] :: splitCommas rest
    else
      match splitCommas rest with
      | [] => [[ch]]
      | first :: more => (ch :: first) :: more

/-- The value of a hexadecimal digit. -/
def digitValue (ch : Char) : Option Nat :=
  if '0' ≤ ch ∧ ch ≤ '9' then some (ch.toNat - 48)
  else if 'A' ≤ ch ∧ ch ≤ 'F' then some (ch.toNat - 55)
  else if 'a' ≤ ch ∧ ch ≤ 'f' then some (ch.toNat - 87)
  else none

/-- One more digit in base `base`. -/
def addDigit (base : Nat) (acc : Option Nat) (ch : Char) : Option Nat :=
  match acc, digitValue ch with
  | some n, some d => if d < base then some (base * n + d) else none
  | _, _ => none

/-- A number written in base `base`, at least one digit. -/
def digits (base : Nat) (l : List Char) : Option Nat := if l = [] then none else l.foldl (addDigit base) (some 0)

/-- A number: decimal, `0x` hexadecimal or `0b` binary (R102). -/
def number (l : List Char) : Option Nat :=
  match l with
  | '0' :: 'x' :: rest => digits 16 rest
  | '0' :: 'b' :: rest => digits 2 rest
  | _ => digits 10 l

/-- A number that fits in `k` bits. -/
def field (k : Nat) (l : List Char) : Option (BitVec k) :=
  match number l with
  | some n => if n < 2 ^ k then some (BitVec.ofNat k n) else none
  | none => none

/-- The ECL operand of SETCFG: the letter, or the code 0..3 (R102). -/
def eclOperand (l : List Char) : Option (BitVec 2) :=
  match l with
  | ['L'] => some 0
  | ['M'] => some 1
  | ['Q'] => some 2
  | ['H'] => some 3
  | _ => field 2 l

/-- The double quotation mark. -/
def quoteMark : Char := Char.ofNat 34

/-- A bit string in quotation marks (R10, R103); spaces inside are skipped. -/
def bitString (l : List Char) : Option (List Bool) :=
  match l with
  | [] => none
  | ch :: rest =>
    if ch = quoteMark ∧ rest.getLast? = some quoteMark then
      ((rest.dropLast).filter (· != ' ')).mapM fun x => if x = '0' then some false else if x = '1' then some true else none
    else none

/-- A line's commands with operands (R102, R103). -/
def withOperands (mnemonic : List Char) (ops : List (List Char)) : Option (List Instr) :=
  match ops with
  | [a] =>
    if mnemonic = ['F', 'M', 'T', 'E', 'N', 'C'] then (field 3 a).map fun m => [.fmtenc m]
    else if mnemonic = ['P', 'A', 'Y', 'B', 'I', 'T', 'S'] then (bitString a).map fun b => expand (.paybits b)
    else none
  | [a, b] =>
    if mnemonic = ['S', 'E', 'T', 'C', 'F', 'G'] then
      match field 4 a, eclOperand b with
      | some v, some e => some [.setcfg v e]
      | _, _ => none
    else if mnemonic = ['P', 'A', 'Y', 'P', 'U', 'S', 'H'] then
      match field 5 a, field 16 b with
      | some n, some d => some [.paypush n d]
      | _, _ => none
    else none
  | [a, b, c] =>
    if mnemonic = ['S', 'Y', 'M', 'B', 'O', 'L'] then
      match field 4 a, eclOperand b, bitString c with
      | some v, some e, some bits => some (expand (.symbol v e bits))
      | _, _, _ => none
    else none
  | _ => none

/-- The mnemonics without operands and what they stand for (R96, R102, R103). -/
def plainMnemonics : List (List Char × List Instr) :=
  [(['N', 'O', 'P'], [.nop]), (['R', 'E', 'S', 'E', 'T'], [.reset]), (['P', 'A', 'Y', 'C', 'L', 'R'], [.payclr]),
   (['I', 'N', 'I', 'T'], [.init]), (['P', 'T', 'I', 'M', 'I', 'N', 'G'], [.ptiming]),
   (['P', 'F', 'I', 'N', 'D', 'E', 'R'], [.pfinder]), (['P', 'S', 'E', 'P'], [.psep]),
   (['P', 'F', 'M', 'T', 'R', 'S', 'V'], [.pfmtrsv])]
  ++ [(['P', 'V', 'E', 'R', 'I', 'N', 'F', 'O'], [.pverinfo]), (['P', 'L', 'A', 'C', 'E'], [.place]),
   (['M', 'E', 'V', 'A', 'L'], [.meval]), (['M', 'C', 'O', 'M', 'M', 'I', 'T'], [.mcommit]),
   (['F', 'M', 'T', 'E', 'N', 'C', 'W'], [.fmtencw]), (['F', 'M', 'T', 'W', 'R', 'I', 'T', 'E'], [.fmtwrite]),
   (['Q', 'Z', 'O', 'N', 'E'], [.qzone])]
  ++ [(['P', 'A', 'T', 'T', 'E', 'R', 'N', 'S'], expand .patterns), (['M', 'S', 'E', 'L', 'E', 'C', 'T'], expand .mselect),
   (['F', 'O', 'R', 'M', 'A', 'T'], expand .format), (['A', 'S', 'S', 'E', 'M', 'B', 'L', 'E'], expand .assemble)]

/-- One line of text: its commands, or none where it is no line of R102. An empty or comment line has no command. -/
def assembleLine (line : List Char) : Option (List Instr) :=
  let l := trimText (dropComment line)
  let mnemonic := l.takeWhile (· != ' ')
  let rest := trimText (l.dropWhile (· != ' '))
  if l = [] then some []
  else if rest = [] then plainMnemonics.lookup mnemonic
  else withOperands mnemonic ((splitCommas rest).map trimText)

end Sys2Proof.Machine
end

