-- ==== Sys2Proof/Safety.lean ====
section
/-! DEFINITION. The terms in which the claims speak: the invariants of 10_state.md rule R42, the layers of the matrix as
functions of a coordinate (41_pattern_placer.md rule R172; 44_format_info.md rule R244), the read and write sets of R41, and
runs of commands. -/

namespace Sys2Proof.Machine

/-- The commands in order, stopping at the first that does not answer a next state. -/
def execList : List Instr → State → Result
  | [], s => .next s
  | i :: rest, s =>
    match exec i s with
    | .next t => execList rest t
    | .fault f => .fault f
    | .refused r => .refused r

/-- Phases `CLEARED` to `DONE`, in which the arrays hold the symbol of the current `VERSION` (R42 items 3 and 7). -/
def matrixPhase : Phase → Bool
  | .idle => false
  | .cleared => true
  | .timed => true
  | .found => true
  | .sepd => true
  | .rsvd => true
  | .patterned => true
  | .placed => true
  | .scoring => true
  | .committed => true
  | .fmtWritten => true
  | .done => true
  | .fault => false

/-- `CLEARED` to `PATTERNED`: no payload bit is placed yet. -/
def beforePlacement (p : Phase) : Bool :=
  p == .cleared || p == .timed || p == .found || p == .sepd || p == .rsvd || p == .patterned

/-- `PLACED` to `FMTWRITTEN` (R42 item 5). -/
def placedPhase (p : Phase) : Bool := p == .placed || p == .scoring || p == .committed || p == .fmtWritten

/-- The phase whose pass left the arrays as they are: in `FAULT`, the phase in which the fault was raised (R280). -/
def State.passPhase (s : State) : Phase := if s.phase = .fault then s.errPhase else s.phase

/-- What `MCNT` may be in a phase (R42 item 6, R200). -/
def mcntAllowed (p : Phase) (n : Nat) : Bool :=
  match p with
  | .idle => true
  | .cleared => n == 0
  | .timed => n == 0
  | .found => n == 0
  | .sepd => n == 0
  | .rsvd => n == 0
  | .patterned => n == 0
  | .placed => n == 0
  | .scoring => decide (1 ≤ n)
  | .committed => n == 8
  | .fmtWritten => n == 8
  | .done => n == 8
  | .fault => true

/-- R42 items 6, 7 and 8, the payload bound of R20, and R273. -/
abbrev State.ControlInv (s : State) : Prop :=
  (matrixPhase s.passPhase = true → versionSupported s.version = true)
  ∧ mcntAllowed s.passPhase s.mcnt.val = true
  ∧ s.payLen ≤ Config.payMax
  ∧ (s.errCode ≠ .noFault ↔ s.phase = .fault)
  ∧ s.errCode ≠ .nonSquareMatrix
  ∧ s.errPhase ≠ .fault

/-- R34, and what `FMT_VALID` says (R27, decision D18): outside `IDLE` it marks the value of the committed winner. -/
abbrev State.FormatInv (s : State) : Prop :=
  ((s.fmtval = s.fmtraw ^^^ Config.fmtXor ∧ s.fmtraw.extractLsb' 10 3 = s.fmtmask)
    ∨ (s.fmtraw = 0 ∧ s.fmtval = 0 ∧ s.fmtmask = 0))
  ∧ (s.fmtValid = true → matrixPhase s.passPhase = true →
      mcntAllowed .committed s.mcnt.val = true ∧ s.fmtraw = formatRaw s.ecl s.best ∧ s.fmtval = formatVal s.ecl s.best
      ∧ s.fmtmask = s.best)
  ∧ (beforePlacement s.passPhase = true ∨ s.passPhase = .placed ∨ s.passPhase = .scoring → s.fmtValid = false)

/-- R42 items 3 and 4 at one coordinate: outside the live grid `Unset` and 0, and a data cell is a colour outside column 6;
before PLACE no cell is a data cell. -/
def gridOk (s : State) (r c : Nat) : Bool :=
  decide (matrixPhase s.passPhase = true → s.gs ≤ r ∨ s.gs ≤ c → s.cell r c = .unset ∧ s.flag r c = false)
  && decide (s.flag r c = true → cellIsColour (s.cell r c) = true ∧ c ≠ 6)
  && decide (beforePlacement s.passPhase = true → s.flag r c = false)

/-- R42 items 3 and 4, over the whole 41 x 41 array. -/
abbrev State.GridInv (s : State) : Prop := ∀ r < Config.gmax, ∀ c < Config.gmax, gridOk s r c = true

/-- The number of 1 bits in `DFLAG`. -/
def State.flagCount (s : State) : Nat := ((coords Config.gmax).filter fun p => s.flag p.1 p.2).length

/-- R42 item 5. -/
abbrev State.CountInv (s : State) : Prop :=
  s.nplaced.toNat = s.flagCount ∧ (placedPhase s.passPhase = true → s.nplaced.toNat = s.payLen)

/-- The cell after PTIMING, `old` before it (R152). -/
def timedCell (old : Cell) (r c : Nat) : Cell := if c = 6 then timing r else if r = 6 then timing c else old

/-- The cell after PFINDER, `old` before it (R156): three windows, the first at the top-left corner clipped. -/
def foundCell (gs : Nat) (old : Cell) (r c : Nat) : Cell :=
  if r ≤ 6 ∧ c ≤ 6 then finder r c
  else if gs - 8 ≤ r ∧ c ≤ 6 then finder ((r : Int) - ((gs : Int) - 7)) c
  else if r ≤ 6 ∧ gs - 8 ≤ c then finder r ((c : Int) - ((gs : Int) - 7))
  else old

/-- The cell after PSEP, `old` before it (R160): the six segments. -/
def sepdCell (gs : Nat) (old : Cell) (r c : Nat) : Cell :=
  if (r = 7 ∧ c ≤ 7) ∨ (c = 7 ∧ r ≤ 7) ∨ (r = 7 ∧ gs - 8 ≤ c) ∨ (c = gs - 8 ∧ r ≤ 7) ∨ (r = gs - 8 ∧ c ≤ 7)
      ∨ (c = 7 ∧ gs - 8 ≤ r) then .white
  else old

/-- The cell after PFMTRSV, `old` before it (R164). -/
def rsvdCell (gs : Nat) (old : Cell) (r c : Nat) : Cell :=
  if r = gs - 8 ∧ c = 8 then .black
  else if (r = 8 ∧ (c ≤ 7 ∨ gs - 8 ≤ c)) ∨ (c = 8 ∧ (r ≤ 8 ∨ gs - 8 ≤ r)) then .reserved
  else old

/-- The patterned Matrix (R172): the first condition that holds decides. -/
def patternedCell (gs r c : Nat) : Cell :=
  if r = gs - 8 ∧ c = 8 then .black
  else if r = 8 ∧ (c ≤ 7 ∨ gs - 8 ≤ c) then .reserved
  else if c = 8 ∧ (r ≤ 8 ∨ gs - 8 ≤ r) then .reserved
  else if r ≤ 6 ∧ c ≤ 6 then finder r c
  else if gs - 7 ≤ r ∧ c ≤ 6 then finder ((r : Int) - ((gs : Int) - 7)) c
  else if r ≤ 6 ∧ gs - 7 ≤ c then finder r ((c : Int) - ((gs : Int) - 7))
  else if (r ≤ 7 ∧ c ≤ 7) ∨ (gs - 8 ≤ r ∧ c ≤ 7) ∨ (r ≤ 7 ∧ gs - 8 ≤ c) then .white
  else if r = 6 then timing c
  else if c = 6 then timing r
  else .unset

/-- Which format bit the standard placement puts at a reserved cell of row 8 or column 8 (R244 read backwards). -/
def formatBitAt (gs r c : Nat) : Nat :=
  if c = 8 then (if r ≤ 5 then r else if r = 7 then 6 else if r = 8 then 7 else r + 15 - gs)
  else if c = 7 then 8 else if c ≤ 5 then 14 - c else gs - 1 - c

/-- A cell outside the data region after FMTWRITE under the standard placement, `val` the format value (R246, R248). -/
def finishedCell (gs : Nat) (val : BitVec 15) (r c : Nat) : Cell :=
  if patternedCell gs r c = .reserved then
    if (r = 6 ∧ c = 8) ∨ (r = 8 ∧ c = 6) then .black else colourOf (val.getLsbD (formatBitAt gs r c))
  else patternedCell gs r c

/-- FMT_COORDS is the default table (R7, R244). -/
def Collab.standardPlacement (x : Collab) : Bool := x.coordsList.isEmpty && x.coordsBase == .standard

/-- What a cell of the live grid holds in each phase, given the passes before it (R150, R172, R188, R202, R246). -/
def layerOk (s : State) (r c : Nat) : Bool :=
  match s.passPhase with
  | .idle => true
  | .cleared => s.cell r c == .unset
  | .timed => s.cell r c == timedCell .unset r c
  | .found => s.cell r c == foundCell s.gs (timedCell .unset r c) r c
  | .sepd => s.cell r c == sepdCell s.gs (foundCell s.gs (timedCell .unset r c) r c) r c
  | .rsvd => s.cell r c == patternedCell s.gs r c
  | .patterned => s.cell r c == patternedCell s.gs r c
  | .placed => if s.flag r c then patternedCell s.gs r c == .unset else s.cell r c == patternedCell s.gs r c
  | .scoring => if s.flag r c then patternedCell s.gs r c == .unset else s.cell r c == patternedCell s.gs r c
  | .committed => if s.flag r c then patternedCell s.gs r c == .unset else s.cell r c == patternedCell s.gs r c
  | .fmtWritten =>
    !s.collab.standardPlacement ||
      (if s.flag r c then patternedCell s.gs r c == .unset else s.cell r c == finishedCell s.gs (formatVal s.ecl s.best) r c)
  | .done =>
    !s.collab.standardPlacement ||
      (if s.flag r c then patternedCell s.gs r c == .unset else s.cell r c == finishedCell s.gs (formatVal s.ecl s.best) r c)
  | .fault => true

/-- Every cell of the live grid holds what the passes so far give it. -/
abbrev State.LayerInv (s : State) : Prop := ∀ r < s.gs, ∀ c < s.gs, layerOk s r c = true

/-- `INCOMPLETE = 0` after PLACE: every cell the fixed passes left free is a data cell (R188). -/
abbrev State.CompleteInv (s : State) : Prop :=
  placedPhase s.passPhase = true ∨ s.passPhase = .done → s.incomplete = false →
    ∀ r < s.gs, ∀ c < s.gs, patternedCell s.gs r c = .unset → s.flag r c = true

/-- In `DONE`, `OUT` is the bordered `GRID` (R260, R262). -/
abbrev State.OutInv (s : State) : Prop :=
  s.passPhase = .done → ∀ r < Config.omax, ∀ c < Config.omax, s.outCell r c = borderedCell s r c

/-- The items of R20. `PAYLEN` goes with `PAY` (R37). -/
inductive Item where
  | version | ecl | phase | grid | dflag | pay | nplaced | incomplete | mcnt | minscore | best | fmtraw | fmtval | fmtmask
  | fmtValid | out | errCode | errPhase | errInfo
  deriving DecidableEq, Repr

/-- An item has the same value in two states. -/
abbrev sameItem (x : Item) (s t : State) : Prop :=
  match x with
  | .version => t.version = s.version
  | .ecl => t.ecl = s.ecl
  | .phase => t.phase = s.phase
  | .grid => t.grid = s.grid
  | .dflag => t.dflag = s.dflag
  | .pay => t.pay = s.pay
  | .nplaced => t.nplaced = s.nplaced
  | .incomplete => t.incomplete = s.incomplete
  | .mcnt => t.mcnt = s.mcnt
  | .minscore => t.minscore = s.minscore
  | .best => t.best = s.best
  | .fmtraw => t.fmtraw = s.fmtraw
  | .fmtval => t.fmtval = s.fmtval
  | .fmtmask => t.fmtmask = s.fmtmask
  | .fmtValid => t.fmtValid = s.fmtValid
  | .out => t.out = s.out
  | .errCode => t.errCode = s.errCode
  | .errPhase => t.errPhase = s.errPhase
  | .errInfo => t.errInfo = s.errInfo

/-- The write set of a command that does not fault (the table of R41). -/
def writeSet : Instr → List Item
  | .nop => []
  | .reset =>
    [.version, .ecl, .phase, .grid, .dflag, .pay, .nplaced, .incomplete, .mcnt, .minscore]
    ++ [.best, .fmtraw, .fmtval, .fmtmask, .fmtValid, .out, .errCode, .errPhase, .errInfo]
  | .setcfg _ _ => [.version, .ecl, .phase]
  | .payclr => [.pay]
  | .paypush _ _ => [.pay]
  | .init => [.grid, .dflag, .nplaced, .incomplete, .mcnt, .minscore, .best, .fmtValid, .phase]
  | .ptiming => [.grid, .phase]
  | .pfinder => [.grid, .phase]
  | .psep => [.grid, .phase]
  | .pfmtrsv => [.grid, .phase]
  | .pverinfo => [.phase]
  | .place => [.grid, .dflag, .nplaced, .incomplete, .phase]
  | .meval => [.mcnt, .minscore, .best, .phase]
  | .mcommit => [.grid, .phase]
  | .fmtenc _ => [.fmtraw, .fmtval, .fmtmask, .fmtValid]
  | .fmtencw => [.fmtraw, .fmtval, .fmtmask, .fmtValid]
  | .fmtwrite => [.grid, .phase]
  | .qzone => [.out, .phase]

/-- The write set of a command that faults (R41, R280). -/
def faultWriteSet : List Item := [.phase, .errCode, .errPhase, .errInfo]

/-- The table of R26 read by its rows: which commands are legal in a phase. -/
def legalCommands (p : Phase) (i : Instr) : Bool :=
  match p, i with
  | .fault, .reset => true
  | .fault, _ => false
  | _, .nop => true
  | _, .reset => true
  | _, .fmtenc _ => true
  | .idle, .setcfg _ _ => true
  | .idle, .payclr => true
  | .idle, .paypush _ _ => true
  | .idle, .init => true
  | .cleared, .ptiming => true
  | .timed, .pfinder => true
  | .found, .psep => true
  | .sepd, .pfmtrsv => true
  | .rsvd, .pverinfo => true
  | .patterned, .place => true
  | .placed, .meval => true
  | .scoring, .meval => true
  | .scoring, .mcommit => true
  | .committed, .fmtencw => true
  | .committed, .fmtwrite => true
  | .fmtWritten, .qzone => true
  | .done, .setcfg _ _ => true
  | .done, .payclr => true
  | .done, .paypush _ _ => true
  | .done, .init => true
  | _, _ => false

/-- No mask query inside the grid answers `err` for mask id `k` (R276). -/
def State.masksAnswer (s : State) (k : Nat) : Prop :=
  ∀ r < s.gs, ∀ c < s.gs, s.flag r c = true →
    s.collab.maskAnswer k r c = .int 0 ∨ s.collab.maskAnswer k r c = .int 1

/-- `cand` is the candidate matrix of mask `k`, row-major (R79, R208): a data cell is inverted where the predicate is 1. -/
def State.isCandidate (s : State) (k : Nat) (cand : List Cell) : Prop :=
  cand.length = s.gs * s.gs ∧
    ∀ r < s.gs, ∀ c < s.gs,
      cand[s.gs * r + c]? =
        some (if s.flag r c = true ∧ s.collab.maskAnswer k r c = .int 1 then cellXor (s.cell r c) true else s.cell r c)

/-- Candidate `k` has the score `n`: its masks answer, and SCORE answers `n`, a 32-bit signed number, for its matrix (R79,
R208, R210). -/
def State.hasScore (s : State) (k : Nat) (n : Int) : Prop :=
  s.masksAnswer k ∧ (∃ cand, s.isCandidate k cand ∧ s.collab.scoreAnswer s.gs cand = .int n) ∧ -2 ^ 31 ≤ n ∧ n < 2 ^ 31

/-- In `SCORING` (R210, R212): each of the `MCNT` candidates scored so far has a score, `MINSCORE` is the least of them as a
signed number, and `BEST` is the least index that attains it. -/
def State.WinnerInv (s : State) : Prop :=
  s.passPhase = .scoring →
    (∀ k < s.mcnt.val, ∃ n, s.hasScore k n)
    ∧ s.best.toNat < s.mcnt.val
    ∧ s.hasScore s.best.toNat s.minscore.toInt
    ∧ ∀ k < s.mcnt.val, ∀ n, s.hasScore k n → s.minscore.toInt ≤ n ∧ (k < s.best.toNat → s.minscore.toInt < n)

/-- The phase a command that does not fault leads to (R26, column "entered by"); none where it keeps the phase. -/
def entersPhase : Instr → Option Phase
  | .nop => none
  | .reset => some .idle
  | .setcfg _ _ => some .idle
  | .payclr => none
  | .paypush _ _ => none
  | .init => some .cleared
  | .ptiming => some .timed
  | .pfinder => some .found
  | .psep => some .sepd
  | .pfmtrsv => some .rsvd
  | .pverinfo => some .patterned
  | .place => some .placed
  | .meval => some .scoring
  | .mcommit => some .committed
  | .fmtenc _ => none
  | .fmtencw => none
  | .fmtwrite => some .fmtWritten
  | .qzone => some .done

end Sys2Proof.Machine
end

