-- ==== Sys2Proof/Certificates/Slice0/Obligations.lean ====
section
/-! DEFINITION. The statements for the provers, each a `def Obligations.<Name> : Prop`. -/

open Sys2Proof Sys2Proof.Machine

/-! ## Encoding -/

/-- R90 to R96: every command is what its word and its four bytes decode to, at every operand value. -/
def Obligations.DecodeOfEncode : Prop :=
  ∀ i : Instr, decode (encode i) = .ok i ∧ decodeBytes ((List.range 4).map (laneOf (encode i))) = .ok i

/-- R91 to R97: a word that decodes has no bit besides those of its command. -/
def Obligations.EncodeOfDecode : Prop :=
  ∀ (w : Word) (i : Instr), decode w = .ok i → encode i = w

/-- R96: a word `w` is a command of a row exactly when `w & mask = match` for that row. -/
def Obligations.DecodeFollowsOpcodeMap : Prop :=
  ∀ (w : Word) (j : Instr),
    (∃ i, decode w = .ok i ∧ rowOf i = rowOf j) ↔ w &&& (rowOf j).mask = (rowOf j).value

/-- R102, 95 V40.1: words written out from the encodings. -/
def Obligations.WrittenWordsDecode : Prop :=
  decode 0x02000101 = .ok (.setcfg 1 1) ∧ decode 0x0410205B = .ok (.paypush 16 0x205B)
  ∧ decode 0x40000005 = .ok (.fmtenc 5) ∧ decode 0x50000000 = .ok .qzone ∧ decode 0x04000000 = .ok (.paypush 0 0)
  ∧ decode 0x02001101 = .error (.reservedBits 0x02) ∧ decode 0x60000000 = .error (.unassignedOpcode 0x60)

/-- R97, R278: a word that matches no row raises `IllegalCommand` in every phase but `FAULT`, where it is discarded. -/
def Obligations.UnmatchedWordIsIllegal : Prop :=
  ∀ (w : Word) (s : State), (∀ row ∈ opcodeTable, w &&& row.mask ≠ row.value) →
    (s.phase ≠ .fault → executeWord w s =
      .next { s with errCode := .illegalCommand, errPhase := s.phase, errInfo := w, phase := .fault })
    ∧ (s.phase = .fault → executeWord w s = .next s)

/-! ## Steps and the bus -/

/-- R67, R100: every word written to `CMD` is executed as one step, then acknowledged. A word that decodes runs its command;
one that does not raises `IllegalCommand`, or is discarded in `FAULT`. The list of inputs and the reply are the model's own
form (log entries 1 and 2). -/
def Obligations.StepRunsDecodedCommand : Prop :=
  ∀ (s : State) (w : Word) (rest : List Input), s.inputs = .access (.write 4 0x0004 w) :: rest →
    (step s =
      match executeWord w { s with inputs := rest } with
      | .next t => .next { t with reply := some .ack }
      | .fault f => .fault f
      | .refused r => .refused r)
    ∧ (∀ i, decode w = .ok i →
        step s =
          match exec i { s with inputs := rest } with
          | .next t => .next { t with reply := some .ack }
          | .fault f => .fault f
          | .refused r => .refused r)
    ∧ (∀ e, decode w = .error e →
        (s.phase ≠ .fault →
          step s = .next { s with inputs := rest, errCode := .illegalCommand, errPhase := s.phase, errInfo := w,
                                  phase := .fault, reply := some .ack })
        ∧ (s.phase = .fault → step s = .next { s with inputs := rest, reply := some .ack }))

/-- R62, R64, R66 to R68: a read, a write to anything but `CMD` and an access of another width change no item of the block;
the bus answers the word read, or an error. The inputs, the reply, the width as a byte count and a bus error as a next state
are the model's own form (log entries 1, 2, 12, 18). -/
def Obligations.AccessesWithoutCommandChangeNothing : Prop :=
  ∀ (s : State) (bytes : Nat) (addr : Addr) (w : Word) (rest : List Input),
    (s.inputs = .access (.read bytes addr) :: rest → ∀ v, bytes = 4 → busRead s addr = some v →
      step s = .next { s with inputs := rest, reply := some (.data v) })
    ∧ (s.inputs = .access (.read bytes addr) :: rest → bytes ≠ 4 ∨ busRead s addr = none →
      step s = .next { s with inputs := rest, reply := some .busError })
    ∧ (s.inputs = .access (.write bytes addr w) :: rest → bytes ≠ 4 ∨ addr ≠ 0x0004 →
      step s = .next { s with inputs := rest, reply := some .busError })
    ∧ (s.inputs = [] → step s = .next s)

/-- R61, R62: which addresses give a bus error on a word read. -/
def Obligations.BusErrorAddresses : Prop :=
  ∀ (s : State) (addr : Addr),
    busRead s addr = none ↔
      (addr.toNat % 4 ≠ 0
        ∨ (0x0034 ≤ addr.toNat ∧ addr.toNat ≤ 0x0FFF)
        ∨ (0x3000 ≤ addr.toNat ∧ addr.toNat ≤ 0x3FFF)
        ∨ (0x4000 ≤ addr.toNat ∧ addr.toNat ≤ 0x7FFF
            ∧ (40 < (addr.toNat - 0x4000) / 256 ∨ 40 < (addr.toNat - 0x4000) / 4 % 64))
        ∨ (0x8000 ≤ addr.toNat ∧ addr.toNat ≤ 0xBFFF
            ∧ (42 < (addr.toNat - 0x8000) / 256 ∨ 42 < (addr.toNat - 0x8000) / 4 % 64))
        ∨ (0xC000 ≤ addr.toNat
            ∧ (40 < (addr.toNat - 0xC000) / 256 ∨ 40 < (addr.toNat - 0xC000) / 4 % 64)))

/-- R61, R71 to R74: the four windows, element by element, and their gating. -/
def Obligations.WindowsShowTheArrays : Prop :=
  ∀ s : State,
    (∀ r ≤ 40, ∀ c ≤ 40, busRead s (BitVec.ofNat 16 (0x4000 + 4 * (64 * r + c))) =
      some (if s.phase = .fault then 3 else (cellCode (s.cell r c)).setWidth 32))
    ∧ (∀ r ≤ 42, ∀ c ≤ 42, busRead s (BitVec.ofNat 16 (0x8000 + 4 * (64 * r + c))) =
      some (if s.phase = .done then (cellCode (s.outCell r c)).setWidth 32 else 3))
    ∧ (∀ i < 2048, busRead s (BitVec.ofNat 16 (0x1000 + 4 * i)) = some (if s.pay[i]? = some true then 1 else 0))
    ∧ (∀ r ≤ 40, ∀ c ≤ 40, busRead s (BitVec.ofNat 16 (0xC000 + 4 * (64 * r + c))) =
      some (if s.flag r c = true then 1 else 0))

/-- R31: the fields of `STATUS`. -/
def Obligations.StatusFields : Prop :=
  ∀ s : State, ∃ w, busRead s 0x0008 = some w
    ∧ w.extractLsb' 0 4 = phaseCode s.phase
    ∧ (w.getLsbD 4 = true ↔ s.phase = .fault)
    ∧ (w.getLsbD 5 = true ↔ s.phase = .done)
    ∧ w.getLsbD 6 = s.fmtValid
    ∧ w.getLsbD 7 = s.incomplete
    ∧ w.extractLsb' 8 24 = 0

/-- R28: the fields of the other registers; bits not named read 0. -/
def Obligations.RegisterFields : Prop :=
  ∀ s : State,
    busRead s 0x0000 = some 0x51524D01
    ∧ busRead s 0x0004 = some 0
    ∧ busRead s 0x000C = some (0#20 ++ s.version ++ 0#6 ++ s.ecl)
    ∧ busRead s 0x0010 = some (BitVec.ofNat 32 (4 * s.version.toNat + 17))
    ∧ busRead s 0x0014 = some (0#20 ++ BitVec.ofNat 12 s.pay.length)
    ∧ busRead s 0x0018 = some (0#20 ++ s.nplaced)
    ∧ busRead s 0x001C = some (0#21 ++ s.best ++ 0#4 ++ BitVec.ofNat 4 s.mcnt.val)
    ∧ busRead s 0x0020 = some s.minscore
    ∧ busRead s 0x0024 = some (0#17 ++ s.fmtraw)
    ∧ busRead s 0x0028 = some (0#13 ++ s.fmtmask ++ 0#1 ++ s.fmtval)
    ∧ busRead s 0x002C = some (0#20 ++ phaseCode s.errPhase ++ 0#4 ++ errCodeBits s.errCode)
    ∧ busRead s 0x0030 = some s.errInfo

/-- R301: what the reset state reads as on the bus. -/
def Obligations.ResetReadsOnTheBus : Prop :=
  busRead State.reset 0x0000 = some 0x51524D01 ∧ busRead State.reset 0x0004 = some 0
  ∧ busRead State.reset 0x0008 = some 0 ∧ busRead State.reset 0x000C = some 0 ∧ busRead State.reset 0x0010 = some 17
  ∧ (∀ a ∈ [0x0014, 0x0018, 0x001C, 0x0020, 0x0024, 0x0028, 0x002C, 0x0030], busRead State.reset a = some 0)
  ∧ (∀ i < 2048, busRead State.reset (BitVec.ofNat 16 (0x1000 + 4 * i)) = some 0)
  ∧ (∀ r ≤ 40, ∀ c ≤ 40, busRead State.reset (BitVec.ofNat 16 (0xC000 + 4 * (64 * r + c))) = some 0)
  ∧ (∀ r ≤ 40, ∀ c ≤ 40, busRead State.reset (BitVec.ofNat 16 (0x4000 + 4 * (64 * r + c))) = some 3)
  ∧ (∀ r ≤ 42, ∀ c ≤ 42, busRead State.reset (BitVec.ofNat 16 (0x8000 + 4 * (64 * r + c))) = some 3)

/-- R287: the two output lines. -/
def Obligations.OutputLinesFollowPhase : Prop :=
  ∀ s : State, (s.faultLine = true ↔ s.phase = .fault) ∧ (s.doneLine = true ↔ s.phase = .done)
    ∧ State.reset.faultLine = false ∧ State.reset.doneLine = false

/-! ## Control, input, Matrix creation -/

/-- R122: NOP, the word `0x00000000`, changes nothing in any phase; in `FAULT` it is discarded, which is the same. -/
def Obligations.NopChangesNothing : Prop :=
  decode 0x00000000 = .ok .nop ∧ ∀ s : State, exec .nop s = .next s

/-- R124, R40, R300: RESET, in every phase, and the hardware reset input give every item its reset value. What happens to
the model's own three fields is the model's choice (log entries 1, 2, 3, 11). -/
def Obligations.ResetGivesResetValues : Prop :=
  ∀ (s : State) (rest : List Input), ∃ t, exec .reset s = .next t
    ∧ t = { State.reset with collab := s.collab, inputs := s.inputs, reply := s.reply }
    ∧ (s.inputs = .resetPin :: rest → step s = .next { State.reset with collab := s.collab, inputs := rest })
    ∧ t.version = 0 ∧ t.ecl = 0 ∧ t.phase = .idle ∧ t.pay = [] ∧ t.nplaced = 0 ∧ t.incomplete = false ∧ t.mcnt.val = 0
    ∧ t.minscore = 0 ∧ t.best = 0 ∧ t.fmtraw = 0 ∧ t.fmtval = 0 ∧ t.fmtmask = 0 ∧ t.fmtValid = false
    ∧ t.errCode = .noFault ∧ t.errPhase = .idle ∧ t.errInfo = 0
    ∧ (∀ r < 41, ∀ c < 41, t.cell r c = .unset ∧ t.flag r c = false) ∧ (∀ r < 43, ∀ c < 43, t.outCell r c = .unset)

/-- R126: SETCFG stores the version and the level unchecked and leads to `IDLE`; legal in `IDLE` and `DONE` only. -/
def Obligations.SetcfgStoresConfiguration : Prop :=
  ∀ (v : BitVec 4) (e : BitVec 2),
    decode (0x02000000 ||| v.setWidth 32 <<< 8 ||| e.setWidth 32) = .ok (.setcfg v e)
    ∧ ∀ s : State,
      (s.phase = .idle ∨ s.phase = .done → exec (.setcfg v e) s = .next { s with version := v, ecl := e, phase := .idle })
      ∧ (s.phase ≠ .idle → s.phase ≠ .done → s.phase ≠ .fault →
          exec (.setcfg v e) s = .next (s.takeFault .sequence (encode (.setcfg v e))))
      ∧ (s.phase = .fault → exec (.setcfg v e) s = .next s)

/-- R127: PAYCLR empties the payload and keeps everything else, `PHASE` included; legal in `IDLE` and `DONE` only. -/
def Obligations.PayclrEmptiesPayload : Prop :=
  decode 0x03000000 = .ok .payclr
  ∧ ∀ s : State,
    (s.phase = .idle ∨ s.phase = .done → exec .payclr s = .next { s with pay := [] })
    ∧ (s.phase ≠ .idle → s.phase ≠ .done → s.phase ≠ .fault →
        exec .payclr s = .next (s.takeFault .sequence 0x03000000))
    ∧ (s.phase = .fault → exec .payclr s = .next s)

/-- R128: PAYPUSH appends the `n` bits, most significant first, or raises `Operand` and appends nothing; legal in `IDLE` and
`DONE` only. -/
def Obligations.PaypushAppendsBits : Prop :=
  ∀ (n : BitVec 5) (data : BitVec 16),
    decode (0x04000000 ||| n.setWidth 32 <<< 16 ||| data.setWidth 32) = .ok (.paypush n data)
    ∧ ∀ s : State,
      (s.phase = .idle ∨ s.phase = .done → 1 ≤ n.toNat → n.toNat ≤ 16 → data.toNat < 2 ^ n.toNat →
        s.pay.length + n.toNat ≤ 2048 →
          ∃ bits, bits.length = n.toNat ∧ (∀ j < n.toNat, bits[j]? = some (data.getLsbD (n.toNat - 1 - j)))
            ∧ exec (.paypush n data) s = .next { s with pay := s.pay ++ bits })
      ∧ (s.phase = .idle ∨ s.phase = .done →
          n.toNat < 1 ∨ 16 < n.toNat ∨ 2 ^ n.toNat ≤ data.toNat ∨ 2048 < s.pay.length + n.toNat →
          exec (.paypush n data) s = .next (s.takeFault .operand (encode (.paypush n data))))
      ∧ (s.phase ≠ .idle → s.phase ≠ .done → s.phase ≠ .fault →
          exec (.paypush n data) s = .next (s.takeFault .sequence (encode (.paypush n data))))
      ∧ (s.phase = .fault → exec (.paypush n data) s = .next s)

/-- R130: INIT checks the version before any write, then clears the whole 41 x 41 arrays; legal in `IDLE` and `DONE` only. -/
def Obligations.InitCreatesEmptyMatrix : Prop :=
  decode 0x10000000 = .ok .init
  ∧ ∀ s : State,
    (s.phase = .idle ∨ s.phase = .done → 1 ≤ s.version.toNat → s.version.toNat ≤ 6 →
      ∃ t, exec .init s = .next t
        ∧ t = { s with grid := t.grid, dflag := t.dflag, nplaced := 0, incomplete := false, mcnt := 0, minscore := 0, best := 0,
                       fmtValid := false, phase := .cleared }
        ∧ ∀ r < 41, ∀ c < 41, t.cell r c = .unset ∧ t.flag r c = false)
    ∧ (s.phase = .idle ∨ s.phase = .done → s.version.toNat < 1 ∨ 6 < s.version.toNat →
      exec .init s = .next (s.takeFault .unsupportedVersion 0x10000000))
    ∧ (s.phase ≠ .idle → s.phase ≠ .done → s.phase ≠ .fault → exec .init s = .next (s.takeFault .sequence 0x10000000))
    ∧ (s.phase = .fault → exec .init s = .next s)

/-- R134: Overlay checks every coordinate before it writes; where a coordinate occurs twice the later triple wins. -/
def Obligations.OverlayChecksThenWrites : Prop :=
  ∀ (l : List Triple) (s : State), s.gs ≤ 41 →
    ((∃ t ∈ l, t.1 < 0 ∨ (s.gs : Int) ≤ t.1 ∨ t.2.1 < 0 ∨ (s.gs : Int) ≤ t.2.1) →
      overlay l s = .error .overlayOutOfBounds)
    ∧ ((∀ t ∈ l, 0 ≤ t.1 ∧ t.1 < s.gs ∧ 0 ≤ t.2.1 ∧ t.2.1 < s.gs) →
      ∃ u, overlay l s = .ok u ∧ u = { s with grid := u.grid }
        ∧ (∀ (front back : List Triple) (r c : Nat) (v : Cell), l = front ++ ((r : Int), (c : Int), v) :: back →
            (∀ t ∈ back, t.1 ≠ r ∨ t.2.1 ≠ c) → u.cell r c = v)
        ∧ (∀ r c : Nat, (∀ t ∈ l, t.1 ≠ r ∨ t.2.1 ≠ c) → u.cell r c = s.cell r c))

/-! ## Fixed-Pattern Placer -/

/-- R152: PTIMING writes row 6 and column 6 over the live grid, the column last, and nothing else. -/
def Obligations.TimingPass : Prop :=
  ∀ s : State, s.phase = .cleared → versionSupported s.version = true →
    ∃ t, exec .ptiming s = .next t ∧ t = { s with grid := t.grid, phase := .timed }
      ∧ ∀ r < 41, ∀ c < 41, t.cell r c =
          if r < s.gs ∧ c = 6 then (if r % 2 = 0 then .black else .white)
          else if r = 6 ∧ c < s.gs then (if c % 2 = 0 then .black else .white)
          else s.cell r c

/-- R156, R158: PFINDER writes the three clipped windows and nothing else; the motif is rings about its centre: the outer
ring and the 3 x 3 core are `Black`. -/
def Obligations.FinderPass : Prop :=
  (∀ s : State, s.phase = .timed → versionSupported s.version = true →
    ∃ t, exec .pfinder s = .next t ∧ t = { s with grid := t.grid, phase := .found }
      ∧ ∀ r < 41, ∀ c < 41, t.cell r c = if r < s.gs ∧ c < s.gs then foundCell s.gs (s.cell r c) r c else s.cell r c)
  ∧ ∀ r c : Int, -1 ≤ r → r ≤ 6 → -1 ≤ c → c ≤ 6 →
    finder r c = if max |r - 3| |c - 3| = 3 ∨ max |r - 3| |c - 3| ≤ 1 then .black else .white

/-- R160: PSEP writes the six segments `White` and nothing else. -/
def Obligations.SeparatorPass : Prop :=
  ∀ s : State, s.phase = .found → versionSupported s.version = true →
    ∃ t, exec .psep s = .next t ∧ t = { s with grid := t.grid, phase := .sepd }
      ∧ ∀ r < 41, ∀ c < 41, t.cell r c =
          if (r = 7 ∧ c ≤ 7) ∨ (r ≤ 7 ∧ c = 7) ∨ (r = 7 ∧ s.gs - 8 ≤ c ∧ c < s.gs) ∨ (r ≤ 7 ∧ c = s.gs - 8)
              ∨ (r = s.gs - 8 ∧ c ≤ 7) ∨ (s.gs - 8 ≤ r ∧ r < s.gs ∧ c = 7) then .white
          else s.cell r c

/-- R164, R166: PFMTRSV reserves the cells of row 8 and column 8 and sets the dark module, and nothing else. -/
def Obligations.ReservationPass : Prop :=
  ∀ s : State, s.phase = .sepd → versionSupported s.version = true →
    ∃ t, exec .pfmtrsv s = .next t ∧ t = { s with grid := t.grid, phase := .rsvd }
      ∧ ∀ r < 41, ∀ c < 41, t.cell r c =
          if r = s.gs - 8 ∧ c = 8 then .black
          else if (r = 8 ∧ (c ≤ 7 ∨ (s.gs - 8 ≤ c ∧ c < s.gs))) ∨ (c = 8 ∧ (r ≤ 8 ∨ (s.gs - 8 ≤ r ∧ r < s.gs))) then .reserved
          else s.cell r c

/-- R170: PVERINFO is the empty overlay up to version 6 and `UnsupportedVersion` from 7 up, the function included; legal in
`RSVD` only. -/
def Obligations.VersionInformationPass : Prop :=
  (∀ v : Nat, (v ≤ 6 → versionInfo v = .ok []) ∧ (7 ≤ v → versionInfo v = .error .unsupportedVersion))
  ∧ decode 0x15000000 = .ok .pverinfo
  ∧ ∀ s : State,
      (s.phase = .rsvd → s.version.toNat ≤ 6 → exec .pverinfo s = .next { s with phase := .patterned })
      ∧ (s.phase = .rsvd → 7 ≤ s.version.toNat → exec .pverinfo s = .next (s.takeFault .unsupportedVersion 0x15000000))
      ∧ (s.phase ≠ .rsvd → s.phase ≠ .fault → exec .pverinfo s = .next (s.takeFault .sequence 0x15000000))
      ∧ (s.phase = .fault → exec .pverinfo s = .next s)

/-- R172, R150: after the five passes over an empty Matrix, every cell of the live grid is the patterned Matrix's. -/
def Obligations.FivePassesGivePatternedMatrix : Prop :=
  ∀ s : State, s.phase = .cleared → versionSupported s.version = true →
    (∀ r < s.gs, ∀ c < s.gs, s.cell r c = .unset) →
      ∃ t, execList [.ptiming, .pfinder, .psep, .pfmtrsv, .pverinfo] s = .next t
        ∧ t = { s with grid := t.grid, phase := .patterned }
        ∧ (∀ r < s.gs, ∀ c < s.gs, t.cell r c = patternedCell s.gs r c)
        ∧ ∀ r < 41, ∀ c < 41, s.gs ≤ r ∨ s.gs ≤ c → t.cell r c = s.cell r c

/-! ## Data Placement Walker -/

/-- R180, R182: the walk visits every cell outside column 6 exactly once, in this order: sweep `k` has the loop value
`gs-1-2k`, shifted left by one when at most 6; it goes up when `k` is even and down when `k` is odd; in each row the right
cell of the pair comes first. It ends at `(gs-1, 1)`, `(gs-1, 0)`. -/
def Obligations.WalkVisitsEachCellOnce : Prop :=
  ∀ v, 1 ≤ v → v ≤ 6 →
    (walk (gridSize v)).length = gridSize v * (gridSize v - 1)
    ∧ (walk (gridSize v)).Nodup
    ∧ (∀ r c, (r, c) ∈ walk (gridSize v) ↔ r < gridSize v ∧ c < gridSize v ∧ c ≠ 6)
    ∧ (∀ k < (gridSize v - 1) / 2, ∀ j < gridSize v, ∀ r c : Nat,
        r = (if k % 2 = 0 then gridSize v - 1 - j else j) →
        c = (if gridSize v - 1 - 2 * k ≤ 6 then gridSize v - 1 - 2 * k - 1 else gridSize v - 1 - 2 * k) →
          (walk (gridSize v))[2 * gridSize v * k + 2 * j]? = some (r, c)
          ∧ (walk (gridSize v))[2 * gridSize v * k + 2 * j + 1]? = some (r, c - 1))
    ∧ (walk (gridSize v)).drop (gridSize v * (gridSize v - 1) - 2) = [(gridSize v - 1, 1), (gridSize v - 1, 0)]

/-- R186: the free cells of the patterned Matrix are `CAP(v)` many. -/
def Obligations.FreeCellsAreCapacity : Prop :=
  ∀ s : State, versionSupported s.version = true →
    (∀ r < s.gs, ∀ c < s.gs, s.cell r c = patternedCell s.gs r c) →
      (freeCells s).length = capacity s.version.toNat ∧ (freeCells s).length + 2 * s.gs + 191 = s.gs * s.gs

/-- R188, R190: PLACE puts bit `i` of the payload into the `i`-th free cell of the walk and writes no other cell; a payload
longer than the free cells raises `PayloadTooLong` and places nothing. -/
def Obligations.PlacePutsBitsInWalkOrder : Prop :=
  ∀ s : State, s.phase = .patterned → versionSupported s.version = true →
    (s.pay.length ≤ (freeCells s).length →
      ∃ t, exec .place s = .next t
        ∧ t = { s with grid := t.grid, dflag := t.dflag, nplaced := BitVec.ofNat 12 s.pay.length,
                       incomplete := decide (s.pay.length < (freeCells s).length), phase := .placed }
        ∧ t.nplaced.toNat = s.pay.length
        ∧ (∀ (i r c : Nat) (b : Bool), s.pay[i]? = some b → (freeCells s)[i]? = some (r, c) →
            t.cell r c = (if b then .black else .white) ∧ t.flag r c = true)
        ∧ (∀ r c : Nat, (∀ i < s.pay.length, (freeCells s)[i]? ≠ some (r, c)) →
            t.cell r c = s.cell r c ∧ t.flag r c = s.flag r c))
    ∧ ((freeCells s).length < s.pay.length → exec .place s = .next (s.takeFault .payloadTooLong 0x20000000))

/-! ## Mask Engine -/

/-- R210: MEVAL scores candidate `MCNT` and keeps the running minimum; the first is taken without a comparison, a later one
only when strictly less as a signed number. The answers are those of the parameters as the model holds them (log entry 3). -/
def Obligations.MevalKeepsRunningMinimum : Prop :=
  ∀ (s : State) (cand : List Cell) (n : Int) (h : s.mcnt.val < 8),
    s.phase = .placed ∨ s.phase = .scoring → versionSupported s.version = true →
    s.masksAnswer s.mcnt.val → s.isCandidate s.mcnt.val cand →
    s.collab.scoreAnswer s.gs cand = .int n → -2 ^ 31 ≤ n → n < 2 ^ 31 →
      (s.mcnt.val = 0 ∨ n < s.minscore.toInt →
        exec .meval s = .next { s with minscore := BitVec.ofInt 32 n, best := BitVec.ofNat 3 s.mcnt.val,
                                       mcnt := ⟨s.mcnt.val + 1, by omega⟩, phase := .scoring })
      ∧ (s.mcnt.val ≠ 0 → s.minscore.toInt ≤ n →
        exec .meval s = .next { s with mcnt := ⟨s.mcnt.val + 1, by omega⟩, phase := .scoring })

/-- R204, R276, R277: where MEVAL faults instead, nothing but the fault is written. -/
def Obligations.MevalFaults : Prop :=
  ∀ s : State, s.phase = .placed ∨ s.phase = .scoring → versionSupported s.version = true →
    (s.mcnt.val = 8 → exec .meval s = .next (s.takeFault .sequence 0x30000000))
    ∧ (s.mcnt.val < 8 →
        (∃ r < s.gs, ∃ c < s.gs, s.flag r c = true ∧ s.collab.maskAnswer s.mcnt.val r c ≠ .int 0
          ∧ s.collab.maskAnswer s.mcnt.val r c ≠ .int 1) →
        exec .meval s = .next (s.takeFault .collaborator 0x30000000))
    ∧ (s.mcnt.val < 8 → s.masksAnswer s.mcnt.val → ∀ cand, s.isCandidate s.mcnt.val cand →
        (s.collab.scoreAnswer s.gs cand = .err
          ∨ ∃ n, s.collab.scoreAnswer s.gs cand = .int n ∧ (n < -2 ^ 31 ∨ 2 ^ 31 ≤ n)) →
        exec .meval s = .next (s.takeFault .collaborator 0x30000000))

/-- R212: after eight MEVAL in a row, `BEST` is the least index that attains the minimum of the eight scores, and `MINSCORE`
is that minimum; nothing but the mask registers and `PHASE` has changed. The answers are those of the parameters as the model
holds them (log entry 3). `StepKeepsWinner` says the same of any steps in between. -/
def Obligations.WinnerIsLeastIndexOfMinimum : Prop :=
  ∀ (s : State) (score : Nat → BitVec 32),
    s.phase = .placed → s.mcnt.val = 0 → versionSupported s.version = true →
    (∀ k < 8, s.candScore k = some (score k)) →
      ∃ t, execList (List.replicate 8 .meval) s = .next t
        ∧ t = { s with minscore := t.minscore, best := t.best, mcnt := 8, phase := .scoring }
        ∧ t.minscore = score t.best.toNat
        ∧ (∀ k < 8, (score t.best.toNat).toInt ≤ (score k).toInt)
        ∧ (∀ k < t.best.toNat, (score t.best.toNat).toInt < (score k).toInt)

/-- R214: MCOMMIT replaces the live grid by the candidate of `BEST`, which changes data cells only (MASKFN as the model holds
it: log entry 3). -/
def Obligations.McommitAppliesWinner : Prop :=
  ∀ s : State, s.phase = .scoring → versionSupported s.version = true →
    (s.mcnt.val = 8 → s.masksAnswer s.best.toNat →
      ∃ t, exec .mcommit s = .next t ∧ t = { s with grid := t.grid, phase := .committed }
        ∧ (∀ r < 41, ∀ c < 41, t.cell r c =
            if r < s.gs ∧ c < s.gs ∧ s.flag r c = true ∧ s.collab.maskAnswer s.best.toNat r c = .int 1 then
              cellXor (s.cell r c) true
            else s.cell r c)
        ∧ (∀ cand, s.isCandidate s.best.toNat cand → ∀ r < s.gs, ∀ c < s.gs, cand[s.gs * r + c]? = some (t.cell r c)))
    ∧ (s.mcnt.val < 8 → exec .mcommit s = .next (s.takeFault .sequence 0x31000000))
    ∧ (s.mcnt.val = 8 →
        (∃ r < s.gs, ∃ c < s.gs, s.flag r c = true ∧ s.collab.maskAnswer s.best.toNat r c ≠ .int 0
          ∧ s.collab.maskAnswer s.best.toNat r c ≠ .int 1) →
        exec .mcommit s = .next (s.takeFault .collaborator 0x31000000))

/-- R216: applying a mask twice to the live grid gives back every cell of the physical array. -/
def Obligations.MaskTwiceRestoresGrid : Prop :=
  ∀ (s : State) (k : Nat), ∀ r < 41, ∀ c < 41, ((s.committed k).committed k).cell r c = s.cell r c

/-! ## Format information -/

/-- R238: FMTENC computes the three format registers for mask id `m` and clears `FMT_VALID`, in every phase but `FAULT`. -/
def Obligations.FmtencProbes : Prop :=
  ∀ m : BitVec 3, decode (0x40000000 ||| m.setWidth 32) = .ok (.fmtenc m)
    ∧ ∀ s : State,
      (s.phase ≠ .fault →
        exec (.fmtenc m) s = .next { s with fmtraw := formatRaw s.ecl m, fmtval := formatRaw s.ecl m ^^^ 0x5412, fmtmask := m,
                                            fmtValid := false })
      ∧ (s.phase = .fault → exec (.fmtenc m) s = .next s)

/-- R240: FMTENCW computes them for the committed winner and sets `FMT_VALID`; legal in `COMMITTED` only. -/
def Obligations.FmtencwEncodesWinner : Prop :=
  decode 0x41000000 = .ok .fmtencw
  ∧ ∀ s : State,
    (s.phase = .committed →
      exec .fmtencw s = .next { s with fmtraw := formatRaw s.ecl s.best, fmtval := formatRaw s.ecl s.best ^^^ 0x5412,
                                       fmtmask := s.best, fmtValid := true })
    ∧ (s.phase ≠ .committed → s.phase ≠ .fault → exec .fmtencw s = .next (s.takeFault .sequence 0x41000000))
    ∧ (s.phase = .fault → exec .fmtencw s = .next s)

/-- R242: the 32 code words by level and mask id, L, M, Q, H in order; they differ pairwise in at least 7 places, and no
format value is 0 or `0x7FFF`. -/
def Obligations.FormatCodewordTable : Prop :=
  ((List.range 8).map fun m => formatRaw 0 (BitVec.ofNat 3 m)) =
      [0x23D6, 0x26E1, 0x29B8, 0x2C8F, 0x323D, 0x370A, 0x3853, 0x3D64]
  ∧ ((List.range 8).map fun m => formatRaw 1 (BitVec.ofNat 3 m)) =
      [0x0000, 0x0537, 0x0A6E, 0x0F59, 0x11EB, 0x14DC, 0x1B85, 0x1EB2]
  ∧ ((List.range 8).map fun m => formatRaw 2 (BitVec.ofNat 3 m)) =
      [0x614D, 0x647A, 0x6B23, 0x6E14, 0x70A6, 0x7591, 0x7AC8, 0x7FFF]
  ∧ ((List.range 8).map fun m => formatRaw 3 (BitVec.ofNat 3 m)) =
      [0x429B, 0x47AC, 0x48F5, 0x4DC2, 0x5370, 0x5647, 0x591E, 0x5C29]
  ∧ (∀ e m, formatVal e m = formatRaw e m ^^^ 0x5412 ∧ formatVal e m ≠ 0 ∧ formatVal e m ≠ 0x7FFF)
  ∧ (∀ e m e' m', (e, m) ≠ (e', m') →
      7 ≤ ((List.range 15).filter fun i => (formatRaw e m ^^^ formatRaw e' m').getLsbD i).length)
  ∧ (∀ e m, formatRaw e m ≠ 0 → 7 ≤ ((List.range 15).filter fun i => (formatRaw e m).getLsbD i).length)
  ∧ ((List.range 15).filter fun i => (0x0537#15).getLsbD i).length = 7

/-- R246, R248: FMTWRITE under the standard placement (R244, general knowledge, log entry 4) writes the 32 reserved cells
and no other; without a valid format value it raises `Sequence`. -/
def Obligations.FmtwriteStandardPlacement : Prop :=
  ∀ s : State, s.phase = .committed → versionSupported s.version = true →
    (s.fmtValid = true → s.collab.standardPlacement = true →
      ∃ t, exec .fmtwrite s = .next t ∧ t = { s with grid := t.grid, phase := .fmtWritten }
        ∧ ∀ r < 41, ∀ c < 41, t.cell r c =
            if r < s.gs ∧ c < s.gs ∧ patternedCell s.gs r c = .reserved then finishedCell s.gs s.fmtval r c
            else s.cell r c)
    ∧ (s.fmtValid = false → exec .fmtwrite s = .next (s.takeFault .sequence 0x42000000))

/-- R246, R134: FMTWRITE under any placement: a cell outside the grid raises `OverlayOutOfBounds` and writes nothing; otherwise
both copies of the 15 bits are written in the order of the list, so that the greatest bit index that names a cell decides it,
then the two timing cells, which are `Black` whatever names them, and no other cell. -/
def Obligations.FmtwriteAnyPlacement : Prop :=
  ∀ s : State, s.phase = .committed → versionSupported s.version = true → s.fmtValid = true →
    ((∃ i < 15, ∃ k, (k = 1 ∨ k = 2) ∧
        inGrid s.gs (s.collab.coordsOf s.gs k i).1 (s.collab.coordsOf s.gs k i).2 = false) →
      exec .fmtwrite s = .next (s.takeFault .overlayOutOfBounds 0x42000000))
    ∧ ((∀ i < 15, ∀ k, k = 1 ∨ k = 2 →
        inGrid s.gs (s.collab.coordsOf s.gs k i).1 (s.collab.coordsOf s.gs k i).2 = true) →
      ∃ t, exec .fmtwrite s = .next t ∧ t = { s with grid := t.grid, phase := .fmtWritten }
        ∧ t.cell 6 8 = .black ∧ t.cell 8 6 = .black
        ∧ (∀ (i k r c : Nat), i < 15 → k = 1 ∨ k = 2 → s.collab.coordsOf s.gs k i = ((r : Int), (c : Int)) →
            (r, c) ≠ (6, 8) → (r, c) ≠ (8, 6) →
            (∀ j < 15, i < j → ∀ m, m = 1 ∨ m = 2 → s.collab.coordsOf s.gs m j ≠ ((r : Int), (c : Int))) →
            t.cell r c = if s.fmtval.getLsbD i then .black else .white)
        ∧ (∀ r c : Nat, (r, c) ≠ (6, 8) → (r, c) ≠ (8, 6) →
            (∀ i < 15, ∀ k, k = 1 ∨ k = 2 → s.collab.coordsOf s.gs k i ≠ ((r : Int), (c : Int))) →
            t.cell r c = s.cell r c))

/-- R135: under the standard placement (R244, general knowledge, log entry 4) no command can raise `OverlayOutOfBounds`. -/
def Obligations.StandardPlacementStaysInGrid : Prop :=
  ∀ (i : Instr) (s t : State), s.collab.standardPlacement = true → s.ControlInv → s.errCode ≠ .overlayOutOfBounds →
    exec i s = .next t → t.errCode ≠ .overlayOutOfBounds

/-! ## Quiet zone -/

/-- R260: QZONE writes all of `OUT`: the white ring, the centred grid, `Unset` beyond; `GRID` is not changed. -/
def Obligations.QzoneBordersGrid : Prop :=
  ∀ s : State, s.phase = .fmtWritten → versionSupported s.version = true →
    ∃ t, exec .qzone s = .next t ∧ t = { s with out := t.out, phase := .done }
      ∧ (∀ r < 43, ∀ c < 43, (r ≤ s.gs + 1 ∧ c ≤ s.gs + 1) → (r = 0 ∨ r = s.gs + 1 ∨ c = 0 ∨ c = s.gs + 1) →
          t.outCell r c = .white)
      ∧ (∀ r < s.gs, ∀ c < s.gs, t.outCell (r + 1) (c + 1) = s.cell r c)
      ∧ (∀ r < 43, ∀ c < 43, s.gs + 1 < r ∨ s.gs + 1 < c → t.outCell r c = .unset)

/-! ## Faults and the whole machine -/

/-- R26, R277: a command that the table of phases does not list raises `Sequence`, and so do MEVAL with `MCNT = 8`, MCOMMIT
with `MCNT < 8` and FMTWRITE with `FMT_VALID = 0` in their phases. -/
def Obligations.SequenceFaults : Prop :=
  (∀ (i : Instr) (s : State), s.phase ≠ .fault → legalCommands s.phase i = false →
    exec i s = .next { s with errCode := .sequence, errPhase := s.phase, errInfo := encode i, phase := .fault })
  ∧ ∀ s : State, versionSupported s.version = true →
    (s.phase = .placed ∨ s.phase = .scoring → s.mcnt.val = 8 → exec .meval s = .next (s.takeFault .sequence 0x30000000))
    ∧ (s.phase = .scoring → s.mcnt.val < 8 → exec .mcommit s = .next (s.takeFault .sequence 0x31000000))
    ∧ (s.phase = .committed → s.fmtValid = false → exec .fmtwrite s = .next (s.takeFault .sequence 0x42000000))

/-- R280: a command that faults writes `ERRCODE`, `ERRPHASE`, `ERRINFO` and `PHASE` and nothing else. -/
def Obligations.FaultEntryWritesFourItems : Prop :=
  ∀ (w : Word) (s t : State), s.phase ≠ .fault → executeWord w s = .next t → t.phase = .fault →
    t = { s with errCode := t.errCode, errPhase := s.phase, errInfo := w, phase := .fault }
    ∧ t.errCode ≠ .noFault ∧ t.errCode ≠ .nonSquareMatrix ∧ t.faultLine = true ∧ t.doneLine = false

/-- R282: in `FAULT` every word but `0x01000000` is discarded, and the two matrix windows read 3. The write is acknowledged
(the reply is the model's own field, log entry 2). -/
def Obligations.FaultPhaseDiscardsWords : Prop :=
  ∀ s : State, s.phase = .fault →
    (∀ w : Word, w ≠ 0x01000000 → executeWord w s = .next s)
    ∧ (∀ (w : Word) (rest : List Input), w ≠ 0x01000000 → s.inputs = .access (.write 4 0x0004 w) :: rest →
        step s = .next { s with inputs := rest, reply := some .ack })
    ∧ (∀ r ≤ 40, ∀ c ≤ 40, gridRead s r c = some 3) ∧ (∀ r ≤ 42, ∀ c ≤ 42, outRead s r c = some 3)
    ∧ (∀ r ≤ 40, ∀ c ≤ 40, dflagRead s r c = some (boolWord (s.flag r c)))

/-- R283: the only way out of `FAULT` is the command RESET or the hardware reset input, each as the oldest input (the list is
the model's own field, log entry 1). -/
def Obligations.OnlyResetLeavesFault : Prop :=
  ∀ s t : State, s.phase = .fault → step s = .next t → t.phase ≠ .fault →
    (∃ rest, s.inputs = .resetPin :: rest) ∨ (∃ rest, s.inputs = .access (.write 4 0x0004 0x01000000) :: rest)

/-- R26: `PHASE` changes only as the column "entered by" of the table says, or to `FAULT`. -/
def Obligations.PhaseMovesByTheTable : Prop :=
  ∀ (i : Instr) (s t : State), exec i s = .next t → t.phase ≠ .fault →
    t.phase = (entersPhase i).getD s.phase ∧ legalCommands s.phase i = true

/-- R41, R14: the write set of every command, faulting or not; the open parameters are no part of any. -/
def Obligations.CommandsWriteOnlyTheirWriteSet : Prop :=
  ∀ (i : Instr) (s t : State), exec i s = .next t →
    (t.phase ≠ .fault → ∀ x, x ∉ writeSet i → sameItem x s t)
    ∧ (t.phase = .fault → ∀ x, x ∉ faultWriteSet → sameItem x s t)
    ∧ t.collab = s.collab ∧ t.inputs = s.inputs ∧ t.reply = s.reply

/-- R42 items 6, 7, 8, R20 and R273: every step keeps them. -/
def Obligations.StepKeepsControlState : Prop :=
  ∀ s t : State, s.ControlInv → step s = .next t → t.ControlInv

/-- R42 item 7, R35, R281: from a state that meets the control invariant no step stops. -/
def Obligations.NoStepStops : Prop := ∀ s : State, s.ControlInv → ∃ t, step s = .next t

/-- R34, R27: every step keeps what ties the format registers together and to the winner. -/
def Obligations.StepKeepsFormatRegisters : Prop :=
  ∀ s t : State, s.ControlInv → s.FormatInv → step s = .next t → t.FormatInv

/-- R42 items 3 and 4: every step keeps the shape of `GRID` and `DFLAG`. -/
def Obligations.StepKeepsGridShape : Prop :=
  ∀ s t : State, s.ControlInv → s.GridInv → step s = .next t → t.GridInv

/-- R42 item 5: every step keeps `NPLACED` equal to the number of data cells. -/
def Obligations.StepKeepsPlacedCount : Prop :=
  ∀ s t : State, s.ControlInv → s.GridInv → s.CountInv → step s = .next t → t.CountInv

/-- R150, R172, R188, R202, R246: every step keeps the layers of the Matrix. -/
def Obligations.StepKeepsLayers : Prop :=
  ∀ s t : State, s.ControlInv → s.FormatInv → s.GridInv → s.LayerInv → step s = .next t → t.LayerInv

/-- R188, R192: every step keeps what `INCOMPLETE = 0` promises. -/
def Obligations.StepKeepsCompleteness : Prop :=
  ∀ s t : State, s.ControlInv → s.GridInv → s.LayerInv → s.CompleteInv → step s = .next t → t.CompleteInv

/-- R260, R262: every step keeps `OUT` in `DONE` equal to the bordered `GRID`. -/
def Obligations.StepKeepsOutput : Prop :=
  ∀ s t : State, s.ControlInv → s.OutInv → step s = .next t → t.OutInv

/-- R210, R212: every step keeps, in `SCORING`, `MINSCORE` the signed minimum of the scores of the candidates below `MCNT` and
`BEST` the least index that attains it, whatever commands and accesses stand between the MEVAL. The answers are those of the
parameters as the model holds them (log entry 3). -/
def Obligations.StepKeepsWinner : Prop :=
  ∀ s t : State, s.ControlInv → s.WinnerInv → step s = .next t → t.WinnerInv

/-- R40, R42: the reset state meets every invariant. -/
def Obligations.ResetMeetsInvariants : Prop :=
  State.reset.ControlInv ∧ State.reset.FormatInv ∧ State.reset.GridInv ∧ State.reset.CountInv ∧ State.reset.LayerInv
  ∧ State.reset.CompleteInv ∧ State.reset.OutInv ∧ State.reset.WinnerInv

/-- R42 item 9: in `DONE` with `INCOMPLETE = 0` under the standard placement (log entry 4) every live cell of `OUT` is a
colour. -/
def Obligations.FinishedSymbolIsColours : Prop :=
  ∀ s : State, s.ControlInv → s.GridInv → s.LayerInv → s.CompleteInv → s.OutInv →
    s.phase = .done → s.incomplete = false → s.collab.standardPlacement = true →
      ∀ r ≤ s.gs + 1, ∀ c ≤ s.gs + 1, cellIsColour (s.outCell r c) = true

/-! ## Pseudo-commands -/

/-- R103: PAYBITS appends exactly its bits, and the pseudo-commands have the numbers of words of the table. -/
def Obligations.PseudoCommandsExpand : Prop :=
  (∀ (bits : List Bool) (s : State), s.phase = .idle ∨ s.phase = .done → s.pay.length + bits.length ≤ 2048 →
      execList (expand (.paybits bits)) s = .next { s with pay := s.pay ++ bits })
  ∧ (∀ bits, (expand (.paybits bits)).length = (bits.length + 15) / 16)
  ∧ (expand .patterns).length = 5 ∧ (expand .mselect).length = 9 ∧ (expand .format).length = 2
  ∧ (expand .assemble).length = 19
  ∧ (∀ v e bits, (expand (.symbol v e bits)).length = 21 + (bits.length + 15) / 16)

/-- R304 step 5, R103: ASSEMBLE, from a state that accepts INIT, with a payload that fits, collaborators that answer every
query of that grid size within their types (R7, R276) and FMT_COORDS inside the grid (R135), completes in `DONE` without a
fault and keeps the configuration and the payload. No default of R7 is assumed. -/
def Obligations.AssembleReachesDone : Prop :=
  ∀ s : State, s.phase = .idle ∨ s.phase = .done → versionSupported s.version = true →
    s.pay.length ≤ capacity s.version.toNat →
    (∀ k < 8, ∀ r < s.gs, ∀ c < s.gs, s.collab.maskAnswer k r c = .int 0 ∨ s.collab.maskAnswer k r c = .int 1) →
    (∀ cand : List Cell, cand.length = s.gs * s.gs →
      ∃ n : Int, s.collab.scoreAnswer s.gs cand = .int n ∧ -2 ^ 31 ≤ n ∧ n ≤ 2 ^ 31 - 1) →
    (∀ i < 15, ∀ k, k = 1 ∨ k = 2 →
      inGrid s.gs (s.collab.coordsOf s.gs k i).1 (s.collab.coordsOf s.gs k i).2 = true) →
      ∃ t, execList (expand .assemble) s = .next t ∧ t.phase = .done ∧ t.version = s.version ∧ t.ecl = s.ecl ∧ t.pay = s.pay
        ∧ t.nplaced.toNat = s.pay.length ∧ t.incomplete = decide (s.pay.length < capacity s.version.toNat)
        ∧ t.fmtval = formatVal s.ecl t.best ∧ t.errCode = s.errCode
end

