-- ==== Sys2Proof/Laws/Decode.lean ====
section
/-! SUPPORT. The bits of a PAYPUSH word, format Z read backwards and the lanes of a word (30_encoding.md rules R91, R93,
20_memory.md rule R63). -/

namespace Sys2Proof

/-- Bit by bit, the word of PAYPUSH: data in bits 15:0, the count in bits 20:16, the opcode's one bit at 26 (R93). -/
theorem getLsbD_encode_paypush (n : BitVec 5) (data : BitVec 16) (i : Nat) :
    (encode (.paypush n data)).getLsbD i =
      if i < 16 then data.getLsbD i else if i < 21 then n.getLsbD (i - 16) else decide (i = 26) := by
  change (0x04#8 ++ 0#3 ++ n ++ data).getLsbD i = _
  rw [BitVec.getLsbD_append]
  by_cases h1 : i < 16
  · rw [if_pos h1, if_pos h1]
  · rw [if_neg h1, if_neg h1, BitVec.getLsbD_append]
    by_cases h2 : i < 21
    · rw [if_pos h2, if_pos (by omega)]
    · rw [if_neg h2, if_neg (by omega), BitVec.getLsbD_append]
      split
      next h3 => simp; omega
      next h3 =>
        by_cases h4 : i < 32
        · interval_cases i <;> rfl
        · rw [BitVec.getLsbD_of_ge _ _ (by omega)]
          simp; omega

/-- The opcode field of a PAYPUSH word. -/
theorem opcodeOf_encode_paypush (n : BitVec 5) (data : BitVec 16) : opcodeOf (encode (.paypush n data)) = 0x04 := by
  refine BitVec.eq_of_getLsbD_eq fun i hi => ?_
  rw [opcodeOf, BitVec.getLsbD_extractLsb', getLsbD_encode_paypush, if_neg (by omega), if_neg (by omega)]
  interval_cases i <;> rfl

/-- The fields of a PAYPUSH word (R93). -/
theorem fields_encode_paypush (n : BitVec 5) (data : BitVec 16) :
    (encode (.paypush n data)).extractLsb' 21 3 = 0 ∧ (encode (.paypush n data)).extractLsb' 16 5 = n
    ∧ (encode (.paypush n data)).extractLsb' 0 16 = data := by
  refine ⟨?_, ?_, ?_⟩ <;> refine BitVec.eq_of_getLsbD_eq fun i hi => ?_
  · rw [BitVec.getLsbD_extractLsb', getLsbD_encode_paypush, if_neg (by omega), if_neg (by omega)]
    interval_cases i <;> rfl
  · rw [BitVec.getLsbD_extractLsb', getLsbD_encode_paypush, if_neg (by omega), if_pos (by omega)]
    simp [hi]
  · rw [BitVec.getLsbD_extractLsb', getLsbD_encode_paypush, if_pos (by omega)]
    simp [hi]

/-- The four lanes of a word put together again are the word (R63). -/
theorem wordOfLanes_laneOf (w : Word) : wordOfLanes (laneOf w 0) (laneOf w 1) (laneOf w 2) (laneOf w 3) = w := by
  refine BitVec.eq_of_getLsbD_eq fun i hi => ?_
  unfold wordOfLanes laneOf
  rw [BitVec.getLsbD_append]
  split
  · rw [BitVec.getLsbD_extractLsb']; simp [*]
  · rw [BitVec.getLsbD_append]
    split
    · rw [BitVec.getLsbD_extractLsb']
      rw [show 8 * 1 + (i - 8) = i by omega]; simp [*]
    · rw [BitVec.getLsbD_append]
      split
      · rw [BitVec.getLsbD_extractLsb']
        rw [show 8 * 2 + (i - 8 - 8) = i by omega]; simp [*]
      · rw [BitVec.getLsbD_extractLsb']
        rw [show 8 * 3 + (i - 8 - 8 - 8) = i by omega]; simp; omega

/-- A format Z word that decodes has its command and no other bit (R91). -/
theorem decodeZ_ok {w : Word} {i j : Instr} (h : decodeZ w i = .ok j) : j = i ∧ w.extractLsb' 0 24 = 0 := by
  unfold decodeZ at h
  split at h
  · exact ⟨(Except.ok.inj h).symm, ‹_›⟩
  · cases h

/-- A word is its opcode and the 24 bits below it (R90). -/
theorem word_eq_opcode_append (w : Word) : w = opcodeOf w ++ w.extractLsb' 0 24 := by
  refine BitVec.eq_of_getLsbD_eq fun i hi => ?_
  rw [opcodeOf, BitVec.getLsbD_append]
  split <;> rw [BitVec.getLsbD_extractLsb']
  · simp [*]
  · rw [show 24 + (i - 24) = i by omega, decide_eq_true (by omega), Bool.true_and]

theorem encodeZ_of_fields {w : Word} {op : BitVec 8} (h1 : opcodeOf w = op) (h2 : w.extractLsb' 0 24 = 0) : encodeZ op = w := by
  rw [word_eq_opcode_append w, h1, h2]
  rfl

end Sys2Proof
end

