-- ==== Sys2Proof/Laws/Plane.lean ====
section
/-! SUPPORT. What reading an array gives after each way of making one, and the codes of a cell. -/

namespace Sys2Proof.Machine

variable {n : Nat} {α : Type}

theorem planeGet_of_lt (p : Plane n α) {r c : Nat} (d : α) (hr : r < n) (hc : c < n) : planeGet p r c d = p[r][c] := by
  simp [planeGet, hr, hc]

theorem planeGet_row_out (p : Plane n α) {r : Nat} (c : Nat) (d : α) (hr : n ≤ r) : planeGet p r c d = d := by
  simp [planeGet, hr]

theorem planeGet_col_out (p : Plane n α) (r : Nat) {c : Nat} (d : α) (hc : n ≤ c) : planeGet p r c d = d := by
  unfold planeGet
  by_cases hr : r < n
  · simp [hr, hc]
  · simp [Nat.le_of_not_lt hr]

@[simp] theorem planeGet_fill (a d : α) (r c : Nat) : planeGet (planeFill n a) r c d = if r < n ∧ c < n then a else d := by
  by_cases hr : r < n
  · by_cases hc : c < n
    · simp [planeGet_of_lt, hr, hc, planeFill]
    · simp [planeGet_col_out _ _ _ (Nat.le_of_not_lt hc), hc]
  · simp [planeGet_row_out _ _ _ (Nat.le_of_not_lt hr), hr]

@[simp] theorem planeGet_build (f : Nat → Nat → α) (d : α) (r c : Nat) :
    planeGet (planeBuild n f) r c d = if r < n ∧ c < n then f r c else d := by
  by_cases hr : r < n
  · by_cases hc : c < n
    · simp [planeGet_of_lt, hr, hc, planeBuild]
    · simp [planeGet_col_out _ _ _ (Nat.le_of_not_lt hc), hc]
  · simp [planeGet_row_out _ _ _ (Nat.le_of_not_lt hr), hr]

/-- Read after write: the written element where the array has it, every other element as before. -/
theorem planeGet_set (p : Plane n α) (r c : Nat) (a d : α) (r' c' : Nat) :
    planeGet (planeSet p r c a) r' c' d = if r' = r ∧ c' = c ∧ r < n ∧ c < n then a else planeGet p r' c' d := by
  by_cases hr' : r' < n
  swap
  · have : ¬(r' = r ∧ c' = c ∧ r < n ∧ c < n) := by omega
    rw [planeGet_row_out _ _ _ (Nat.le_of_not_lt hr'), planeGet_row_out _ _ _ (Nat.le_of_not_lt hr')]; simp [this]
  by_cases hc' : c' < n
  swap
  · have : ¬(r' = r ∧ c' = c ∧ r < n ∧ c < n) := by omega
    rw [planeGet_col_out _ _ _ (Nat.le_of_not_lt hc'), planeGet_col_out _ _ _ (Nat.le_of_not_lt hc')]; simp [this]
  by_cases hr : r < n
  swap
  · simp [planeSet, hr]
  have e : planeSet p r c a = p.set r (p[r].setIfInBounds c a) hr := by simp [planeSet, hr]
  rw [e, planeGet_of_lt _ _ hr' hc', planeGet_of_lt _ _ hr' hc']
  by_cases e1 : r = r'
  · subst e1
    by_cases e2 : c = c'
    · subst e2; simp [hr', hc']
    · have : ¬(c' = c) := fun h => e2 h.symm
      simp [e2, this]
  · have : ¬(r' = r) := fun h => e1 h.symm
    simp [e1, this]

theorem planeGet_set_self (p : Plane n α) {r c : Nat} (a d : α) (hr : r < n) (hc : c < n) :
    planeGet (planeSet p r c a) r c d = a := by simp [planeGet_set, hr, hc]

theorem planeGet_set_of_ne (p : Plane n α) {r c r' c' : Nat} (a d : α) (h : r' ≠ r ∨ c' ≠ c) :
    planeGet (planeSet p r c a) r' c' d = planeGet p r' c' d := by
  rw [planeGet_set, if_neg]; omega

/-- Two arrays with the same elements are the same array. -/
theorem plane_ext {p q : Plane n α} (d : α) (h : ∀ r < n, ∀ c < n, planeGet p r c d = planeGet q r c d) : p = q := by
  refine Vector.ext fun r hr => Vector.ext fun c hc => ?_
  have := h r hr c hc
  rwa [planeGet_of_lt _ _ hr hc, planeGet_of_lt _ _ hr hc] at this

@[simp] theorem cellOfCode_code (x : Cell) : cellOfCode (cellCode x) = x := by cases x <;> rfl

@[simp] theorem cellCode_ofCode : ∀ b : BitVec 2, cellCode (cellOfCode b) = b := by decide

@[simp] theorem cellXor_false (x : Cell) : cellXor x false = x := by cases x <;> rfl

@[simp] theorem cellXor_cellXor (x : Cell) (b : Bool) : cellXor (cellXor x b) b = x := by cases x <;> cases b <;> rfl

@[simp] theorem cellIsColour_cellXor (x : Cell) (b : Bool) : cellIsColour (cellXor x b) = cellIsColour x := by
  cases x <;> cases b <;> rfl

@[simp] theorem cellIsColour_colourOf (b : Bool) : cellIsColour (colourOf b) = true := by cases b <;> rfl

theorem colourOf_ne_unset (b : Bool) : colourOf b ≠ .unset := by cases b <;> decide

end Sys2Proof.Machine
end

