-- ==== Sys2Proof/Laws/State.lean ====
section
/-! SUPPORT. One lemma per field of State and per named update, and what each update does to the derived reads. -/

namespace Sys2Proof.Machine

variable (s : State)

@[simp] theorem State.takeFault_version (f : ErrCode) (w : Word) : (s.takeFault f w).version = s.version := rfl
@[simp] theorem State.takeFault_ecl (f : ErrCode) (w : Word) : (s.takeFault f w).ecl = s.ecl := rfl
@[simp] theorem State.takeFault_phase (f : ErrCode) (w : Word) : (s.takeFault f w).phase = .fault := rfl
@[simp] theorem State.takeFault_grid (f : ErrCode) (w : Word) : (s.takeFault f w).grid = s.grid := rfl
@[simp] theorem State.takeFault_dflag (f : ErrCode) (w : Word) : (s.takeFault f w).dflag = s.dflag := rfl
@[simp] theorem State.takeFault_pay (f : ErrCode) (w : Word) : (s.takeFault f w).pay = s.pay := rfl
@[simp] theorem State.takeFault_nplaced (f : ErrCode) (w : Word) : (s.takeFault f w).nplaced = s.nplaced := rfl
@[simp] theorem State.takeFault_incomplete (f : ErrCode) (w : Word) : (s.takeFault f w).incomplete = s.incomplete := rfl
@[simp] theorem State.takeFault_mcnt (f : ErrCode) (w : Word) : (s.takeFault f w).mcnt = s.mcnt := rfl
@[simp] theorem State.takeFault_minscore (f : ErrCode) (w : Word) : (s.takeFault f w).minscore = s.minscore := rfl
@[simp] theorem State.takeFault_best (f : ErrCode) (w : Word) : (s.takeFault f w).best = s.best := rfl
@[simp] theorem State.takeFault_fmtraw (f : ErrCode) (w : Word) : (s.takeFault f w).fmtraw = s.fmtraw := rfl
@[simp] theorem State.takeFault_fmtval (f : ErrCode) (w : Word) : (s.takeFault f w).fmtval = s.fmtval := rfl
@[simp] theorem State.takeFault_fmtmask (f : ErrCode) (w : Word) : (s.takeFault f w).fmtmask = s.fmtmask := rfl
@[simp] theorem State.takeFault_fmtValid (f : ErrCode) (w : Word) : (s.takeFault f w).fmtValid = s.fmtValid := rfl
@[simp] theorem State.takeFault_out (f : ErrCode) (w : Word) : (s.takeFault f w).out = s.out := rfl
@[simp] theorem State.takeFault_errCode (f : ErrCode) (w : Word) : (s.takeFault f w).errCode = f := rfl
@[simp] theorem State.takeFault_errPhase (f : ErrCode) (w : Word) : (s.takeFault f w).errPhase = s.phase := rfl
@[simp] theorem State.takeFault_errInfo (f : ErrCode) (w : Word) : (s.takeFault f w).errInfo = w := rfl
@[simp] theorem State.takeFault_collab (f : ErrCode) (w : Word) : (s.takeFault f w).collab = s.collab := rfl
@[simp] theorem State.takeFault_inputs (f : ErrCode) (w : Word) : (s.takeFault f w).inputs = s.inputs := rfl
@[simp] theorem State.takeFault_reply (f : ErrCode) (w : Word) : (s.takeFault f w).reply = s.reply := rfl
@[simp] theorem State.takeFault_gs (f : ErrCode) (w : Word) : (s.takeFault f w).gs = s.gs := rfl
@[simp] theorem State.takeFault_payLen (f : ErrCode) (w : Word) : (s.takeFault f w).payLen = s.payLen := rfl
@[simp] theorem State.takeFault_cell (f : ErrCode) (w : Word) (r c : Nat) : (s.takeFault f w).cell r c = s.cell r c := rfl
@[simp] theorem State.takeFault_flag (f : ErrCode) (w : Word) (r c : Nat) : (s.takeFault f w).flag r c = s.flag r c := rfl
@[simp] theorem State.takeFault_outCell (f : ErrCode) (w : Word) (r c : Nat) : (s.takeFault f w).outCell r c = s.outCell r c := rfl

@[simp] theorem State.enter_version (p : Phase) : (s.enter p).version = s.version := rfl
@[simp] theorem State.enter_ecl (p : Phase) : (s.enter p).ecl = s.ecl := rfl
@[simp] theorem State.enter_phase (p : Phase) : (s.enter p).phase = p := rfl
@[simp] theorem State.enter_grid (p : Phase) : (s.enter p).grid = s.grid := rfl
@[simp] theorem State.enter_dflag (p : Phase) : (s.enter p).dflag = s.dflag := rfl
@[simp] theorem State.enter_pay (p : Phase) : (s.enter p).pay = s.pay := rfl
@[simp] theorem State.enter_nplaced (p : Phase) : (s.enter p).nplaced = s.nplaced := rfl
@[simp] theorem State.enter_incomplete (p : Phase) : (s.enter p).incomplete = s.incomplete := rfl
@[simp] theorem State.enter_mcnt (p : Phase) : (s.enter p).mcnt = s.mcnt := rfl
@[simp] theorem State.enter_minscore (p : Phase) : (s.enter p).minscore = s.minscore := rfl
@[simp] theorem State.enter_best (p : Phase) : (s.enter p).best = s.best := rfl
@[simp] theorem State.enter_fmtraw (p : Phase) : (s.enter p).fmtraw = s.fmtraw := rfl
@[simp] theorem State.enter_fmtval (p : Phase) : (s.enter p).fmtval = s.fmtval := rfl
@[simp] theorem State.enter_fmtmask (p : Phase) : (s.enter p).fmtmask = s.fmtmask := rfl
@[simp] theorem State.enter_fmtValid (p : Phase) : (s.enter p).fmtValid = s.fmtValid := rfl
@[simp] theorem State.enter_out (p : Phase) : (s.enter p).out = s.out := rfl
@[simp] theorem State.enter_errCode (p : Phase) : (s.enter p).errCode = s.errCode := rfl
@[simp] theorem State.enter_errPhase (p : Phase) : (s.enter p).errPhase = s.errPhase := rfl
@[simp] theorem State.enter_errInfo (p : Phase) : (s.enter p).errInfo = s.errInfo := rfl
@[simp] theorem State.enter_collab (p : Phase) : (s.enter p).collab = s.collab := rfl
@[simp] theorem State.enter_inputs (p : Phase) : (s.enter p).inputs = s.inputs := rfl
@[simp] theorem State.enter_reply (p : Phase) : (s.enter p).reply = s.reply := rfl
@[simp] theorem State.enter_gs (p : Phase) : (s.enter p).gs = s.gs := rfl
@[simp] theorem State.enter_payLen (p : Phase) : (s.enter p).payLen = s.payLen := rfl
@[simp] theorem State.enter_cell (p : Phase) (r c : Nat) : (s.enter p).cell r c = s.cell r c := rfl
@[simp] theorem State.enter_flag (p : Phase) (r c : Nat) : (s.enter p).flag r c = s.flag r c := rfl
@[simp] theorem State.enter_outCell (p : Phase) (r c : Nat) : (s.enter p).outCell r c = s.outCell r c := rfl

@[simp] theorem State.cleared_version : (s.cleared).version = s.version := rfl
@[simp] theorem State.cleared_ecl : (s.cleared).ecl = s.ecl := rfl
@[simp] theorem State.cleared_phase : (s.cleared).phase = .cleared := rfl
@[simp] theorem State.cleared_grid : (s.cleared).grid = planeFill Config.gmax .unset := rfl
@[simp] theorem State.cleared_dflag : (s.cleared).dflag = planeFill Config.gmax false := rfl
@[simp] theorem State.cleared_pay : (s.cleared).pay = s.pay := rfl
@[simp] theorem State.cleared_nplaced : (s.cleared).nplaced = 0 := rfl
@[simp] theorem State.cleared_incomplete : (s.cleared).incomplete = false := rfl
@[simp] theorem State.cleared_mcnt : (s.cleared).mcnt = 0 := rfl
@[simp] theorem State.cleared_minscore : (s.cleared).minscore = 0 := rfl
@[simp] theorem State.cleared_best : (s.cleared).best = 0 := rfl
@[simp] theorem State.cleared_fmtraw : (s.cleared).fmtraw = s.fmtraw := rfl
@[simp] theorem State.cleared_fmtval : (s.cleared).fmtval = s.fmtval := rfl
@[simp] theorem State.cleared_fmtmask : (s.cleared).fmtmask = s.fmtmask := rfl
@[simp] theorem State.cleared_fmtValid : (s.cleared).fmtValid = false := rfl
@[simp] theorem State.cleared_out : (s.cleared).out = s.out := rfl
@[simp] theorem State.cleared_errCode : (s.cleared).errCode = s.errCode := rfl
@[simp] theorem State.cleared_errPhase : (s.cleared).errPhase = s.errPhase := rfl
@[simp] theorem State.cleared_errInfo : (s.cleared).errInfo = s.errInfo := rfl
@[simp] theorem State.cleared_collab : (s.cleared).collab = s.collab := rfl
@[simp] theorem State.cleared_inputs : (s.cleared).inputs = s.inputs := rfl
@[simp] theorem State.cleared_reply : (s.cleared).reply = s.reply := rfl
@[simp] theorem State.cleared_gs : (s.cleared).gs = s.gs := rfl
@[simp] theorem State.cleared_payLen : (s.cleared).payLen = s.payLen := rfl
@[simp] theorem State.cleared_outCell (r c : Nat) : (s.cleared).outCell r c = s.outCell r c := rfl

@[simp] theorem State.formatted_version (m : BitVec 3) (b : Bool) : (s.formatted m b).version = s.version := rfl
@[simp] theorem State.formatted_ecl (m : BitVec 3) (b : Bool) : (s.formatted m b).ecl = s.ecl := rfl
@[simp] theorem State.formatted_phase (m : BitVec 3) (b : Bool) : (s.formatted m b).phase = s.phase := rfl
@[simp] theorem State.formatted_grid (m : BitVec 3) (b : Bool) : (s.formatted m b).grid = s.grid := rfl
@[simp] theorem State.formatted_dflag (m : BitVec 3) (b : Bool) : (s.formatted m b).dflag = s.dflag := rfl
@[simp] theorem State.formatted_pay (m : BitVec 3) (b : Bool) : (s.formatted m b).pay = s.pay := rfl
@[simp] theorem State.formatted_nplaced (m : BitVec 3) (b : Bool) : (s.formatted m b).nplaced = s.nplaced := rfl
@[simp] theorem State.formatted_incomplete (m : BitVec 3) (b : Bool) : (s.formatted m b).incomplete = s.incomplete := rfl
@[simp] theorem State.formatted_mcnt (m : BitVec 3) (b : Bool) : (s.formatted m b).mcnt = s.mcnt := rfl
@[simp] theorem State.formatted_minscore (m : BitVec 3) (b : Bool) : (s.formatted m b).minscore = s.minscore := rfl
@[simp] theorem State.formatted_best (m : BitVec 3) (b : Bool) : (s.formatted m b).best = s.best := rfl
@[simp] theorem State.formatted_fmtraw (m : BitVec 3) (b : Bool) : (s.formatted m b).fmtraw = formatRaw s.ecl m := rfl
@[simp] theorem State.formatted_fmtval (m : BitVec 3) (b : Bool) : (s.formatted m b).fmtval = formatVal s.ecl m := rfl
@[simp] theorem State.formatted_fmtmask (m : BitVec 3) (b : Bool) : (s.formatted m b).fmtmask = m := rfl
@[simp] theorem State.formatted_fmtValid (m : BitVec 3) (b : Bool) : (s.formatted m b).fmtValid = b := rfl
@[simp] theorem State.formatted_out (m : BitVec 3) (b : Bool) : (s.formatted m b).out = s.out := rfl
@[simp] theorem State.formatted_errCode (m : BitVec 3) (b : Bool) : (s.formatted m b).errCode = s.errCode := rfl
@[simp] theorem State.formatted_errPhase (m : BitVec 3) (b : Bool) : (s.formatted m b).errPhase = s.errPhase := rfl
@[simp] theorem State.formatted_errInfo (m : BitVec 3) (b : Bool) : (s.formatted m b).errInfo = s.errInfo := rfl
@[simp] theorem State.formatted_collab (m : BitVec 3) (b : Bool) : (s.formatted m b).collab = s.collab := rfl
@[simp] theorem State.formatted_inputs (m : BitVec 3) (b : Bool) : (s.formatted m b).inputs = s.inputs := rfl
@[simp] theorem State.formatted_reply (m : BitVec 3) (b : Bool) : (s.formatted m b).reply = s.reply := rfl
@[simp] theorem State.formatted_gs (m : BitVec 3) (b : Bool) : (s.formatted m b).gs = s.gs := rfl
@[simp] theorem State.formatted_payLen (m : BitVec 3) (b : Bool) : (s.formatted m b).payLen = s.payLen := rfl
@[simp] theorem State.formatted_cell (m : BitVec 3) (b : Bool) (r c : Nat) : (s.formatted m b).cell r c = s.cell r c := rfl
@[simp] theorem State.formatted_flag (m : BitVec 3) (b : Bool) (r c : Nat) : (s.formatted m b).flag r c = s.flag r c := rfl
@[simp] theorem State.formatted_outCell (m : BitVec 3) (b : Bool) (r c : Nat) : (s.formatted m b).outCell r c = s.outCell r c := rfl

@[simp] theorem State.bordered_version : (s.bordered).version = s.version := rfl
@[simp] theorem State.bordered_ecl : (s.bordered).ecl = s.ecl := rfl
@[simp] theorem State.bordered_phase : (s.bordered).phase = .done := rfl
@[simp] theorem State.bordered_grid : (s.bordered).grid = s.grid := rfl
@[simp] theorem State.bordered_dflag : (s.bordered).dflag = s.dflag := rfl
@[simp] theorem State.bordered_pay : (s.bordered).pay = s.pay := rfl
@[simp] theorem State.bordered_nplaced : (s.bordered).nplaced = s.nplaced := rfl
@[simp] theorem State.bordered_incomplete : (s.bordered).incomplete = s.incomplete := rfl
@[simp] theorem State.bordered_mcnt : (s.bordered).mcnt = s.mcnt := rfl
@[simp] theorem State.bordered_minscore : (s.bordered).minscore = s.minscore := rfl
@[simp] theorem State.bordered_best : (s.bordered).best = s.best := rfl
@[simp] theorem State.bordered_fmtraw : (s.bordered).fmtraw = s.fmtraw := rfl
@[simp] theorem State.bordered_fmtval : (s.bordered).fmtval = s.fmtval := rfl
@[simp] theorem State.bordered_fmtmask : (s.bordered).fmtmask = s.fmtmask := rfl
@[simp] theorem State.bordered_fmtValid : (s.bordered).fmtValid = s.fmtValid := rfl
@[simp] theorem State.bordered_out : (s.bordered).out = planeBuild Config.omax (borderedCell s) := rfl
@[simp] theorem State.bordered_errCode : (s.bordered).errCode = s.errCode := rfl
@[simp] theorem State.bordered_errPhase : (s.bordered).errPhase = s.errPhase := rfl
@[simp] theorem State.bordered_errInfo : (s.bordered).errInfo = s.errInfo := rfl
@[simp] theorem State.bordered_collab : (s.bordered).collab = s.collab := rfl
@[simp] theorem State.bordered_inputs : (s.bordered).inputs = s.inputs := rfl
@[simp] theorem State.bordered_reply : (s.bordered).reply = s.reply := rfl
@[simp] theorem State.bordered_gs : (s.bordered).gs = s.gs := rfl
@[simp] theorem State.bordered_payLen : (s.bordered).payLen = s.payLen := rfl
@[simp] theorem State.bordered_cell (r c : Nat) : (s.bordered).cell r c = s.cell r c := rfl
@[simp] theorem State.bordered_flag (r c : Nat) : (s.bordered).flag r c = s.flag r c := rfl

@[simp] theorem State.committed_version (k : Nat) : (s.committed k).version = s.version := rfl
@[simp] theorem State.committed_ecl (k : Nat) : (s.committed k).ecl = s.ecl := rfl
@[simp] theorem State.committed_phase (k : Nat) : (s.committed k).phase = .committed := rfl
@[simp] theorem State.committed_grid (k : Nat) : (s.committed k).grid = planeBuild Config.gmax fun r c => if r < s.gs ∧ c < s.gs then s.candCell k r c else s.cell r c :=
    rfl
@[simp] theorem State.committed_dflag (k : Nat) : (s.committed k).dflag = s.dflag := rfl
@[simp] theorem State.committed_pay (k : Nat) : (s.committed k).pay = s.pay := rfl
@[simp] theorem State.committed_nplaced (k : Nat) : (s.committed k).nplaced = s.nplaced := rfl
@[simp] theorem State.committed_incomplete (k : Nat) : (s.committed k).incomplete = s.incomplete := rfl
@[simp] theorem State.committed_mcnt (k : Nat) : (s.committed k).mcnt = s.mcnt := rfl
@[simp] theorem State.committed_minscore (k : Nat) : (s.committed k).minscore = s.minscore := rfl
@[simp] theorem State.committed_best (k : Nat) : (s.committed k).best = s.best := rfl
@[simp] theorem State.committed_fmtraw (k : Nat) : (s.committed k).fmtraw = s.fmtraw := rfl
@[simp] theorem State.committed_fmtval (k : Nat) : (s.committed k).fmtval = s.fmtval := rfl
@[simp] theorem State.committed_fmtmask (k : Nat) : (s.committed k).fmtmask = s.fmtmask := rfl
@[simp] theorem State.committed_fmtValid (k : Nat) : (s.committed k).fmtValid = s.fmtValid := rfl
@[simp] theorem State.committed_out (k : Nat) : (s.committed k).out = s.out := rfl
@[simp] theorem State.committed_errCode (k : Nat) : (s.committed k).errCode = s.errCode := rfl
@[simp] theorem State.committed_errPhase (k : Nat) : (s.committed k).errPhase = s.errPhase := rfl
@[simp] theorem State.committed_errInfo (k : Nat) : (s.committed k).errInfo = s.errInfo := rfl
@[simp] theorem State.committed_collab (k : Nat) : (s.committed k).collab = s.collab := rfl
@[simp] theorem State.committed_inputs (k : Nat) : (s.committed k).inputs = s.inputs := rfl
@[simp] theorem State.committed_reply (k : Nat) : (s.committed k).reply = s.reply := rfl
@[simp] theorem State.committed_gs (k : Nat) : (s.committed k).gs = s.gs := rfl
@[simp] theorem State.committed_payLen (k : Nat) : (s.committed k).payLen = s.payLen := rfl
@[simp] theorem State.committed_flag (k : Nat) (r c : Nat) : (s.committed k).flag r c = s.flag r c := rfl
@[simp] theorem State.committed_outCell (k : Nat) (r c : Nat) : (s.committed k).outCell r c = s.outCell r c := rfl

@[simp] theorem State.placedBits_version : (s.placedBits).version = s.version := rfl
@[simp] theorem State.placedBits_ecl : (s.placedBits).ecl = s.ecl := rfl
@[simp] theorem State.placedBits_phase : (s.placedBits).phase = .placed := rfl
@[simp] theorem State.placedBits_grid : (s.placedBits).grid = (placeLoop (walk s.gs) s.pay s.grid s.dflag 0).1 := rfl
@[simp] theorem State.placedBits_dflag : (s.placedBits).dflag = (placeLoop (walk s.gs) s.pay s.grid s.dflag 0).2.1 := rfl
@[simp] theorem State.placedBits_pay : (s.placedBits).pay = s.pay := rfl
@[simp] theorem State.placedBits_nplaced : (s.placedBits).nplaced = BitVec.ofNat 12 (placeLoop (walk s.gs) s.pay s.grid s.dflag 0).2.2 :=
    rfl
@[simp] theorem State.placedBits_incomplete : (s.placedBits).incomplete = incompleteFlag s.payLen (freeCells s).length := rfl
@[simp] theorem State.placedBits_mcnt : (s.placedBits).mcnt = s.mcnt := rfl
@[simp] theorem State.placedBits_minscore : (s.placedBits).minscore = s.minscore := rfl
@[simp] theorem State.placedBits_best : (s.placedBits).best = s.best := rfl
@[simp] theorem State.placedBits_fmtraw : (s.placedBits).fmtraw = s.fmtraw := rfl
@[simp] theorem State.placedBits_fmtval : (s.placedBits).fmtval = s.fmtval := rfl
@[simp] theorem State.placedBits_fmtmask : (s.placedBits).fmtmask = s.fmtmask := rfl
@[simp] theorem State.placedBits_fmtValid : (s.placedBits).fmtValid = s.fmtValid := rfl
@[simp] theorem State.placedBits_out : (s.placedBits).out = s.out := rfl
@[simp] theorem State.placedBits_errCode : (s.placedBits).errCode = s.errCode := rfl
@[simp] theorem State.placedBits_errPhase : (s.placedBits).errPhase = s.errPhase := rfl
@[simp] theorem State.placedBits_errInfo : (s.placedBits).errInfo = s.errInfo := rfl
@[simp] theorem State.placedBits_collab : (s.placedBits).collab = s.collab := rfl
@[simp] theorem State.placedBits_inputs : (s.placedBits).inputs = s.inputs := rfl
@[simp] theorem State.placedBits_reply : (s.placedBits).reply = s.reply := rfl
@[simp] theorem State.placedBits_gs : (s.placedBits).gs = s.gs := rfl
@[simp] theorem State.placedBits_payLen : (s.placedBits).payLen = s.payLen := rfl
@[simp] theorem State.placedBits_outCell (r c : Nat) : (s.placedBits).outCell r c = s.outCell r c := rfl

@[simp] theorem State.scored_version (v : BitVec 32) (k : Fin 9) : (s.scored v k).version = s.version :=
    by unfold State.scored; split <;> rfl
@[simp] theorem State.scored_ecl (v : BitVec 32) (k : Fin 9) : (s.scored v k).ecl = s.ecl :=
    by unfold State.scored; split <;> rfl
@[simp] theorem State.scored_phase (v : BitVec 32) (k : Fin 9) : (s.scored v k).phase = .scoring :=
    by unfold State.scored; split <;> rfl
@[simp] theorem State.scored_grid (v : BitVec 32) (k : Fin 9) : (s.scored v k).grid = s.grid :=
    by unfold State.scored; split <;> rfl
@[simp] theorem State.scored_dflag (v : BitVec 32) (k : Fin 9) : (s.scored v k).dflag = s.dflag :=
    by unfold State.scored; split <;> rfl
@[simp] theorem State.scored_pay (v : BitVec 32) (k : Fin 9) : (s.scored v k).pay = s.pay :=
    by unfold State.scored; split <;> rfl
@[simp] theorem State.scored_nplaced (v : BitVec 32) (k : Fin 9) : (s.scored v k).nplaced = s.nplaced :=
    by unfold State.scored; split <;> rfl
@[simp] theorem State.scored_incomplete (v : BitVec 32) (k : Fin 9) : (s.scored v k).incomplete = s.incomplete :=
    by unfold State.scored; split <;> rfl
@[simp] theorem State.scored_mcnt (v : BitVec 32) (k : Fin 9) : (s.scored v k).mcnt = k := by unfold State.scored; split <;> rfl
@[simp] theorem State.scored_minscore (v : BitVec 32) (k : Fin 9) : (s.scored v k).minscore = if s.mcnt.val = 0 ∨ scoreLess v s.minscore then v else s.minscore :=
    by unfold State.scored; split <;> simp_all
@[simp] theorem State.scored_best (v : BitVec 32) (k : Fin 9) : (s.scored v k).best = if s.mcnt.val = 0 ∨ scoreLess v s.minscore then BitVec.ofNat 3 s.mcnt.val else s.best :=
    by unfold State.scored; split <;> simp_all
@[simp] theorem State.scored_fmtraw (v : BitVec 32) (k : Fin 9) : (s.scored v k).fmtraw = s.fmtraw :=
    by unfold State.scored; split <;> rfl
@[simp] theorem State.scored_fmtval (v : BitVec 32) (k : Fin 9) : (s.scored v k).fmtval = s.fmtval :=
    by unfold State.scored; split <;> rfl
@[simp] theorem State.scored_fmtmask (v : BitVec 32) (k : Fin 9) : (s.scored v k).fmtmask = s.fmtmask :=
    by unfold State.scored; split <;> rfl
@[simp] theorem State.scored_fmtValid (v : BitVec 32) (k : Fin 9) : (s.scored v k).fmtValid = s.fmtValid :=
    by unfold State.scored; split <;> rfl
@[simp] theorem State.scored_out (v : BitVec 32) (k : Fin 9) : (s.scored v k).out = s.out :=
    by unfold State.scored; split <;> rfl
@[simp] theorem State.scored_errCode (v : BitVec 32) (k : Fin 9) : (s.scored v k).errCode = s.errCode :=
    by unfold State.scored; split <;> rfl
@[simp] theorem State.scored_errPhase (v : BitVec 32) (k : Fin 9) : (s.scored v k).errPhase = s.errPhase :=
    by unfold State.scored; split <;> rfl
@[simp] theorem State.scored_errInfo (v : BitVec 32) (k : Fin 9) : (s.scored v k).errInfo = s.errInfo :=
    by unfold State.scored; split <;> rfl
@[simp] theorem State.scored_collab (v : BitVec 32) (k : Fin 9) : (s.scored v k).collab = s.collab :=
    by unfold State.scored; split <;> rfl
@[simp] theorem State.scored_inputs (v : BitVec 32) (k : Fin 9) : (s.scored v k).inputs = s.inputs :=
    by unfold State.scored; split <;> rfl
@[simp] theorem State.scored_reply (v : BitVec 32) (k : Fin 9) : (s.scored v k).reply = s.reply :=
    by unfold State.scored; split <;> rfl
@[simp] theorem State.scored_gs (v : BitVec 32) (k : Fin 9) : (s.scored v k).gs = s.gs := by simp [State.gs]
@[simp] theorem State.scored_payLen (v : BitVec 32) (k : Fin 9) : (s.scored v k).payLen = s.payLen := by simp [State.payLen]
@[simp] theorem State.scored_cell (v : BitVec 32) (k : Fin 9) (r c : Nat) : (s.scored v k).cell r c = s.cell r c := by simp [State.cell]
@[simp] theorem State.scored_flag (v : BitVec 32) (k : Fin 9) (r c : Nat) : (s.scored v k).flag r c = s.flag r c := by simp [State.flag]
@[simp] theorem State.scored_outCell (v : BitVec 32) (k : Fin 9) (r c : Nat) : (s.scored v k).outCell r c = s.outCell r c := by simp [State.outCell]

@[simp] theorem State.answer_version (x : Reply) : (s.answer x).version = s.version := rfl
@[simp] theorem State.answer_ecl (x : Reply) : (s.answer x).ecl = s.ecl := rfl
@[simp] theorem State.answer_phase (x : Reply) : (s.answer x).phase = s.phase := rfl
@[simp] theorem State.answer_grid (x : Reply) : (s.answer x).grid = s.grid := rfl
@[simp] theorem State.answer_dflag (x : Reply) : (s.answer x).dflag = s.dflag := rfl
@[simp] theorem State.answer_pay (x : Reply) : (s.answer x).pay = s.pay := rfl
@[simp] theorem State.answer_nplaced (x : Reply) : (s.answer x).nplaced = s.nplaced := rfl
@[simp] theorem State.answer_incomplete (x : Reply) : (s.answer x).incomplete = s.incomplete := rfl
@[simp] theorem State.answer_mcnt (x : Reply) : (s.answer x).mcnt = s.mcnt := rfl
@[simp] theorem State.answer_minscore (x : Reply) : (s.answer x).minscore = s.minscore := rfl
@[simp] theorem State.answer_best (x : Reply) : (s.answer x).best = s.best := rfl
@[simp] theorem State.answer_fmtraw (x : Reply) : (s.answer x).fmtraw = s.fmtraw := rfl
@[simp] theorem State.answer_fmtval (x : Reply) : (s.answer x).fmtval = s.fmtval := rfl
@[simp] theorem State.answer_fmtmask (x : Reply) : (s.answer x).fmtmask = s.fmtmask := rfl
@[simp] theorem State.answer_fmtValid (x : Reply) : (s.answer x).fmtValid = s.fmtValid := rfl
@[simp] theorem State.answer_out (x : Reply) : (s.answer x).out = s.out := rfl
@[simp] theorem State.answer_errCode (x : Reply) : (s.answer x).errCode = s.errCode := rfl
@[simp] theorem State.answer_errPhase (x : Reply) : (s.answer x).errPhase = s.errPhase := rfl
@[simp] theorem State.answer_errInfo (x : Reply) : (s.answer x).errInfo = s.errInfo := rfl
@[simp] theorem State.answer_collab (x : Reply) : (s.answer x).collab = s.collab := rfl
@[simp] theorem State.answer_inputs (x : Reply) : (s.answer x).inputs = s.inputs := rfl
@[simp] theorem State.answer_reply (x : Reply) : (s.answer x).reply = some x := rfl
@[simp] theorem State.answer_gs (x : Reply) : (s.answer x).gs = s.gs := rfl
@[simp] theorem State.answer_payLen (x : Reply) : (s.answer x).payLen = s.payLen := rfl
@[simp] theorem State.answer_cell (x : Reply) (r c : Nat) : (s.answer x).cell r c = s.cell r c := rfl
@[simp] theorem State.answer_flag (x : Reply) (r c : Nat) : (s.answer x).flag r c = s.flag r c := rfl
@[simp] theorem State.answer_outCell (x : Reply) (r c : Nat) : (s.answer x).outCell r c = s.outCell r c := rfl

@[simp] theorem State.taken_version (rest : List Input) : (s.taken rest).version = s.version := rfl
@[simp] theorem State.taken_ecl (rest : List Input) : (s.taken rest).ecl = s.ecl := rfl
@[simp] theorem State.taken_phase (rest : List Input) : (s.taken rest).phase = s.phase := rfl
@[simp] theorem State.taken_grid (rest : List Input) : (s.taken rest).grid = s.grid := rfl
@[simp] theorem State.taken_dflag (rest : List Input) : (s.taken rest).dflag = s.dflag := rfl
@[simp] theorem State.taken_pay (rest : List Input) : (s.taken rest).pay = s.pay := rfl
@[simp] theorem State.taken_nplaced (rest : List Input) : (s.taken rest).nplaced = s.nplaced := rfl
@[simp] theorem State.taken_incomplete (rest : List Input) : (s.taken rest).incomplete = s.incomplete := rfl
@[simp] theorem State.taken_mcnt (rest : List Input) : (s.taken rest).mcnt = s.mcnt := rfl
@[simp] theorem State.taken_minscore (rest : List Input) : (s.taken rest).minscore = s.minscore := rfl
@[simp] theorem State.taken_best (rest : List Input) : (s.taken rest).best = s.best := rfl
@[simp] theorem State.taken_fmtraw (rest : List Input) : (s.taken rest).fmtraw = s.fmtraw := rfl
@[simp] theorem State.taken_fmtval (rest : List Input) : (s.taken rest).fmtval = s.fmtval := rfl
@[simp] theorem State.taken_fmtmask (rest : List Input) : (s.taken rest).fmtmask = s.fmtmask := rfl
@[simp] theorem State.taken_fmtValid (rest : List Input) : (s.taken rest).fmtValid = s.fmtValid := rfl
@[simp] theorem State.taken_out (rest : List Input) : (s.taken rest).out = s.out := rfl
@[simp] theorem State.taken_errCode (rest : List Input) : (s.taken rest).errCode = s.errCode := rfl
@[simp] theorem State.taken_errPhase (rest : List Input) : (s.taken rest).errPhase = s.errPhase := rfl
@[simp] theorem State.taken_errInfo (rest : List Input) : (s.taken rest).errInfo = s.errInfo := rfl
@[simp] theorem State.taken_collab (rest : List Input) : (s.taken rest).collab = s.collab := rfl
@[simp] theorem State.taken_inputs (rest : List Input) : (s.taken rest).inputs = rest := rfl
@[simp] theorem State.taken_reply (rest : List Input) : (s.taken rest).reply = s.reply := rfl
@[simp] theorem State.taken_gs (rest : List Input) : (s.taken rest).gs = s.gs := rfl
@[simp] theorem State.taken_payLen (rest : List Input) : (s.taken rest).payLen = s.payLen := rfl
@[simp] theorem State.taken_cell (rest : List Input) (r c : Nat) : (s.taken rest).cell r c = s.cell r c := rfl
@[simp] theorem State.taken_flag (rest : List Input) (r c : Nat) : (s.taken rest).flag r c = s.flag r c := rfl
@[simp] theorem State.taken_outCell (rest : List Input) (r c : Nat) : (s.taken rest).outCell r c = s.outCell r c := rfl

@[simp] theorem State.resetBlock_version : s.resetBlock.version = State.reset.version := rfl
@[simp] theorem State.resetBlock_ecl : s.resetBlock.ecl = State.reset.ecl := rfl
@[simp] theorem State.resetBlock_phase : s.resetBlock.phase = State.reset.phase := rfl
@[simp] theorem State.resetBlock_grid : s.resetBlock.grid = State.reset.grid := rfl
@[simp] theorem State.resetBlock_dflag : s.resetBlock.dflag = State.reset.dflag := rfl
@[simp] theorem State.resetBlock_pay : s.resetBlock.pay = State.reset.pay := rfl
@[simp] theorem State.resetBlock_nplaced : s.resetBlock.nplaced = State.reset.nplaced := rfl
@[simp] theorem State.resetBlock_incomplete : s.resetBlock.incomplete = State.reset.incomplete := rfl
@[simp] theorem State.resetBlock_mcnt : s.resetBlock.mcnt = State.reset.mcnt := rfl
@[simp] theorem State.resetBlock_minscore : s.resetBlock.minscore = State.reset.minscore := rfl
@[simp] theorem State.resetBlock_best : s.resetBlock.best = State.reset.best := rfl
@[simp] theorem State.resetBlock_fmtraw : s.resetBlock.fmtraw = State.reset.fmtraw := rfl
@[simp] theorem State.resetBlock_fmtval : s.resetBlock.fmtval = State.reset.fmtval := rfl
@[simp] theorem State.resetBlock_fmtmask : s.resetBlock.fmtmask = State.reset.fmtmask := rfl
@[simp] theorem State.resetBlock_fmtValid : s.resetBlock.fmtValid = State.reset.fmtValid := rfl
@[simp] theorem State.resetBlock_out : s.resetBlock.out = State.reset.out := rfl
@[simp] theorem State.resetBlock_errCode : s.resetBlock.errCode = State.reset.errCode := rfl
@[simp] theorem State.resetBlock_errPhase : s.resetBlock.errPhase = State.reset.errPhase := rfl
@[simp] theorem State.resetBlock_errInfo : s.resetBlock.errInfo = State.reset.errInfo := rfl
@[simp] theorem State.resetBlock_collab : s.resetBlock.collab = s.collab := rfl
@[simp] theorem State.resetBlock_inputs : s.resetBlock.inputs = s.inputs := rfl
@[simp] theorem State.resetBlock_reply : s.resetBlock.reply = s.reply := rfl

@[simp] theorem State.hardReset_version : s.hardReset.version = State.reset.version := rfl
@[simp] theorem State.hardReset_ecl : s.hardReset.ecl = State.reset.ecl := rfl
@[simp] theorem State.hardReset_phase : s.hardReset.phase = State.reset.phase := rfl
@[simp] theorem State.hardReset_grid : s.hardReset.grid = State.reset.grid := rfl
@[simp] theorem State.hardReset_dflag : s.hardReset.dflag = State.reset.dflag := rfl
@[simp] theorem State.hardReset_pay : s.hardReset.pay = State.reset.pay := rfl
@[simp] theorem State.hardReset_nplaced : s.hardReset.nplaced = State.reset.nplaced := rfl
@[simp] theorem State.hardReset_incomplete : s.hardReset.incomplete = State.reset.incomplete := rfl
@[simp] theorem State.hardReset_mcnt : s.hardReset.mcnt = State.reset.mcnt := rfl
@[simp] theorem State.hardReset_minscore : s.hardReset.minscore = State.reset.minscore := rfl
@[simp] theorem State.hardReset_best : s.hardReset.best = State.reset.best := rfl
@[simp] theorem State.hardReset_fmtraw : s.hardReset.fmtraw = State.reset.fmtraw := rfl
@[simp] theorem State.hardReset_fmtval : s.hardReset.fmtval = State.reset.fmtval := rfl
@[simp] theorem State.hardReset_fmtmask : s.hardReset.fmtmask = State.reset.fmtmask := rfl
@[simp] theorem State.hardReset_fmtValid : s.hardReset.fmtValid = State.reset.fmtValid := rfl
@[simp] theorem State.hardReset_out : s.hardReset.out = State.reset.out := rfl
@[simp] theorem State.hardReset_errCode : s.hardReset.errCode = State.reset.errCode := rfl
@[simp] theorem State.hardReset_errPhase : s.hardReset.errPhase = State.reset.errPhase := rfl
@[simp] theorem State.hardReset_errInfo : s.hardReset.errInfo = State.reset.errInfo := rfl
@[simp] theorem State.hardReset_collab : s.hardReset.collab = s.collab := rfl
@[simp] theorem State.hardReset_inputs : s.hardReset.inputs = s.inputs := rfl
@[simp] theorem State.hardReset_reply : s.hardReset.reply = none := rfl

@[simp] theorem State.reset_version : State.reset.version = 0 := rfl
@[simp] theorem State.reset_ecl : State.reset.ecl = 0 := rfl
@[simp] theorem State.reset_phase : State.reset.phase = .idle := rfl
@[simp] theorem State.reset_grid : State.reset.grid = planeFill Config.gmax .unset := rfl
@[simp] theorem State.reset_dflag : State.reset.dflag = planeFill Config.gmax false := rfl
@[simp] theorem State.reset_pay : State.reset.pay = [] := rfl
@[simp] theorem State.reset_nplaced : State.reset.nplaced = 0 := rfl
@[simp] theorem State.reset_incomplete : State.reset.incomplete = false := rfl
@[simp] theorem State.reset_mcnt : State.reset.mcnt = 0 := rfl
@[simp] theorem State.reset_minscore : State.reset.minscore = 0 := rfl
@[simp] theorem State.reset_best : State.reset.best = 0 := rfl
@[simp] theorem State.reset_fmtraw : State.reset.fmtraw = 0 := rfl
@[simp] theorem State.reset_fmtval : State.reset.fmtval = 0 := rfl
@[simp] theorem State.reset_fmtmask : State.reset.fmtmask = 0 := rfl
@[simp] theorem State.reset_fmtValid : State.reset.fmtValid = false := rfl
@[simp] theorem State.reset_out : State.reset.out = planeFill Config.omax .unset := rfl
@[simp] theorem State.reset_errCode : State.reset.errCode = .noFault := rfl
@[simp] theorem State.reset_errPhase : State.reset.errPhase = .idle := rfl
@[simp] theorem State.reset_errInfo : State.reset.errInfo = 0 := rfl
@[simp] theorem State.reset_collab : State.reset.collab = Collab.unknown := rfl
@[simp] theorem State.reset_inputs : State.reset.inputs = [] := rfl
@[simp] theorem State.reset_reply : State.reset.reply = none := rfl

/-! What the updates that write an array do to its elements. -/

@[simp] theorem State.cleared_cell (r c : Nat) : s.cleared.cell r c = .unset := by simp [State.cell]

@[simp] theorem State.cleared_flag (r c : Nat) : s.cleared.flag r c = false := by simp [State.flag]

theorem State.committed_cell (k : Nat) {r c : Nat} (hr : r < Config.gmax) (hc : c < Config.gmax) :
    (s.committed k).cell r c = if r < s.gs ∧ c < s.gs then s.candCell k r c else s.cell r c := by
  simp [State.cell, hr, hc]

theorem State.bordered_outCell {r c : Nat} (hr : r < Config.omax) (hc : c < Config.omax) :
    s.bordered.outCell r c = borderedCell s r c := by simp [State.outCell, hr, hc]

/-- Outside the physical array a read of `GRID` gives `Unset`. -/
theorem State.cell_out {r c : Nat} (h : Config.gmax ≤ r ∨ Config.gmax ≤ c) : s.cell r c = .unset := by
  rcases h with h | h
  · exact planeGet_row_out _ _ _ h
  · exact planeGet_col_out _ _ _ h

/-- Outside the physical array a read of `DFLAG` gives 0. -/
theorem State.flag_out {r c : Nat} (h : Config.gmax ≤ r ∨ Config.gmax ≤ c) : s.flag r c = false := by
  rcases h with h | h
  · exact planeGet_row_out _ _ _ h
  · exact planeGet_col_out _ _ _ h

end Sys2Proof.Machine
end

