-- ==== Sys2Proof/Laws/Ops.lean ====
section
/-! SUPPORT. Each shared operation, said once: the frame every command runs in, Overlay, fault entry. -/

namespace Sys2Proof.Machine

/-- Everything `runCommand` can answer. -/
theorem runCommand_cases {i : Instr} {body : State → Except ErrCode State} {s t : State}
    (h : runCommand i body s = .next t) :
    (s.phase = .fault ∧ t = s)
    ∨ (s.phase ≠ .fault ∧ legalIn i s.phase = false ∧ t = s.takeFault .sequence (encode i))
    ∨ (s.phase ≠ .fault ∧ legalIn i s.phase = true ∧ (usesGrid i = true → s.gs ≤ Config.gmax)
        ∧ (body s = .ok t ∨ ∃ f, body s = .error f ∧ t = s.takeFault f (encode i))) := by
  unfold runCommand at h
  split at h
  next hp => exact .inl ⟨hp, (by simpa using h.symm)⟩
  next hp =>
    split at h
    next hl => exact .inr (.inl ⟨hp, hl, by simpa using h.symm⟩)
    next hl =>
      split at h
      next hg => simp at h
      next hg =>
        have hu : usesGrid i = true → s.gs ≤ Config.gmax := fun hu => by
          by_contra hc; exact hg ⟨hu, by omega⟩
        refine .inr (.inr ⟨hp, by simpa using hl, hu, ?_⟩)
        split at h
        next u hb => exact .inl (by simpa using hb.trans (congrArg _ (by simpa using h)))
        next f hb => exact .inr ⟨f, hb, by simpa using h.symm⟩

/-- In `FAULT` the word is discarded (R282). -/
theorem runCommand_fault (i : Instr) (body : State → Except ErrCode State) {s : State} (h : s.phase = .fault) :
    runCommand i body s = .next s := by simp [runCommand, h]

/-- An unlisted command raises `Sequence` (R277). -/
theorem runCommand_sequence {i : Instr} (body : State → Except ErrCode State) {s : State} (h : s.phase ≠ .fault)
    (hl : legalIn i s.phase = false) : runCommand i body s = .next (s.takeFault .sequence (encode i)) := by
  simp [runCommand, h, hl]

/-- A legal command with its cells inside the arrays does what its rule says. -/
theorem runCommand_legal {i : Instr} (body : State → Except ErrCode State) {s : State} (h : s.phase ≠ .fault)
    (hl : legalIn i s.phase = true) (hg : usesGrid i = true → s.gs ≤ Config.gmax) :
    runCommand i body s =
      match body s with
      | .ok t => .next t
      | .error f => .next (s.takeFault f (encode i)) := by
  have : ¬(usesGrid i = true ∧ Config.gmax < s.gs) := fun ⟨a, b⟩ => by have := hg a; omega
  simp only [runCommand, h, hl, this, if_false]
  rfl

/-- The stop of `runCommand`: only in a state whose grid is larger than the arrays. -/
theorem runCommand_stops {i : Instr} {body : State → Except ErrCode State} {s : State} {f : Fault}
    (h : runCommand i body s = .fault f) : usesGrid i = true ∧ Config.gmax < s.gs ∧ legalIn i s.phase = true := by
  unfold runCommand at h
  split at h
  · simp at h
  · split at h
    · simp at h
    · split at h
      next hl hg => exact ⟨hg.1, hg.2, by simpa using hl⟩
      next => split at h <;> simp at h

theorem runCommand_not_refused {i : Instr} {body : State → Except ErrCode State} {s : State} {r : Refusal} :
    runCommand i body s ≠ .refused r := by
  unfold runCommand
  split
  · simp
  · split
    · simp
    · split
      · simp
      · split <;> simp

/-! ## Overlay -/

/-- The value the last triple of a list that names `(r, c)` gives it. -/
def lastAt (l : List Triple) (r c : Nat) : Option Cell :=
  l.foldl (fun acc t => if t.1.toNat = r ∧ t.2.1.toNat = c then some t.2.2 else acc) none

theorem lastAt_concat (l : List Triple) (t : Triple) (r c : Nat) :
    lastAt (l ++ [t]) r c = if t.1.toNat = r ∧ t.2.1.toNat = c then some t.2.2 else lastAt l r c := by
  simp [lastAt]

/-- A cell after the writes of a list: the last triple that names it decides (R134). -/
theorem planeGet_writeTriples (g : Plane Config.gmax Cell) (l : List Triple) (d : Cell) {r c : Nat}
    (hr : r < Config.gmax) (hc : c < Config.gmax) :
    planeGet (writeTriples g l) r c d = (lastAt l r c).getD (planeGet g r c d) := by
  induction l using List.reverseRecOn with
  | nil => rfl
  | append_singleton l t ih =>
    have e : writeTriples g (l ++ [t]) = planeSet (writeTriples g l) t.1.toNat t.2.1.toNat t.2.2 := by
      simp [writeTriples]
    rw [e, planeGet_set, ih, lastAt_concat]
    by_cases h : t.1.toNat = r ∧ t.2.1.toNat = c
    · obtain ⟨rfl, rfl⟩ := h
      simp [hr, hc]
    · have h' : ¬(r = t.1.toNat ∧ c = t.2.1.toNat ∧ t.1.toNat < Config.gmax ∧ t.2.1.toNat < Config.gmax) :=
        fun hh => h ⟨hh.1.symm, hh.2.1.symm⟩
      rw [if_neg h', if_neg h]

/-- Overlay succeeds exactly when every coordinate is in the grid, and then writes `GRID` alone. -/
theorem overlay_ok_iff {l : List Triple} {s t : State} :
    overlay l s = .ok t ↔
      (∀ x ∈ l, inGrid s.gs x.1 x.2.1 = true) ∧ t = { s with grid := writeTriples s.grid l } := by
  unfold overlay
  split
  next h =>
    simp only [List.all_eq_true] at h
    exact ⟨fun hh => ⟨h, (Except.ok.inj hh).symm⟩, fun hh => congrArg _ hh.2.symm⟩
  next h =>
    simp only [List.all_eq_true] at h
    constructor
    · simp
    · intro hh; exact absurd hh.1 h

theorem overlay_ok {l : List Triple} {s : State} (h : ∀ x ∈ l, inGrid s.gs x.1 x.2.1 = true) :
    overlay l s = .ok { s with grid := writeTriples s.grid l } := overlay_ok_iff.2 ⟨h, rfl⟩

/-- Overlay fails exactly when some coordinate is outside, always with the same fault. -/
theorem overlay_error_iff {l : List Triple} {s : State} {f : ErrCode} :
    overlay l s = .error f ↔ (∃ x ∈ l, inGrid s.gs x.1 x.2.1 = false) ∧ f = .overlayOutOfBounds := by
  unfold overlay
  split
  next h =>
    simp only [List.all_eq_true] at h
    constructor
    · simp
    · rintro ⟨⟨x, hx, hf⟩, -⟩; simp [h x hx] at hf
  next h =>
    have : ∃ x ∈ l, inGrid s.gs x.1 x.2.1 = false := by simpa using h
    exact ⟨fun hh => ⟨this, (Except.error.inj hh).symm⟩, fun hh => congrArg _ hh.2.symm⟩

theorem overlay_cell {l : List Triple} {s t : State} (h : overlay l s = .ok t) {r c : Nat}
    (hr : r < Config.gmax) (hc : c < Config.gmax) : t.cell r c = (lastAt l r c).getD (s.cell r c) := by
  obtain ⟨-, rfl⟩ := overlay_ok_iff.1 h
  exact planeGet_writeTriples _ _ _ hr hc

/-- `VERSION` in 1..6, value by value. -/
theorem versionSupported_iff (v : BitVec 4) : versionSupported v = true ↔ 1 ≤ v.toNat ∧ v.toNat ≤ 6 := by
  rw [versionSupported, Bool.and_eq_true, decide_eq_true_eq, decide_eq_true_eq]
  rfl

/-- The grid of a supported version fits the arrays (R8). -/
theorem gs_of_supported {s : State} (h : versionSupported s.version = true) : 21 ≤ s.gs ∧ s.gs ≤ Config.gmax := by
  have := (versionSupported_iff _).1 h
  simp only [State.gs, gridSize, Config.gmax]; omega

/-- The six grid sizes (R8, R25). -/
theorem gs_values {s : State} (h : versionSupported s.version = true) :
    s.gs = 21 ∨ s.gs = 25 ∨ s.gs = 29 ∨ s.gs = 33 ∨ s.gs = 37 ∨ s.gs = 41 := by
  have := (versionSupported_iff _).1 h
  simp only [State.gs, gridSize]; omega

end Sys2Proof.Machine
end

