-- ==== Sys2Proof/Laws/Exec.lean ====
section
/-! SUPPORT. What `exec` and `step` can do, said once: every command but RESET is a rule run in the one frame of R100, and a
step is one of five things. An invariant of the machine is then four small goals (`step_keeps`). -/

namespace Sys2Proof.Machine

/-- The rule each command runs in the frame; RESET has none of its own there. -/
def bodyOf : Instr → State → Except ErrCode State
  | .nop => fun s => .ok s
  | .reset => fun s => .ok s
  | .setcfg v e => setcfgBody v e
  | .payclr => fun s => .ok { s with pay := [] }
  | .paypush n data => paypushBody n data
  | .init => initBody
  | .ptiming => ptimingBody
  | .pfinder => fun s => overlayThen (finderTriples s.gs) .found s
  | .psep => fun s => overlayThen (separatorTriples s.gs) .sepd s
  | .pfmtrsv => fun s => overlayThen (reservationTriples s.gs) .rsvd s
  | .pverinfo => pverinfoBody
  | .place => placeBody
  | .meval => mevalBody
  | .mcommit => mcommitBody
  | .fmtenc m => fun s => .ok (s.formatted m false)
  | .fmtencw => fun s => .ok (s.formatted s.best true)
  | .fmtwrite => fmtwriteBody
  | .qzone => fun s => .ok s.bordered

theorem exec_eq_runCommand {i : Instr} (h : i ≠ .reset) (s : State) : exec i s = runCommand i (bodyOf i) s := by
  cases i <;> first | rfl | exact absurd rfl h

theorem exec_reset (s : State) : exec .reset s = .next s.resetBlock := rfl

theorem exec_not_refused {i : Instr} {s : State} {r : Refusal} : exec i s ≠ .refused r := by
  by_cases h : i = .reset
  · subst h; simp [exec_reset]
  · rw [exec_eq_runCommand h]; exact runCommand_not_refused

/-- Everything a command can answer as a next state. -/
theorem exec_cases {i : Instr} {s t : State} (h : exec i s = .next t) :
    (i = .reset ∧ t = s.resetBlock)
    ∨ (i ≠ .reset ∧ s.phase = .fault ∧ t = s)
    ∨ (i ≠ .reset ∧ s.phase ≠ .fault ∧ legalIn i s.phase = false ∧ t = s.takeFault .sequence (encode i))
    ∨ (i ≠ .reset ∧ s.phase ≠ .fault ∧ legalIn i s.phase = true ∧ (usesGrid i = true → s.gs ≤ Config.gmax)
        ∧ (bodyOf i s = .ok t ∨ ∃ f, bodyOf i s = .error f ∧ t = s.takeFault f (encode i))) := by
  by_cases hi : i = .reset
  · subst hi; exact .inl ⟨rfl, by simpa [exec_reset] using h.symm⟩
  · rw [exec_eq_runCommand hi] at h
    rcases runCommand_cases h with h | h | h
    · exact .inr (.inl ⟨hi, h⟩)
    · exact .inr (.inr (.inl ⟨hi, h⟩))
    · exact .inr (.inr (.inr ⟨hi, h⟩))

/-- A legal command, its cells inside the arrays, answers what its rule answers. -/
theorem exec_legal {i : Instr} {s : State} (hi : i ≠ .reset) (h : s.phase ≠ .fault) (hl : legalIn i s.phase = true)
    (hg : usesGrid i = true → s.gs ≤ Config.gmax) :
    exec i s =
      match bodyOf i s with
      | .ok t => .next t
      | .error f => .next (s.takeFault f (encode i)) :=
  (exec_eq_runCommand hi s).trans (runCommand_legal _ h hl hg)

theorem exec_of_ok {i : Instr} {s t : State} (hi : i ≠ .reset) (h : s.phase ≠ .fault) (hl : legalIn i s.phase = true)
    (hg : usesGrid i = true → s.gs ≤ Config.gmax) (hb : bodyOf i s = .ok t) : exec i s = .next t := by
  rw [exec_legal hi h hl hg, hb]

theorem exec_of_error {i : Instr} {s : State} {f : ErrCode} (hi : i ≠ .reset) (h : s.phase ≠ .fault)
    (hl : legalIn i s.phase = true) (hg : usesGrid i = true → s.gs ≤ Config.gmax) (hb : bodyOf i s = .error f) :
    exec i s = .next (s.takeFault f (encode i)) := by
  rw [exec_legal hi h hl hg, hb]

theorem exec_in_fault {i : Instr} {s : State} (hi : i ≠ .reset) (h : s.phase = .fault) : exec i s = .next s := by
  rw [exec_eq_runCommand hi, runCommand_fault _ _ h]

theorem exec_illegal {i : Instr} {s : State} (hi : i ≠ .reset) (h : s.phase ≠ .fault) (hl : legalIn i s.phase = false) :
    exec i s = .next (s.takeFault .sequence (encode i)) := by
  rw [exec_eq_runCommand hi, runCommand_sequence _ h hl]

/-- The only stop: a command over the grid, in its phase, with a grid larger than the arrays. -/
theorem exec_stops {i : Instr} {s : State} {f : Fault} (h : exec i s = .fault f) :
    usesGrid i = true ∧ Config.gmax < s.gs ∧ legalIn i s.phase = true := by
  by_cases hi : i = .reset
  · subst hi; cases h
  · rw [exec_eq_runCommand hi] at h; exact runCommand_stops h

/-- A command over the grid is legal only in a phase in which the arrays hold the symbol. -/
theorem matrixPhase_of_usesGrid {i : Instr} {p : Phase} (h : legalIn i p = true) (hu : usesGrid i = true) :
    matrixPhase p = true := by
  cases i <;> cases p <;> first | rfl | simp [legalIn, usesGrid] at h hu

/-- The table of R26 read by its rows and read by its commands agree. -/
theorem legalCommands_eq_legalIn (i : Instr) (p : Phase) : legalCommands p i = legalIn i p := by
  cases i <;> cases p <;> rfl

theorem sameItem_refl (x : Item) (s : State) : sameItem x s s := by cases x <;> rfl

/-- Fault entry writes its four items alone (R280). -/
theorem sameItem_takeFault {x : Item} (h : x ∉ faultWriteSet) (s : State) (f : ErrCode) (w : Word) :
    sameItem x s (s.takeFault f w) := by
  cases x <;> first | rfl | simp [faultWriteSet] at h

/-! ## The phase whose pass left the arrays as they are -/

theorem passPhase_of_ne {s : State} (h : s.phase ≠ .fault) : s.passPhase = s.phase := by
  unfold State.passPhase; rw [if_neg h]

@[simp] theorem passPhase_takeFault (s : State) (f : ErrCode) (w : Word) (h : s.phase ≠ .fault) :
    (s.takeFault f w).passPhase = s.passPhase := by simp [State.passPhase, h]

@[simp] theorem passPhase_resetBlock (s : State) : s.resetBlock.passPhase = .idle := rfl

theorem entersPhase_ne_fault {i : Instr} {p : Phase} (h : p ≠ .fault) : (entersPhase i).getD p ≠ .fault := by
  cases i <;> simp [entersPhase, h]

/-- Under the control invariant the grid of a built symbol fits the arrays (R42 item 7). -/
theorem gs_of_controlInv {s : State} (h : s.ControlInv) (hm : matrixPhase s.passPhase = true) :
    21 ≤ s.gs ∧ s.gs ≤ Config.gmax := gs_of_supported (h.1 hm)

theorem gridOk_iff {s : State} {r c : Nat} : gridOk s r c = true ↔
    (matrixPhase s.passPhase = true → s.gs ≤ r ∨ s.gs ≤ c → s.cell r c = .unset ∧ s.flag r c = false)
    ∧ (s.flag r c = true → cellIsColour (s.cell r c) = true ∧ c ≠ 6)
    ∧ (beforePlacement s.passPhase = true → s.flag r c = false) := by
  simp only [gridOk, Bool.and_eq_true, decide_eq_true_eq, and_assoc]

/-! ## What each rule does when it does not fault -/

theorem overlayThen_ok {l : List Triple} {p : Phase} {s : State} (h : ∀ x ∈ l, inGrid s.gs x.1 x.2.1 = true) :
    overlayThen l p s = .ok { s with grid := writeTriples s.grid l, phase := p } := by
  rw [overlayThen, overlay_ok h]; rfl

theorem overlayThen_ok_iff {l : List Triple} {p : Phase} {s t : State} :
    overlayThen l p s = .ok t ↔
      (∀ x ∈ l, inGrid s.gs x.1 x.2.1 = true) ∧ t = { s with grid := writeTriples s.grid l, phase := p } := by
  constructor
  · intro h
    unfold overlayThen at h
    split at h
    · simp at h
    next u hu =>
      obtain ⟨h1, rfl⟩ := overlay_ok_iff.1 hu
      exact ⟨h1, (Except.ok.inj h).symm⟩
  · rintro ⟨h1, rfl⟩
    exact overlayThen_ok h1

theorem overlayThen_error {l : List Triple} {p : Phase} {s : State} {f : ErrCode} (h : overlayThen l p s = .error f) :
    f = .overlayOutOfBounds := by
  unfold overlayThen at h
  split at h
  next e he => exact (Except.error.inj h) ▸ (overlay_error_iff.1 he).2
  · simp at h

theorem writeTriples_append (g : Plane Config.gmax Cell) (a b : List Triple) :
    writeTriples g (a ++ b) = writeTriples (writeTriples g a) b := by simp [writeTriples]

/-- PTIMING's two overlays are one overlay of both lists: the second check reads the same `gs`. -/
theorem ptimingBody_eq (s : State) : ptimingBody s = overlayThen (timingRow s.gs ++ timingColumn s.gs) .timed s := by
  unfold ptimingBody
  by_cases h1 : ∀ x ∈ timingRow s.gs, inGrid s.gs x.1 x.2.1 = true
  · rw [overlay_ok h1]
    dsimp only
    by_cases h2 : ∀ x ∈ timingColumn s.gs, inGrid s.gs x.1 x.2.1 = true
    · have h3 : ∀ x ∈ timingRow s.gs ++ timingColumn s.gs, inGrid s.gs x.1 x.2.1 = true :=
        fun x hx => (List.mem_append.1 hx).elim (h1 x) (h2 x)
      rw [overlayThen_ok h3, overlay_ok (s := { s with grid := writeTriples s.grid (timingRow s.gs) }) h2,
        writeTriples_append]
      rfl
    · have h2' : ∃ x ∈ timingColumn s.gs, inGrid s.gs x.1 x.2.1 = false := by simpa using h2
      obtain ⟨x, hx, hf⟩ := h2'
      have e1 := (overlay_error_iff (l := timingColumn s.gs) (s := { s with grid := writeTriples s.grid (timingRow s.gs) })).2
        ⟨⟨x, hx, hf⟩, rfl⟩
      have e2 := (overlay_error_iff (l := timingRow s.gs ++ timingColumn s.gs) (s := s)).2
        ⟨⟨x, List.mem_append.2 (.inr hx), hf⟩, rfl⟩
      rw [overlayThen, e1, e2]
  · have h1' : ∃ x ∈ timingRow s.gs, inGrid s.gs x.1 x.2.1 = false := by simpa using h1
    obtain ⟨x, hx, hf⟩ := h1'
    have e1 := (overlay_error_iff (l := timingRow s.gs) (s := s)).2 ⟨⟨x, hx, hf⟩, rfl⟩
    have e2 := (overlay_error_iff (l := timingRow s.gs ++ timingColumn s.gs) (s := s)).2
      ⟨⟨x, List.mem_append.2 (.inl hx), hf⟩, rfl⟩
    rw [overlayThen, e1, e2]

theorem paypushBody_ok_iff {n : BitVec 5} {data : BitVec 16} {s t : State} :
    paypushBody n data s = .ok t ↔ pushRefused n data s.payLen = false ∧ t = { s with pay := s.pay ++ pushedBits n data } := by
  unfold paypushBody
  cases hr : pushRefused n data s.payLen
  · exact ⟨fun h => ⟨rfl, (Except.ok.inj h).symm⟩, fun h => by rw [h.2]; rfl⟩
  · simp

theorem initBody_ok_iff {s t : State} : initBody s = .ok t ↔ versionSupported s.version = true ∧ t = s.cleared := by
  unfold initBody
  cases hv : versionSupported s.version
  · simp
  · exact ⟨fun h => ⟨rfl, (Except.ok.inj h).symm⟩, fun h => by rw [h.2]; rfl⟩

theorem pverinfoBody_ok_iff {s t : State} :
    pverinfoBody s = .ok t ↔ s.version.toNat ≤ 6 ∧ t = { s with phase := .patterned } := by
  unfold pverinfoBody versionInfo
  split
  next f hf =>
    have : 7 ≤ s.version.toNat := by by_contra hc; simp [hc] at hf
    constructor
    · simp
    · rintro ⟨h, -⟩; omega
  next l hl =>
    have hv : ¬ 7 ≤ s.version.toNat := by intro hc; simp [hc] at hl
    have hl' : l = [] := by simpa [hv, eq_comm] using hl
    subst hl'
    rw [overlayThen_ok_iff]
    constructor
    · rintro ⟨-, rfl⟩; exact ⟨by omega, rfl⟩
    · rintro ⟨-, rfl⟩; exact ⟨by simp, rfl⟩

theorem placeBody_ok_iff {s t : State} :
    placeBody s = .ok t ↔ s.payLen ≤ (freeCells s).length ∧ t = s.placedBits := by
  unfold placeBody
  split
  next h => constructor
            · simp
            · rintro ⟨h', -⟩; omega
  next h => exact ⟨fun hh => ⟨by omega, (Except.ok.inj hh).symm⟩, fun hh => by rw [hh.2]⟩

theorem mevalBody_ok_iff {s t : State} :
    mevalBody s = .ok t ↔
      ∃ (h : s.mcnt.val < 8) (v : BitVec 32), s.candScore s.mcnt.val = some v ∧ t = s.scored v ⟨s.mcnt.val + 1, by omega⟩ := by
  unfold mevalBody
  constructor
  · intro h
    split at h
    next hm =>
      split at h
      · simp at h
      next v hv => exact ⟨hm, v, hv, (Except.ok.inj h).symm⟩
    · simp at h
  · rintro ⟨hm, v, hv, rfl⟩
    simp [hm, hv]

theorem mcommitBody_ok_iff {s t : State} :
    mcommitBody s = .ok t ↔
      s.mcnt.val = 8 ∧ s.maskErr s.best.toNat = false ∧ t = s.committed s.best.toNat := by
  unfold mcommitBody
  constructor
  · intro h
    split at h
    · simp at h
    next hm =>
      split at h
      · simp at h
      next he => exact ⟨by simpa using hm, by simpa using he, (Except.ok.inj h).symm⟩
  · rintro ⟨hm, he, rfl⟩
    simp [hm, he]

theorem fmtwriteBody_eq {s : State} (h : s.fmtValid = true) :
    fmtwriteBody s = overlayThen (formatTriples s) .fmtWritten s := by
  unfold fmtwriteBody overlayThen
  exact if_neg (by simp [h])

theorem fmtwriteBody_ok_iff {s t : State} :
    fmtwriteBody s = .ok t ↔
      s.fmtValid = true ∧ (∀ x ∈ formatTriples s, inGrid s.gs x.1 x.2.1 = true)
      ∧ t = { s with grid := writeTriples s.grid (formatTriples s), phase := .fmtWritten } := by
  by_cases hv : s.fmtValid = true
  · rw [fmtwriteBody_eq hv, overlayThen_ok_iff]
    exact ⟨fun h => ⟨hv, h⟩, fun h => h.2⟩
  · simp [fmtwriteBody, hv]

/-- What a rule does when it does not fault: only its write set, its phase, and none of the model's own fields (R26, R41). -/
def FrameOf (i : Instr) (s t : State) : Prop :=
  (∀ x, x ∉ writeSet i → sameItem x s t) ∧ t.phase = (entersPhase i).getD s.phase
  ∧ t.collab = s.collab ∧ t.inputs = s.inputs ∧ t.reply = s.reply

theorem bodyOf_frame {i : Instr} {s t : State} (hi : i ≠ .reset) (h : bodyOf i s = .ok t) : FrameOf i s t := by
  cases i with
  | reset => exact absurd rfl hi
  | nop =>
    obtain rfl := Except.ok.inj h
    exact ⟨fun x hx => by cases x <;> rfl, rfl, rfl, rfl, rfl⟩
  | setcfg v e =>
    obtain rfl := Except.ok.inj h
    exact ⟨fun x hx => by cases x <;> first | rfl | exact absurd (by simp [writeSet]) hx, rfl, rfl, rfl, rfl⟩
  | payclr =>
    obtain rfl := Except.ok.inj h
    exact ⟨fun x hx => by cases x <;> first | rfl | exact absurd (by simp [writeSet]) hx, rfl, rfl, rfl, rfl⟩
  | paypush n data =>
    obtain ⟨-, rfl⟩ := paypushBody_ok_iff.1 h
    exact ⟨fun x hx => by cases x <;> first | rfl | exact absurd (by simp [writeSet]) hx, rfl, rfl, rfl, rfl⟩
  | init =>
    obtain ⟨-, rfl⟩ := initBody_ok_iff.1 h
    exact ⟨fun x hx => by cases x <;> first | (simp [sameItem]; done) | simp [writeSet] at hx, by simp [entersPhase],
      by simp, by simp, by simp⟩
  | ptiming =>
    obtain ⟨-, rfl⟩ := overlayThen_ok_iff.1 ((ptimingBody_eq s).symm.trans h)
    exact ⟨fun x hx => by cases x <;> first | rfl | exact absurd (by simp [writeSet]) hx, rfl, rfl, rfl, rfl⟩
  | pfinder =>
    obtain ⟨-, rfl⟩ := overlayThen_ok_iff.1 h
    exact ⟨fun x hx => by cases x <;> first | rfl | exact absurd (by simp [writeSet]) hx, rfl, rfl, rfl, rfl⟩
  | psep =>
    obtain ⟨-, rfl⟩ := overlayThen_ok_iff.1 h
    exact ⟨fun x hx => by cases x <;> first | rfl | exact absurd (by simp [writeSet]) hx, rfl, rfl, rfl, rfl⟩
  | pfmtrsv =>
    obtain ⟨-, rfl⟩ := overlayThen_ok_iff.1 h
    exact ⟨fun x hx => by cases x <;> first | rfl | exact absurd (by simp [writeSet]) hx, rfl, rfl, rfl, rfl⟩
  | pverinfo =>
    obtain ⟨-, rfl⟩ := pverinfoBody_ok_iff.1 h
    exact ⟨fun x hx => by cases x <;> first | rfl | exact absurd (by simp [writeSet]) hx, rfl, rfl, rfl, rfl⟩
  | place =>
    obtain ⟨-, rfl⟩ := placeBody_ok_iff.1 h
    exact ⟨fun x hx => by cases x <;> first | (simp [sameItem]; done) | simp [writeSet] at hx, by simp [entersPhase],
      by simp, by simp, by simp⟩
  | meval =>
    obtain ⟨-, v, -, rfl⟩ := mevalBody_ok_iff.1 h
    exact ⟨fun x hx => by cases x <;> first | (simp [sameItem]; done) | simp [writeSet] at hx, by simp [entersPhase],
      by simp, by simp, by simp⟩
  | mcommit =>
    obtain ⟨-, -, rfl⟩ := mcommitBody_ok_iff.1 h
    exact ⟨fun x hx => by cases x <;> first | (simp [sameItem]; done) | simp [writeSet] at hx, by simp [entersPhase],
      by simp, by simp, by simp⟩
  | fmtenc m =>
    obtain rfl := Except.ok.inj h
    exact ⟨fun x hx => by cases x <;> first | (simp [sameItem]; done) | simp [writeSet] at hx, by simp [entersPhase],
      by simp, by simp, by simp⟩
  | fmtencw =>
    obtain rfl := Except.ok.inj h
    exact ⟨fun x hx => by cases x <;> first | (simp [sameItem]; done) | simp [writeSet] at hx, by simp [entersPhase],
      by simp, by simp, by simp⟩
  | fmtwrite =>
    obtain ⟨-, -, rfl⟩ := fmtwriteBody_ok_iff.1 h
    exact ⟨fun x hx => by cases x <;> first | rfl | exact absurd (by simp [writeSet]) hx, rfl, rfl, rfl, rfl⟩
  | qzone =>
    obtain rfl := Except.ok.inj h
    exact ⟨fun x hx => by cases x <;> first | (simp [sameItem]; done) | simp [writeSet] at hx, by simp [entersPhase],
      by simp, by simp, by simp⟩

/-- The fault a rule raises, by command (R270, column "raised by"). -/
theorem bodyOf_error {i : Instr} {s : State} {f : ErrCode} (h : bodyOf i s = .error f) :
    f = .operand ∨ f = .unsupportedVersion ∨ f = .overlayOutOfBounds ∨ f = .payloadTooLong ∨ f = .sequence
      ∨ f = .collaborator := by
  cases i with
  | nop => cases h
  | reset => cases h
  | setcfg v e => cases h
  | payclr => cases h
  | paypush n data =>
    change paypushBody n data s = _ at h
    unfold paypushBody at h
    split at h
    · exact .inl (Except.error.inj h).symm
    · cases h
  | init =>
    change initBody s = _ at h
    unfold initBody at h
    split at h
    · cases h
    · exact .inr (.inl (Except.error.inj h).symm)
  | ptiming => exact .inr (.inr (.inl (overlayThen_error ((ptimingBody_eq s).symm.trans h))))
  | pfinder => exact .inr (.inr (.inl (overlayThen_error h)))
  | psep => exact .inr (.inr (.inl (overlayThen_error h)))
  | pfmtrsv => exact .inr (.inr (.inl (overlayThen_error h)))
  | pverinfo =>
    change pverinfoBody s = _ at h
    unfold pverinfoBody versionInfo at h
    split at h
    next e he =>
      split at he
      · exact .inr (.inl ((Except.error.inj h).symm.trans (Except.error.inj he).symm))
      · cases he
    · exact .inr (.inr (.inl (overlayThen_error h)))
  | place =>
    change placeBody s = _ at h
    unfold placeBody at h
    split at h
    · exact .inr (.inr (.inr (.inl (Except.error.inj h).symm)))
    · cases h
  | meval =>
    change mevalBody s = _ at h
    unfold mevalBody at h
    split at h
    · split at h
      · exact .inr (.inr (.inr (.inr (.inr (Except.error.inj h).symm))))
      · cases h
    · exact .inr (.inr (.inr (.inr (.inl (Except.error.inj h).symm))))
  | mcommit =>
    change mcommitBody s = _ at h
    unfold mcommitBody at h
    split at h
    · exact .inr (.inr (.inr (.inr (.inl (Except.error.inj h).symm))))
    · split at h
      · exact .inr (.inr (.inr (.inr (.inr (Except.error.inj h).symm))))
      · cases h
  | fmtenc m => cases h
  | fmtencw => cases h
  | fmtwrite =>
    change fmtwriteBody s = _ at h
    cases hv : s.fmtValid
    · simp only [fmtwriteBody, hv, if_true] at h
      exact .inr (.inr (.inr (.inr (.inl (Except.error.inj h).symm))))
    · rw [fmtwriteBody_eq hv] at h
      exact .inr (.inr (.inl (overlayThen_error h)))
  | qzone => cases h

theorem bodyOf_error_ne {i : Instr} {s : State} {f : ErrCode} (h : bodyOf i s = .error f) :
    f ≠ .noFault ∧ f ≠ .nonSquareMatrix ∧ f ≠ .illegalCommand := by
  rcases bodyOf_error h with rfl | rfl | rfl | rfl | rfl | rfl <;> decide

/-! ## Steps -/

/-- What executing a command word can answer as a next state (R100). -/
theorem executeWord_cases {w : Word} {s t : State} (h : executeWord w s = .next t) :
    ((∃ e, decode w = .error e) ∧ s.phase = .fault ∧ t = s)
    ∨ ((∃ e, decode w = .error e) ∧ s.phase ≠ .fault ∧ t = s.takeFault .illegalCommand w)
    ∨ ∃ i, decode w = .ok i ∧ exec i s = .next t := by
  unfold executeWord at h
  split at h
  next i hi => exact .inr (.inr ⟨i, hi, h⟩)
  next e he =>
    unfold illegalWord at h
    split at h
    next hp => exact .inl ⟨⟨e, he⟩, hp, by simpa using h.symm⟩
    next hp => exact .inr (.inl ⟨⟨e, he⟩, hp, by simpa using h.symm⟩)

/-- Everything a step can do: wait, take the reset input, answer an access that is no command, or execute a command word. -/
theorem step_cases {s t : State} (h : step s = .next t) :
    (s.inputs = [] ∧ t = s)
    ∨ (∃ rest, s.inputs = .resetPin :: rest ∧ t = (s.taken rest).hardReset)
    ∨ (∃ a rest r, s.inputs = .access a :: rest ∧ t = (s.taken rest).answer r)
    ∨ (∃ w rest u, s.inputs = commandInput w :: rest ∧ executeWord w (s.taken rest) = .next u ∧ t = u.answer .ack) := by
  unfold step nextWork at h
  cases hs : s.inputs with
  | nil => rw [hs] at h; exact .inl ⟨rfl, by simpa using h.symm⟩
  | cons x rest =>
    rw [hs] at h
    cases x with
    | resetPin => exact .inr (.inl ⟨rest, rfl, by simpa using h.symm⟩)
    | access a =>
      cases a with
      | read bytes addr =>
        refine .inr (.inr (.inl ?_))
        have ht : t = readAccess bytes addr (s.taken rest) := by simpa using h.symm
        unfold readAccess at ht
        split at ht
        · exact ⟨_, _, _, rfl, ht⟩
        · exact ⟨_, _, _, rfl, ht⟩
      | write bytes addr w =>
        by_cases hc : bytes = 4 ∧ addr = cmdAddr
        · obtain ⟨rfl, rfl⟩ := hc
          refine .inr (.inr (.inr ⟨w, rest, ?_⟩))
          simp only [and_self, if_true] at h
          cases hx : executeWord w (s.taken rest) with
          | next u => rw [hx] at h; exact ⟨u, rfl, rfl, by simpa [acknowledge] using h.symm⟩
          | fault f => rw [hx] at h; simp [acknowledge] at h
          | refused r => rw [hx] at h; simp [acknowledge] at h
        · simp only [hc, if_false] at h
          exact .inr (.inr (.inl ⟨_, _, _, rfl, by simpa using h.symm⟩))

/-- An invariant of the block in four goals: it does not speak of the model's bus fields, it holds after a reset, fault entry
keeps it, and the rule of every command keeps it. -/
theorem step_keeps {P : State → Prop}
    (hio : ∀ (s : State) (rest : List Input) (x : Option Reply), P s → P { s with inputs := rest, reply := x })
    (hreset : ∀ s : State, P s → P s.resetBlock)
    (hfault : ∀ (s : State) (f : ErrCode) (w : Word), P s → s.phase ≠ .fault → f ≠ .noFault → f ≠ .nonSquareMatrix →
      P (s.takeFault f w))
    (hbody : ∀ (i : Instr) (s t : State), P s → i ≠ .reset → s.phase ≠ .fault → legalIn i s.phase = true →
      (usesGrid i = true → s.gs ≤ Config.gmax) → bodyOf i s = .ok t → P t)
    {s t : State} (hs : P s) (h : step s = .next t) : P t := by
  have io1 : ∀ (s : State) rest, P s → P (s.taken rest) := fun s rest h => hio s rest s.reply h
  have io2 : ∀ (s : State) r, P s → P (s.answer r) := fun s r h => hio s s.inputs (some r) h
  rcases step_cases h with ⟨-, rfl⟩ | ⟨rest, -, rfl⟩ | ⟨a, rest, r, -, rfl⟩ | ⟨w, rest, u, -, hu, rfl⟩
  · exact hs
  · exact hio _ _ none (hreset _ (io1 s rest hs))
  · exact io2 _ _ (io1 s rest hs)
  · apply io2
    have hs' := io1 s rest hs
    rcases executeWord_cases hu with ⟨-, -, rfl⟩ | ⟨-, hp, rfl⟩ | ⟨i, -, hx⟩
    · exact hs'
    · exact hfault _ _ _ hs' hp (by decide) (by decide)
    · rcases exec_cases hx with ⟨-, rfl⟩ | ⟨-, -, rfl⟩ | ⟨-, hp, -, rfl⟩ | ⟨hi, hp, hl, hg, hb | ⟨f, hf, rfl⟩⟩
      · exact hreset _ hs'
      · exact hs'
      · exact hfault _ _ _ hs' hp (by decide) (by decide)
      · exact hbody i _ _ hs' hi hp hl hg hb
      · exact hfault _ _ _ hs' hp (bodyOf_error_ne hf).1 (bodyOf_error_ne hf).2.1

end Sys2Proof.Machine
end

