-- ==== Sys2Proof/Laws/Pattern.lean ====
section
/-! SUPPORT. What each fixed pass and FMTWRITE's list write at a coordinate (41_pattern_placer.md, 44_format_info.md). -/

namespace Sys2Proof.Machine

theorem mem_span {a b x : Int} : x ∈ span a b ↔ a ≤ x ∧ x ≤ b := by
  simp only [span, List.mem_map, List.mem_range]
  constructor
  · rintro ⟨k, hk, rfl⟩; omega
  · rintro ⟨h1, h2⟩; exact ⟨(x - a).toNat, by omega, by omega⟩

/-! ## The last triple that names a coordinate -/

theorem lastAt_append (a b : List Triple) (r c : Nat) : lastAt (a ++ b) r c = (lastAt b r c).or (lastAt a r c) := by
  induction b using List.reverseRecOn with
  | nil => simp [lastAt]
  | append_singleton b t ih =>
    rw [← List.append_assoc, lastAt_concat, lastAt_concat, ih]
    split <;> simp

theorem lastAt_none {l : List Triple} {r c : Nat} (h : ∀ x ∈ l, ¬(x.1.toNat = r ∧ x.2.1.toNat = c)) : lastAt l r c = none := by
  induction l using List.reverseRecOn with
  | nil => rfl
  | append_singleton l t ih =>
    rw [lastAt_concat, if_neg (h t (by simp)), ih fun x hx => h x (by simp [hx])]

/-- All triples that name the coordinate agree on the value, and one of them does name it. -/
theorem lastAt_some {l : List Triple} {r c : Nat} {v : Cell} (h : ∀ x ∈ l, x.1.toNat = r ∧ x.2.1.toNat = c → x.2.2 = v)
    (hx : ∃ x ∈ l, x.1.toNat = r ∧ x.2.1.toNat = c) : lastAt l r c = some v := by
  induction l using List.reverseRecOn with
  | nil => simp at hx
  | append_singleton l t ih =>
    rw [lastAt_concat]
    by_cases ht : t.1.toNat = r ∧ t.2.1.toNat = c
    · rw [if_pos ht, h t (by simp) ht]
    · rw [if_neg ht]
      refine ih (fun x hx => h x (by simp [hx])) ?_
      obtain ⟨x, hx, hn⟩ := hx
      rcases List.mem_append.1 hx with hx | hx
      · exact ⟨x, hx, hn⟩
      · obtain rfl := List.mem_singleton.1 hx
        exact absurd hn ht

/-- A run of cells in one row. -/
theorem lastAt_row {a b : Int} (ha : 0 ≤ a) (f : Int → Cell) (row : Nat) (r c : Nat) :
    lastAt ((span a b).map fun x => ((row : Int), x, f x)) r c = if r = row ∧ a ≤ c ∧ (c : Int) ≤ b then some (f c) else none := by
  split
  next h =>
    obtain ⟨rfl, h1, h2⟩ := h
    refine lastAt_some ?_ ⟨((r : Int), (c : Int), f c), List.mem_map.2 ⟨c, mem_span.2 ⟨h1, h2⟩, rfl⟩, by simp⟩
    intro x hx hn
    obtain ⟨y, hy, rfl⟩ := List.mem_map.1 hx
    have : y = c := by have := mem_span.1 hy; have := hn.2; simp only at this; omega
    rw [this]
  next h =>
    refine lastAt_none fun x hx hn => h ?_
    obtain ⟨y, hy, rfl⟩ := List.mem_map.1 hx
    have h1 := mem_span.1 hy
    simp only [Int.toNat_natCast] at hn
    omega

/-- A run of cells in one column. -/
theorem lastAt_col {a b : Int} (ha : 0 ≤ a) (f : Int → Cell) (col : Nat) (r c : Nat) :
    lastAt ((span a b).map fun x => (x, (col : Int), f x)) r c = if c = col ∧ a ≤ r ∧ (r : Int) ≤ b then some (f r) else none := by
  split
  next h =>
    obtain ⟨rfl, h1, h2⟩ := h
    refine lastAt_some ?_ ⟨((r : Int), (c : Int), f r), List.mem_map.2 ⟨r, mem_span.2 ⟨h1, h2⟩, rfl⟩, by simp⟩
    intro x hx hn
    obtain ⟨y, hy, rfl⟩ := List.mem_map.1 hx
    have : y = r := by have := mem_span.1 hy; have := hn.1; simp only at this; omega
    rw [this]
  next h =>
    refine lastAt_none fun x hx hn => h ?_
    obtain ⟨y, hy, rfl⟩ := List.mem_map.1 hx
    have h1 := mem_span.1 hy
    simp only [Int.toNat_natCast] at hn
    omega

/-- The rule of an overlay command, cell by cell. -/
theorem overlayThen_cells {l : List Triple} {p : Phase} {s : State} (h : ∀ x ∈ l, inGrid s.gs x.1 x.2.1 = true) :
    ∃ t, overlayThen l p s = .ok t ∧ t = { s with grid := t.grid, phase := p }
      ∧ ∀ r < Config.gmax, ∀ c < Config.gmax, t.cell r c = (lastAt l r c).getD (s.cell r c) := by
  refine ⟨_, overlayThen_ok h, rfl, fun r hr c hc => ?_⟩
  exact planeGet_writeTriples _ _ _ hr hc

theorem inGrid_iff {gs : Nat} {r c : Int} : inGrid gs r c = true ↔ 0 ≤ r ∧ r < gs ∧ 0 ≤ c ∧ c < gs := by
  simp only [inGrid, Bool.and_eq_true, decide_eq_true_eq]; tauto

/-! ## The timing pass -/

theorem timing_inGrid {gs : Nat} (hg : 7 ≤ gs) : ∀ x ∈ timingRow gs ++ timingColumn gs, inGrid gs x.1 x.2.1 = true := by
  intro x hx
  rw [inGrid_iff]
  rcases List.mem_append.1 hx with hx | hx
  · obtain ⟨y, hy, rfl⟩ := List.mem_map.1 hx
    have := mem_span.1 hy; dsimp only; omega
  · obtain ⟨y, hy, rfl⟩ := List.mem_map.1 hx
    have := mem_span.1 hy; dsimp only; omega

theorem timing_lastAt (gs r c : Nat) :
    lastAt (timingRow gs ++ timingColumn gs) r c =
      if r < gs ∧ c = 6 then some (timing r) else if r = 6 ∧ c < gs then some (timing c) else none := by
  have h1 := lastAt_row (a := 0) (b := (gs : Int) - 1) le_rfl timing 6 r c
  have h2 := lastAt_col (a := 0) (b := (gs : Int) - 1) le_rfl timing 6 r c
  rw [lastAt_append]
  change (lastAt ((span 0 ((gs : Int) - 1)).map fun x => (x, ((6 : Nat) : Int), timing x)) r c).or
    (lastAt ((span 0 ((gs : Int) - 1)).map fun x => (((6 : Nat) : Int), x, timing x)) r c) = _
  rw [h1, h2]
  by_cases ha : r < gs ∧ c = 6
  · have : c = 6 ∧ (0 : Int) ≤ r ∧ (r : Int) ≤ (gs : Int) - 1 := by omega
    simp [ha, this]
  · have : ¬(c = 6 ∧ (0 : Int) ≤ r ∧ (r : Int) ≤ (gs : Int) - 1) := by omega
    rw [if_neg ha, if_neg this]
    by_cases hb : r = 6 ∧ c < gs
    · have : r = 6 ∧ (0 : Int) ≤ c ∧ (c : Int) ≤ (gs : Int) - 1 := by omega
      rw [if_pos hb, if_pos this]; rfl
    · have : ¬(r = 6 ∧ (0 : Int) ≤ c ∧ (c : Int) ≤ (gs : Int) - 1) := by omega
      rw [if_neg hb, if_neg this]; rfl

/-! ## The finder pass -/

theorem mem_finderTriples {gs : Nat} {x : Triple} :
    x ∈ finderTriples gs ↔ ∃ corner ∈ finderCorners gs, ∃ r c : Int, -1 ≤ r ∧ r ≤ 6 ∧ -1 ≤ c ∧ c ≤ 6
      ∧ inGrid gs (corner.1 + r) (corner.2 + c) = true ∧ x = (corner.1 + r, corner.2 + c, finder r c) := by
  simp only [finderTriples, finderWindow, List.mem_flatMap, List.mem_map, List.mem_filter, mem_span]
  constructor
  · rintro ⟨k, hk, r, ⟨h1, h2⟩, c, ⟨⟨h3, h4⟩, h5⟩, rfl⟩
    exact ⟨k, hk, r, c, h1, h2, h3, h4, h5, rfl⟩
  · rintro ⟨k, hk, r, c, h1, h2, h3, h4, h5, rfl⟩
    exact ⟨k, hk, r, ⟨h1, h2⟩, c, ⟨⟨h3, h4⟩, h5⟩, rfl⟩

theorem finder_inGrid {gs : Nat} : ∀ x ∈ finderTriples gs, inGrid gs x.1 x.2.1 = true := by
  intro x hx
  obtain ⟨k, -, r, c, -, -, -, -, h, rfl⟩ := mem_finderTriples.1 hx
  exact h

/-- Which finder window covers a coordinate, and with which value (R156). -/
theorem finder_lastAt {gs r c : Nat} (hg : 16 ≤ gs) (hr : r < gs) (hc : c < gs) (d : Cell) :
    (lastAt (finderTriples gs) r c).getD d = foundCell gs d r c := by
  unfold foundCell
  have key : ∀ x ∈ finderTriples gs, x.1.toNat = r ∧ x.2.1.toNat = c →
      ∃ corner ∈ finderCorners gs, x.2.2 = finder ((r : Int) - corner.1) ((c : Int) - corner.2)
        ∧ -1 ≤ (r : Int) - corner.1 ∧ (r : Int) - corner.1 ≤ 6 ∧ -1 ≤ (c : Int) - corner.2 ∧ (c : Int) - corner.2 ≤ 6 := by
    intro x hx hn
    obtain ⟨k, hk, r', c', h1, h2, h3, h4, h5, rfl⟩ := mem_finderTriples.1 hx
    rw [inGrid_iff] at h5
    dsimp only at hn
    refine ⟨k, hk, ?_, by omega, by omega, by omega, by omega⟩
    have e1 : (r : Int) - k.1 = r' := by omega
    have e2 : (c : Int) - k.2 = c' := by omega
    rw [e1, e2]
  have wit : ∀ corner ∈ finderCorners gs, -1 ≤ (r : Int) - corner.1 → (r : Int) - corner.1 ≤ 6 → -1 ≤ (c : Int) - corner.2 →
      (c : Int) - corner.2 ≤ 6 → ∃ x ∈ finderTriples gs, x.1.toNat = r ∧ x.2.1.toNat = c := by
    intro k hk h1 h2 h3 h4
    refine ⟨(k.1 + (r - k.1), k.2 + (c - k.2), finder (r - k.1) (c - k.2)), ?_, by dsimp only; omega, by dsimp only; omega⟩
    exact mem_finderTriples.2 ⟨k, hk, _, _, h1, h2, h3, h4, by rw [inGrid_iff]; omega, rfl⟩
  simp only [finderCorners, List.mem_cons, List.not_mem_nil, or_false] at key wit
  split
  next h =>
    rw [lastAt_some (v := finder r c) ?_ (wit (0, 0) (by simp) (by dsimp only; omega) (by dsimp only; omega) (by dsimp only; omega)
      (by dsimp only; omega))]
    · rfl
    · intro x hx hn
      obtain ⟨k, rfl | rfl | rfl, hv, h1, h2, h3, h4⟩ := key x hx hn
      · simpa using hv
      · dsimp only at *; omega
      · dsimp only at *; omega
  next h =>
    split
    next h' =>
      rw [lastAt_some (v := finder ((r : Int) - ((gs : Int) - 7)) c) ?_ (wit ((gs : Int) - 7, 0) (by simp) (by dsimp only; omega)
        (by dsimp only; omega) (by dsimp only; omega) (by dsimp only; omega))]
      · rfl
      · intro x hx hn
        obtain ⟨k, rfl | rfl | rfl, hv, h1, h2, h3, h4⟩ := key x hx hn
        · dsimp only at *; omega
        · simpa using hv
        · dsimp only at *; omega
    next h' =>
      split
      next h'' =>
        rw [lastAt_some (v := finder r ((c : Int) - ((gs : Int) - 7))) ?_ (wit (0, (gs : Int) - 7) (by simp)
          (by dsimp only; omega) (by dsimp only; omega) (by dsimp only; omega) (by dsimp only; omega))]
        · rfl
        · intro x hx hn
          obtain ⟨k, rfl | rfl | rfl, hv, h1, h2, h3, h4⟩ := key x hx hn
          · dsimp only at *; omega
          · dsimp only at *; omega
          · simpa using hv
      next h'' =>
        rw [lastAt_none]
        · rfl
        intro x hx hn
        obtain ⟨k, rfl | rfl | rfl, hv, h1, h2, h3, h4⟩ := key x hx hn <;> (dsimp only at *; omega)

/-! ## The separator pass -/

theorem mem_separatorTriples {gs : Nat} {x : Triple} :
    x ∈ separatorTriples gs ↔ x.2.2 = .white ∧
      ((x.1 = 7 ∧ 0 ≤ x.2.1 ∧ x.2.1 ≤ 7) ∨ (x.2.1 = 7 ∧ 0 ≤ x.1 ∧ x.1 ≤ 7)
        ∨ (x.1 = 7 ∧ (gs : Int) - 8 ≤ x.2.1 ∧ x.2.1 ≤ (gs : Int) - 1)
        ∨ (x.2.1 = (gs : Int) - 8 ∧ 0 ≤ x.1 ∧ x.1 ≤ 7) ∨ (x.1 = (gs : Int) - 8 ∧ 0 ≤ x.2.1 ∧ x.2.1 ≤ 7)
        ∨ (x.2.1 = 7 ∧ (gs : Int) - 8 ≤ x.1 ∧ x.1 ≤ (gs : Int) - 1)) := by
  obtain ⟨r, c, v⟩ := x
  simp only [separatorTriples, List.mem_append, List.mem_map, mem_span, Prod.mk.injEq]
  constructor
  · rintro (((((⟨y, hy, rfl, rfl, rfl⟩ | ⟨y, hy, rfl, rfl, rfl⟩) | ⟨y, hy, rfl, rfl, rfl⟩) | ⟨y, hy, rfl, rfl, rfl⟩)
      | ⟨y, hy, rfl, rfl, rfl⟩) | ⟨y, hy, rfl, rfl, rfl⟩) <;> exact ⟨rfl, by omega⟩
  · rintro ⟨rfl, h | h | h | h | h | h⟩
    · exact .inl (.inl (.inl (.inl (.inl ⟨c, h.2, h.1.symm, rfl, rfl⟩))))
    · exact .inl (.inl (.inl (.inl (.inr ⟨r, h.2, rfl, h.1.symm, rfl⟩))))
    · exact .inl (.inl (.inl (.inr ⟨c, h.2, h.1.symm, rfl, rfl⟩)))
    · exact .inl (.inl (.inr ⟨r, h.2, rfl, h.1.symm, rfl⟩))
    · exact .inl (.inr ⟨c, h.2, h.1.symm, rfl, rfl⟩)
    · exact .inr ⟨r, h.2, rfl, h.1.symm, rfl⟩

theorem separator_inGrid {gs : Nat} (hg : 16 ≤ gs) : ∀ x ∈ separatorTriples gs, inGrid gs x.1 x.2.1 = true := by
  intro x hx
  have := (mem_separatorTriples.1 hx).2
  rw [inGrid_iff]; omega

theorem separator_lastAt {gs : Nat} (hg : 16 ≤ gs) (r c : Nat) (d : Cell) :
    (lastAt (separatorTriples gs) r c).getD d =
      if (r = 7 ∧ c ≤ 7) ∨ (r ≤ 7 ∧ c = 7) ∨ (r = 7 ∧ gs - 8 ≤ c ∧ c < gs) ∨ (r ≤ 7 ∧ c = gs - 8) ∨ (r = gs - 8 ∧ c ≤ 7)
          ∨ (gs - 8 ≤ r ∧ r < gs ∧ c = 7) then .white
      else d := by
  split
  next h =>
    rw [lastAt_some (v := .white)]
    · rfl
    · intro x hx _; exact (mem_separatorTriples.1 hx).1
    · exact ⟨((r : Int), (c : Int), .white), mem_separatorTriples.2 ⟨rfl, by dsimp only; omega⟩, by simp⟩
  next h =>
    rw [lastAt_none]
    · rfl
    · intro x hx hn
      have := (mem_separatorTriples.1 hx).2
      omega

/-! ## The reservation pass -/

/-- The reserved cells of PFMTRSV, before the dark module. -/
def reservedTriples (gs : Nat) : List Triple :=
  ((span 0 7).map fun c => (8, c, Cell.reserved))
  ++ ((span (gs - 8) (gs - 1)).map fun c => (8, c, Cell.reserved))
  ++ ((span 0 8).map fun r => (r, 8, Cell.reserved))
  ++ ((span (gs - 8) (gs - 1)).map fun r => (r, 8, Cell.reserved))

theorem reservationTriples_eq (gs : Nat) : reservationTriples gs = reservedTriples gs ++ [((gs : Int) - 8, 8, Cell.black)] := rfl

theorem mem_reservedTriples {gs : Nat} {x : Triple} :
    x ∈ reservedTriples gs ↔ x.2.2 = .reserved ∧
      ((x.1 = 8 ∧ 0 ≤ x.2.1 ∧ x.2.1 ≤ 7) ∨ (x.1 = 8 ∧ (gs : Int) - 8 ≤ x.2.1 ∧ x.2.1 ≤ (gs : Int) - 1)
        ∨ (x.2.1 = 8 ∧ 0 ≤ x.1 ∧ x.1 ≤ 8) ∨ (x.2.1 = 8 ∧ (gs : Int) - 8 ≤ x.1 ∧ x.1 ≤ (gs : Int) - 1)) := by
  obtain ⟨r, c, v⟩ := x
  simp only [reservedTriples, List.mem_append, List.mem_map, mem_span, Prod.mk.injEq]
  constructor
  · rintro (((⟨y, hy, rfl, rfl, rfl⟩ | ⟨y, hy, rfl, rfl, rfl⟩) | ⟨y, hy, rfl, rfl, rfl⟩) | ⟨y, hy, rfl, rfl, rfl⟩) <;>
      exact ⟨rfl, by omega⟩
  · rintro ⟨rfl, h | h | h | h⟩
    · exact .inl (.inl (.inl ⟨c, h.2, h.1.symm, rfl, rfl⟩))
    · exact .inl (.inl (.inr ⟨c, h.2, h.1.symm, rfl, rfl⟩))
    · exact .inl (.inr ⟨r, h.2, rfl, h.1.symm, rfl⟩)
    · exact .inr ⟨r, h.2, rfl, h.1.symm, rfl⟩

theorem reservation_inGrid {gs : Nat} (hg : 16 ≤ gs) : ∀ x ∈ reservationTriples gs, inGrid gs x.1 x.2.1 = true := by
  intro x hx
  rw [reservationTriples_eq] at hx
  rw [inGrid_iff]
  rcases List.mem_append.1 hx with hx | hx
  · have := (mem_reservedTriples.1 hx).2; omega
  · obtain rfl := List.mem_singleton.1 hx; dsimp only; omega

theorem reservation_lastAt {gs : Nat} (hg : 16 ≤ gs) (r c : Nat) (d : Cell) :
    (lastAt (reservationTriples gs) r c).getD d =
      if r = gs - 8 ∧ c = 8 then .black
      else if (r = 8 ∧ (c ≤ 7 ∨ (gs - 8 ≤ c ∧ c < gs))) ∨ (c = 8 ∧ (r ≤ 8 ∨ (gs - 8 ≤ r ∧ r < gs))) then .reserved
      else d := by
  rw [reservationTriples_eq, lastAt_concat]
  by_cases hd : r = gs - 8 ∧ c = 8
  · rw [if_pos hd, if_pos (by dsimp only; omega)]; rfl
  · rw [if_neg hd, if_neg (by dsimp only; omega)]
    split
    next h =>
      rw [lastAt_some (v := .reserved)]
      · rfl
      · intro x hx _; exact (mem_reservedTriples.1 hx).1
      · exact ⟨((r : Int), (c : Int), .reserved), mem_reservedTriples.2 ⟨rfl, by dsimp only; omega⟩, by simp⟩
    next h =>
      rw [lastAt_none]
      · rfl
      · intro x hx hn
        have := (mem_reservedTriples.1 hx).2
        omega

/-! ## The layers -/

/-- The five passes, one over the other, are the patterned Matrix (R150, R172). -/
theorem layers_eq_patternedCell {gs r c : Nat} (ho : gs % 2 = 1) (hg : 21 ≤ gs) (hr : r < gs) (hc : c < gs) :
    rsvdCell gs (sepdCell gs (foundCell gs (timedCell .unset r c) r c) r c) r c = patternedCell gs r c := by
  unfold rsvdCell patternedCell
  split
  · rfl
  next hd =>
    by_cases h8 : r = 8 ∧ (c ≤ 7 ∨ gs - 8 ≤ c)
    · rw [if_pos (by omega), if_pos h8]
    by_cases h8' : c = 8 ∧ (r ≤ 8 ∨ gs - 8 ≤ r)
    · rw [if_pos (by omega), if_neg h8, if_pos h8']
    rw [if_neg (by omega), if_neg h8, if_neg h8']
    unfold sepdCell
    split
    · have e1 : ¬(r ≤ 6 ∧ c ≤ 6) := by omega
      have e2 : ¬(gs - 7 ≤ r ∧ c ≤ 6) := by omega
      have e3 : ¬(r ≤ 6 ∧ gs - 7 ≤ c) := by omega
      rw [if_neg e1, if_neg e2, if_neg e3, if_pos (by omega)]
    next hs =>
      unfold foundCell
      by_cases f1 : r ≤ 6 ∧ c ≤ 6
      · rw [if_pos f1, if_pos f1]
      have g2 : gs - 8 ≤ r ∧ c ≤ 6 ↔ gs - 7 ≤ r ∧ c ≤ 6 := by omega
      have g3 : r ≤ 6 ∧ gs - 8 ≤ c ↔ r ≤ 6 ∧ gs - 7 ≤ c := by omega
      rw [if_neg f1, if_neg f1]
      by_cases f2 : gs - 8 ≤ r ∧ c ≤ 6
      · rw [if_pos f2, if_pos (g2.1 f2)]
      rw [if_neg f2, if_neg (fun h => f2 (g2.2 h))]
      by_cases f3 : r ≤ 6 ∧ gs - 8 ≤ c
      · rw [if_pos f3, if_pos (g3.1 f3)]
      have f4 : ¬((r ≤ 7 ∧ c ≤ 7) ∨ (gs - 8 ≤ r ∧ c ≤ 7) ∨ (r ≤ 7 ∧ gs - 8 ≤ c)) := by omega
      rw [if_neg f3, if_neg (fun h => f3 (g3.2 h)), if_neg f4]
      unfold timedCell
      by_cases t1 : c = 6
      · have t2 : ¬ r = 6 := by omega
        rw [if_pos t1, if_neg t2, if_pos t1]
      · rw [if_neg t1, if_neg t1]

end Sys2Proof.Machine
end

