-- ==== Sys2Proof/Laws/Format.lean ====
section
/-! SUPPORT. Which cells FMTWRITE names, under any placement and under the standard one (44_format_info.md rules R244, R246). -/

namespace Sys2Proof.Machine

theorem finder_colour (r c : Int) : finder r c ≠ .reserved ∧ finder r c ≠ .unset := by
  unfold finder; split <;> decide

theorem timing_colour (i : Int) : timing i ≠ .reserved ∧ timing i ≠ .unset := by
  unfold timing; split <;> decide

/-- The reserved cells of the patterned Matrix (R172). -/
theorem patternedCell_reserved_iff {gs r c : Nat} :
    patternedCell gs r c = .reserved ↔
      ¬(r = gs - 8 ∧ c = 8) ∧ ((r = 8 ∧ (c ≤ 7 ∨ gs - 8 ≤ c)) ∨ (c = 8 ∧ (r ≤ 8 ∨ gs - 8 ≤ r))) := by
  unfold patternedCell
  by_cases h1 : r = gs - 8 ∧ c = 8
  · simp [h1]
  by_cases h2 : r = 8 ∧ (c ≤ 7 ∨ gs - 8 ≤ c)
  · rw [if_neg h1, if_pos h2]; exact ⟨fun _ => ⟨h1, .inl h2⟩, fun _ => rfl⟩
  by_cases h3 : c = 8 ∧ (r ≤ 8 ∨ gs - 8 ≤ r)
  · rw [if_neg h1, if_neg h2, if_pos h3]; exact ⟨fun _ => ⟨h1, .inr h3⟩, fun _ => rfl⟩
  rw [if_neg h1, if_neg h2, if_neg h3]
  constructor
  · intro h
    exfalso
    split at h
    · exact (finder_colour _ _).1 h
    split at h
    · exact (finder_colour _ _).1 h
    split at h
    · exact (finder_colour _ _).1 h
    split at h
    · cases h
    split at h
    · exact (timing_colour _).1 h
    split at h
    · exact (timing_colour _).1 h
    · cases h
  · rintro ⟨-, h | h⟩
    · exact absurd h h2
    · exact absurd h h3

/-- Column 6 and row 6 take no payload: their cells are never `Unset` in the patterned Matrix (R172, R182). -/
theorem patternedCell_column_six {gs r : Nat} : patternedCell gs r 6 ≠ .unset := by
  unfold patternedCell
  split
  · decide
  split
  · decide
  split
  · decide
  split
  · exact (finder_colour _ _).2
  split
  · exact (finder_colour _ _).2
  split
  · exact (finder_colour _ _).2
  split
  · decide
  split
  · exact (timing_colour _).2
  · simp only [if_true]; exact (timing_colour _).2

/-- A triple of FMTWRITE's list (R246). -/
theorem mem_formatTriples {s : State} {x : Triple} :
    x ∈ formatTriples s ↔
      (∃ i < 15, ∃ k, (k = 1 ∨ k = 2) ∧ x = formatTriple s k i) ∨ x = (6, 8, .black) ∨ x = (8, 6, .black) := by
  simp only [formatTriples, List.mem_append, List.mem_flatMap, List.mem_range, List.mem_cons, List.not_mem_nil, or_false]
  constructor
  · rintro (⟨i, hi, h | h⟩ | h)
    · exact .inl ⟨i, hi, 1, .inl rfl, h⟩
    · exact .inl ⟨i, hi, 2, .inr rfl, h⟩
    · exact .inr h
  · rintro (⟨i, hi, k, rfl | rfl, h⟩ | h)
    · exact .inl ⟨i, hi, .inl h⟩
    · exact .inl ⟨i, hi, .inr h⟩
    · exact .inr h

/-- The two timing cells come last in the list, so they win (R246, R248). -/
theorem format_lastAt_timing {s : State} {r c : Nat} (h : (r = 6 ∧ c = 8) ∨ (r = 8 ∧ c = 6)) :
    lastAt (formatTriples s) r c = some .black := by
  unfold formatTriples
  rw [lastAt_append]
  rcases h with ⟨rfl, rfl⟩ | ⟨rfl, rfl⟩ <;> rfl

/-- The greatest bit index that names a cell decides it: both copies of a bit carry one value, and the list is in ascending
order of the bits (R134, R246). -/
theorem format_lastAt_bit {s : State} {i k r c : Nat} (hi : i < 15) (hk : k = 1 ∨ k = 2)
    (hc : (s.collab.coordsOf s.gs k i).1.toNat = r ∧ (s.collab.coordsOf s.gs k i).2.toNat = c)
    (h6 : ¬((r = 6 ∧ c = 8) ∨ (r = 8 ∧ c = 6)))
    (hu : ∀ j < 15, i < j → ∀ m, m = 1 ∨ m = 2 →
      ¬((s.collab.coordsOf s.gs m j).1.toNat = r ∧ (s.collab.coordsOf s.gs m j).2.toNat = c)) :
    lastAt (formatTriples s) r c = some (colourOf (s.fmtval.getLsbD i)) := by
  have htail : lastAt [((6 : Int), (8 : Int), Cell.black), (8, 6, .black)] r c = none := by
    refine lastAt_none fun x hx hn => h6 ?_
    simp only [List.mem_cons, List.not_mem_nil, or_false] at hx
    rcases hx with rfl | rfl
    · exact .inl ⟨hn.1.symm, hn.2.symm⟩
    · exact .inr ⟨hn.1.symm, hn.2.symm⟩
  have hbits : ∀ n, i < n → n ≤ 15 →
      lastAt ((List.range n).flatMap fun j => [formatTriple s 1 j, formatTriple s 2 j]) r c =
        some (colourOf (s.fmtval.getLsbD i)) := by
    intro n
    induction n with
    | zero => intro h; omega
    | succ n ih =>
      intro h1 h2
      rw [List.range_succ, List.flatMap_append, List.flatMap_singleton, lastAt_append]
      by_cases hn : n = i
      · subst hn
        rw [lastAt_some (v := colourOf (s.fmtval.getLsbD n)), Option.some_or]
        · intro x hx _
          simp only [List.mem_cons, List.not_mem_nil, or_false] at hx
          rcases hx with rfl | rfl <;> rfl
        · exact ⟨formatTriple s k n, by rcases hk with rfl | rfl <;> simp, hc⟩
      · rw [lastAt_none, Option.none_or, ih (by omega) (by omega)]
        intro x hx hx'
        simp only [List.mem_cons, List.not_mem_nil, or_false] at hx
        rcases hx with rfl | rfl
        · exact hu n (by omega) (by omega) 1 (.inl rfl) hx'
        · exact hu n (by omega) (by omega) 2 (.inr rfl) hx'
  rw [formatTriples, lastAt_append, htail, Option.none_or, hbits 15 hi le_rfl]

/-- A cell that no triple names. -/
theorem format_lastAt_none {s : State} {r c : Nat} (h6 : ¬((r = 6 ∧ c = 8) ∨ (r = 8 ∧ c = 6)))
    (hu : ∀ j < 15, ∀ m, m = 1 ∨ m = 2 →
      ¬((s.collab.coordsOf s.gs m j).1.toNat = r ∧ (s.collab.coordsOf s.gs m j).2.toNat = c)) :
    lastAt (formatTriples s) r c = none := by
  refine lastAt_none fun x hx hn => ?_
  rcases mem_formatTriples.1 hx with ⟨j, hj, m, hm, rfl⟩ | rfl | rfl
  · exact hu j hj m hm hn
  · exact h6 (.inl ⟨hn.1.symm, hn.2.symm⟩)
  · exact h6 (.inr ⟨hn.1.symm, hn.2.symm⟩)

/-! ## The standard placement -/

theorem coordsOf_standard {x : Collab} (h : x.standardPlacement = true) (gs k i : Nat) :
    x.coordsOf gs k i = standardCoords gs k i := by
  simp only [Collab.standardPlacement, Bool.and_eq_true, List.isEmpty_iff, beq_iff_eq] at h
  simp [Collab.coordsOf, h.1, h.2]

/-- The cell of a format bit under the standard placement, and the bit of a cell (R244). -/
theorem standardCoords_spec {gs k i : Nat} (hg : 21 ≤ gs) (hi : i < 15) (hk : k = 1 ∨ k = 2) :
    ∃ r c : Nat, standardCoords gs k i = ((r : Int), (c : Int)) ∧ r < gs ∧ c < gs ∧ patternedCell gs r c = .reserved
      ∧ ¬((r = 6 ∧ c = 8) ∨ (r = 8 ∧ c = 6)) ∧ formatBitAt gs r c = i := by
  have put : ∀ (p : Int × Int) (r c : Nat), p = ((r : Int), (c : Int)) → r < gs → c < gs →
      (¬(r = gs - 8 ∧ c = 8) ∧ ((r = 8 ∧ (c ≤ 7 ∨ gs - 8 ≤ c)) ∨ (c = 8 ∧ (r ≤ 8 ∨ gs - 8 ≤ r)))) →
      ¬((r = 6 ∧ c = 8) ∨ (r = 8 ∧ c = 6)) → formatBitAt gs r c = i →
      ∃ r c : Nat, p = ((r : Int), (c : Int)) ∧ r < gs ∧ c < gs ∧ patternedCell gs r c = .reserved
        ∧ ¬((r = 6 ∧ c = 8) ∨ (r = 8 ∧ c = 6)) ∧ formatBitAt gs r c = i :=
    fun p r c hp hr hc h1 h2 h3 => ⟨r, c, hp, hr, hc, patternedCell_reserved_iff.2 h1, h2, h3⟩
  unfold standardCoords
  rcases hk with rfl | rfl
  · rw [if_pos rfl]
    by_cases h5 : i ≤ 5
    · rw [if_pos h5]
      exact put _ i 8 rfl (by omega) (by omega) (by omega) (by omega) (by unfold formatBitAt; simp [h5])
    rw [if_neg h5]
    by_cases h6 : i = 6
    · subst h6; exact put _ 7 8 rfl (by omega) (by omega) (by omega) (by omega) (by simp [formatBitAt])
    rw [if_neg h6]
    by_cases h7 : i = 7
    · subst h7; exact put _ 8 8 rfl (by omega) (by omega) (by omega) (by omega) (by simp [formatBitAt])
    rw [if_neg h7]
    by_cases h8 : i = 8
    · subst h8; exact put _ 8 7 rfl (by omega) (by omega) (by omega) (by omega) (by simp [formatBitAt])
    rw [if_neg h8]
    refine put _ 8 (14 - i) (by rw [Prod.mk.injEq]; omega) (by omega) (by omega) (by omega) (by omega) ?_
    unfold formatBitAt
    rw [if_neg (by omega), if_neg (by omega), if_pos (by omega)]; omega
  · rw [if_neg (by omega)]
    by_cases h7 : i ≤ 7
    · rw [if_pos h7]
      refine put _ 8 (gs - 1 - i) (by rw [Prod.mk.injEq]; omega) (by omega) (by omega) (by omega) (by omega) ?_
      unfold formatBitAt
      rw [if_neg (by omega), if_neg (by omega), if_neg (by omega)]; omega
    · rw [if_neg h7]
      refine put _ (gs + i - 15) 8 (by rw [Prod.mk.injEq]; omega) (by omega) (by omega) (by omega) (by omega) ?_
      unfold formatBitAt
      rw [if_pos rfl, if_neg (by omega), if_neg (by omega), if_neg (by omega)]; omega

/-- Every reserved cell but the two timing cells holds a format bit (R244). -/
theorem standardCoords_covers {gs r c : Nat} (hg : 21 ≤ gs) (hr : r < gs) (hc : c < gs)
    (h : patternedCell gs r c = .reserved) (h6 : ¬((r = 6 ∧ c = 8) ∨ (r = 8 ∧ c = 6))) :
    ∃ k, (k = 1 ∨ k = 2) ∧ formatBitAt gs r c < 15 ∧ standardCoords gs k (formatBitAt gs r c) = ((r : Int), (c : Int)) := by
  have hp := patternedCell_reserved_iff.1 h
  have hb : formatBitAt gs r c = if c = 8 then (if r ≤ 5 then r else if r = 7 then 6 else if r = 8 then 7 else r + 15 - gs)
    else if c = 7 then 8 else if c ≤ 5 then 14 - c else gs - 1 - c := rfl
  have key : ∀ i, formatBitAt gs r c = i → i < 15 → ∀ k, (k = 1 ∨ k = 2) → standardCoords gs k i = ((r : Int), (c : Int)) →
      ∃ k, (k = 1 ∨ k = 2) ∧ formatBitAt gs r c < 15 ∧ standardCoords gs k (formatBitAt gs r c) = ((r : Int), (c : Int)) := by
    rintro i rfl hi k hk he; exact ⟨k, hk, hi, he⟩
  by_cases c8 : c = 8
  · subst c8
    simp only [if_true] at hb
    by_cases r5 : r ≤ 5
    · rw [if_pos r5] at hb
      exact key _ hb (by omega) 1 (.inl rfl) (by simp [standardCoords, r5])
    rw [if_neg r5] at hb
    by_cases r7 : r = 7
    · subst r7; exact key 6 hb (by omega) 1 (.inl rfl) (by simp [standardCoords])
    rw [if_neg r7] at hb
    by_cases r8 : r = 8
    · subst r8; exact key 7 hb (by omega) 1 (.inl rfl) (by simp [standardCoords])
    rw [if_neg r8] at hb
    refine key _ hb (by omega) 2 (.inr rfl) ?_
    unfold standardCoords
    rw [if_neg (by omega), if_neg (by omega), Prod.mk.injEq]; omega
  · rw [if_neg c8] at hb
    obtain rfl : r = 8 := by omega
    by_cases c7 : c = 7
    · subst c7; exact key 8 hb (by omega) 1 (.inl rfl) (by simp [standardCoords])
    rw [if_neg c7] at hb
    by_cases c5 : c ≤ 5
    · rw [if_pos c5] at hb
      refine key _ hb (by omega) 1 (.inl rfl) ?_
      unfold standardCoords
      rw [if_pos rfl, if_neg (by omega), if_neg (by omega), if_neg (by omega), if_neg (by omega), Prod.mk.injEq]; omega
    · rw [if_neg c5] at hb
      refine key _ hb (by omega) 2 (.inr rfl) ?_
      unfold standardCoords
      rw [if_neg (by omega), if_pos (by omega), Prod.mk.injEq]; omega

/-- FMTWRITE's list under the standard placement names the reserved cells and no other. -/
theorem format_lastAt_standard {s : State} (hs : s.collab.standardPlacement = true) (hg : 21 ≤ s.gs) {r c : Nat}
    (hr : r < s.gs) (hc : c < s.gs) :
    lastAt (formatTriples s) r c =
      if patternedCell s.gs r c = .reserved then some (finishedCell s.gs s.fmtval r c) else none := by
  by_cases h6 : (r = 6 ∧ c = 8) ∨ (r = 8 ∧ c = 6)
  · have hp : patternedCell s.gs r c = .reserved := patternedCell_reserved_iff.2 (by omega)
    rw [format_lastAt_timing h6, if_pos hp, finishedCell, if_pos hp, if_pos h6]
  · split
    next hp =>
      obtain ⟨k, hk, hb, he⟩ := standardCoords_covers hg hr hc hp h6
      rw [finishedCell, if_pos hp, if_neg h6]
      refine format_lastAt_bit (k := k) hb hk (by rw [coordsOf_standard hs, he]; simp) h6 ?_
      intro j hj hij m hm hn
      obtain ⟨r', c', he', -, -, -, -, hb'⟩ := standardCoords_spec hg hj hm
      rw [coordsOf_standard hs, he'] at hn
      simp only [Int.toNat_natCast] at hn
      rw [← hb', hn.1, hn.2] at hij
      exact absurd hij (lt_irrefl _)
    next hp =>
      refine format_lastAt_none h6 ?_
      intro j hj m hm hn
      obtain ⟨r', c', he', -, -, hp', -, -⟩ := standardCoords_spec hg hj hm
      rw [coordsOf_standard hs, he'] at hn
      simp only [Int.toNat_natCast] at hn
      rw [hn.1, hn.2] at hp'
      exact hp hp'

/-- Under the standard placement every triple of FMTWRITE is inside the grid (R135). -/
theorem format_inGrid_standard {s : State} (hs : s.collab.standardPlacement = true) (hg : 21 ≤ s.gs) :
    ∀ x ∈ formatTriples s, inGrid s.gs x.1 x.2.1 = true := by
  intro x hx
  rcases mem_formatTriples.1 hx with ⟨i, hi, k, hk, rfl⟩ | rfl | rfl
  · obtain ⟨r, c, he, hr, hc, -⟩ := standardCoords_spec hg hi hk
    simp only [formatTriple, coordsOf_standard hs, he]
    rw [inGrid_iff]; omega
  · rw [inGrid_iff]; dsimp only; omega
  · rw [inGrid_iff]; dsimp only; omega

end Sys2Proof.Machine
end

