-- ==== Sys2Proof/Laws/Walk.lean ====
section
/-! SUPPORT. The walk order (42_data_walker.md rules R180, R182) and the loop of PLACE, each said once. -/

namespace Sys2Proof.Machine

theorem mem_sweepRows {gs k r : Nat} : r ∈ sweepRows gs k ↔ r < gs := by
  unfold sweepRows
  split <;> simp

theorem mem_sweep {gs k r c : Nat} :
    (r, c) ∈ sweep gs k ↔ r < gs ∧ (c = sweepColumn gs k ∨ c = sweepColumn gs k - 1) := by
  simp only [sweep, List.mem_flatMap, mem_sweepRows, List.mem_cons, List.not_mem_nil, or_false, Prod.mk.injEq]
  constructor
  · rintro ⟨x, hx, ⟨rfl, rfl⟩ | ⟨rfl, rfl⟩⟩ <;> simp [hx]
  · rintro ⟨hr, h⟩; exact ⟨r, hr, by simpa using h⟩

/-- The cells of the walk: all of the grid but column 6 (R182 item 4). -/
theorem mem_walk {gs r c : Nat} (ho : gs % 2 = 1) (hg : 9 ≤ gs) : (r, c) ∈ walk gs ↔ r < gs ∧ c < gs ∧ c ≠ 6 := by
  simp only [walk, List.mem_flatMap, List.mem_range, mem_sweep]
  constructor
  · rintro ⟨k, hk, hr, h⟩
    unfold sweepColumn at h
    split at h <;> omega
  · rintro ⟨hr, hc, h6⟩
    by_cases h7 : 7 ≤ c
    · refine ⟨(gs - 1 - c) / 2, by omega, hr, ?_⟩
      unfold sweepColumn
      split <;> omega
    · refine ⟨(gs - 1 - (c + 1)) / 2, by omega, hr, ?_⟩
      unfold sweepColumn
      split <;> omega

/-- No coordinate occurs twice on the walk (R182 item 4). -/
theorem nodup_walk {gs : Nat} (ho : gs % 2 = 1) (hg : 9 ≤ gs) : (walk gs).Nodup := by
  refine List.nodup_flatMap.2 ⟨fun k hk => ?_, ?_⟩
  · have hk' := List.mem_range.1 hk
    refine List.nodup_flatMap.2 ⟨fun r hr => ?_, ?_⟩
    · have : sweepColumn gs k ≠ sweepColumn gs k - 1 := by unfold sweepColumn; split <;> omega
      simpa using this
    · have hn : (sweepRows gs k).Nodup := by
        unfold sweepRows
        split
        · exact List.nodup_reverse.2 List.nodup_range
        · exact List.nodup_range
      refine hn.imp ?_
      intro a b hab x hx hy
      simp only [List.mem_cons, List.not_mem_nil, or_false] at hx hy
      rcases hx with rfl | rfl <;> rcases hy with h | h <;> simp_all
  · refine List.nodup_range.imp_of_mem ?_
    intro j k hj hk hjk
    have hj' := List.mem_range.1 hj
    have hk' := List.mem_range.1 hk
    rintro ⟨r, c⟩ hx hy
    have h1 := (mem_sweep.1 hx).2
    have h2 := (mem_sweep.1 hy).2
    unfold sweepColumn at h1 h2
    split at h1 <;> split at h2 <;> omega

/-- Element `m * k + j` of lists of one length `m` put together is element `j` of list `k`. -/
theorem getElem?_flatMap_const {α β : Type} {m : Nat} {f : α → List β} (hf : ∀ a, (f a).length = m) (l : List α) (k : Nat)
    {j : Nat} (hj : j < m) : (l.flatMap f)[m * k + j]? = l[k]?.bind fun a => (f a)[j]? := by
  induction l generalizing k with
  | nil => simp
  | cons a l ih =>
    rw [List.flatMap_cons]
    cases k with
    | zero => rw [List.getElem?_append_left (by rw [hf]; omega)]; simp
    | succ k =>
      rw [List.getElem?_append_right (by rw [hf, Nat.mul_succ]; omega), hf,
        show m * (k + 1) + j - m = m * k + j by rw [Nat.mul_succ]; omega, ih k]
      rfl

theorem length_sweepRows (gs k : Nat) : (sweepRows gs k).length = gs := by unfold sweepRows; split <;> simp

theorem length_sweep (gs k : Nat) : (sweep gs k).length = 2 * gs := by
  rw [sweep, List.length_flatMap]; simp [length_sweepRows, Nat.mul_comm]

/-- The walk has `gs * (gs - 1)` coordinates (R182 item 4). -/
theorem length_walk (gs : Nat) : (walk gs).length = (gs - 1) / 2 * (gs * 2) := by
  rw [walk, List.length_flatMap]; simp [length_sweep, Nat.mul_comm]

/-- The row of step `j` of a sweep: up when the sweep's index is even (R180). -/
theorem getElem?_sweepRows {gs k j : Nat} (hj : j < gs) :
    (sweepRows gs k)[j]? = some (if k % 2 = 0 then gs - 1 - j else j) := by
  unfold sweepRows
  by_cases h : k % 2 = 0
  · rw [if_pos h, if_pos h, List.getElem?_reverse (by simpa using hj), List.length_range, List.getElem?_range (by omega)]
  · rw [if_neg h, if_neg h, List.getElem?_range hj]

/-- Step `j` of sweep `k` is the walk's elements `2*gs*k + 2*j` and the next: the right cell of the pair first (R180). -/
theorem getElem?_walk {gs k j b : Nat} (hk : k < (gs - 1) / 2) (hj : j < gs) (hb : b < 2) :
    (walk gs)[2 * gs * k + (2 * j + b)]? = some (if k % 2 = 0 then gs - 1 - j else j, sweepColumn gs k - b) := by
  rw [walk, getElem?_flatMap_const (length_sweep gs) _ _ (by omega), List.getElem?_range hk, Option.bind_some, sweep,
    getElem?_flatMap_const (m := 2) (fun _ => rfl) _ _ hb, getElem?_sweepRows hj, Option.bind_some]
  interval_cases b <;> rfl

theorem gs_odd (s : State) : s.gs % 2 = 1 := by simp only [State.gs, gridSize]; omega

theorem gs_ge (s : State) : 17 ≤ s.gs := by simp only [State.gs, gridSize]; omega

theorem mem_walk_gs {s : State} {r c : Nat} : (r, c) ∈ walk s.gs ↔ r < s.gs ∧ c < s.gs ∧ c ≠ 6 :=
  mem_walk (gs_odd s) (by have := gs_ge s; omega)

theorem nodup_walk_gs (s : State) : (walk s.gs).Nodup := nodup_walk (gs_odd s) (by have := gs_ge s; omega)

theorem mem_freeCells {s : State} {r c : Nat} :
    (r, c) ∈ freeCells s ↔ (r < s.gs ∧ c < s.gs ∧ c ≠ 6) ∧ s.cell r c = .unset := by
  simp [freeCells, mem_walk_gs]

theorem nodup_freeCells (s : State) : (freeCells s).Nodup := (nodup_walk_gs s).filter _

/-! ## The loop of PLACE -/

/-- Write one value at each coordinate of a list. -/
def setAll {n : Nat} {α : Type} (p : Plane n α) (l : List ((Nat × Nat) × α)) : Plane n α :=
  l.foldl (fun q x => planeSet q x.1.1 x.1.2 x.2) p

theorem setAll_concat {n : Nat} {α : Type} (p : Plane n α) (l : List ((Nat × Nat) × α)) (x : (Nat × Nat) × α) :
    setAll p (l ++ [x]) = planeSet (setAll p l) x.1.1 x.1.2 x.2 := by simp [setAll]

theorem planeGet_setAll_of_not_mem {n : Nat} {α : Type} (p : Plane n α) (l : List ((Nat × Nat) × α)) (d : α) {r c : Nat}
    (h : ∀ x ∈ l, x.1 ≠ (r, c)) : planeGet (setAll p l) r c d = planeGet p r c d := by
  induction l using List.reverseRecOn with
  | nil => rfl
  | append_singleton l x ih =>
    rw [setAll_concat, planeGet_set_of_ne, ih fun y hy => h y (by simp [hy])]
    have := h x (by simp)
    by_contra hc
    push Not at hc
    exact this (Prod.ext hc.1.symm hc.2.symm)

theorem planeGet_setAll_of_mem {n : Nat} {α : Type} (p : Plane n α) (l : List ((Nat × Nat) × α)) (d : α) {r c : Nat} {a : α}
    (hn : (l.map Prod.fst).Nodup) (hr : r < n) (hc : c < n) (h : ((r, c), a) ∈ l) : planeGet (setAll p l) r c d = a := by
  induction l using List.reverseRecOn with
  | nil => simp at h
  | append_singleton l x ih =>
    rw [List.map_append, List.nodup_append] at hn
    rcases List.mem_append.1 h with h | h
    · rw [setAll_concat, planeGet_set_of_ne, ih hn.1 h]
      have := hn.2.2 (r, c) (List.mem_map.2 ⟨_, h, rfl⟩) x.1 (by simp)
      by_contra hcc
      push Not at hcc
      exact this (Prod.ext hcc.1 hcc.2)
    · obtain rfl := List.mem_singleton.1 h
      rw [setAll_concat, planeGet_set_self _ _ _ hr hc]

/-- The loop writes the bits, in order, into the coordinates that are `Unset` at its start (R188). -/
theorem placeLoop_eq (ws : List (Nat × Nat)) (bits : List Bool) (g : Plane Config.gmax Cell) (d : Plane Config.gmax Bool)
    (i : Nat) (hn : ws.Nodup) :
    placeLoop ws bits g d i =
      (setAll g (((ws.filter fun p => planeGet g p.1 p.2 .unset == .unset).zip bits).map fun x => (x.1, colourOf x.2)),
       setAll d (((ws.filter fun p => planeGet g p.1 p.2 .unset == .unset).zip bits).map fun x => (x.1, true)),
       i + min (ws.filter fun p => planeGet g p.1 p.2 .unset == .unset).length bits.length) := by
  induction ws generalizing bits g d i with
  | nil => simp [placeLoop, setAll]
  | cons p rest ih =>
    obtain ⟨r, c⟩ := p
    cases bits with
    | nil => simp [placeLoop, setAll]
    | cons b more =>
      rw [List.nodup_cons] at hn
      unfold placeLoop
      by_cases hu : planeGet g r c .unset = .unset
      · have hf : (rest.filter fun p => planeGet (planeSet g r c (colourOf b)) p.1 p.2 .unset == .unset)
            = rest.filter fun p => planeGet g p.1 p.2 .unset == .unset := by
          refine List.filter_congr fun p hp => ?_
          rw [planeGet_set_of_ne]
          by_contra hc
          push Not at hc
          have e : p = (r, c) := Prod.ext hc.1 hc.2
          exact hn.1 (e ▸ hp)
        simp only [hu, if_true]
        rw [ih _ _ _ _ hn.2, hf, List.filter_cons_of_pos (by simp [hu])]
        simp only [List.zip_cons_cons, List.map_cons, setAll, List.foldl_cons, List.length_cons]
        congr 2
        omega
      · simp only [hu, if_false]
        rw [ih _ _ _ _ hn.2, List.filter_cons_of_neg (by simp [hu])]

theorem placedBits_parts (s : State) :
    s.placedBits.grid = setAll s.grid (((freeCells s).zip s.pay).map fun x => (x.1, colourOf x.2))
    ∧ s.placedBits.dflag = setAll s.dflag (((freeCells s).zip s.pay).map fun x => (x.1, true))
    ∧ s.placedBits.nplaced = BitVec.ofNat 12 (min (freeCells s).length s.payLen) := by
  have h := placeLoop_eq (walk s.gs) s.pay s.grid s.dflag 0 (nodup_walk_gs s)
  refine ⟨congrArg Prod.fst h, congrArg (fun x => x.2.1) h, ?_⟩
  have := congrArg (fun x => BitVec.ofNat 12 x.2.2) h
  simpa [freeCells, State.cell, State.payLen] using this

theorem fst_zip_take {α β : Type} (l : List α) (m : List β) : (l.zip m).map Prod.fst = l.take m.length := by
  induction l generalizing m with
  | nil => simp
  | cons a l ih => cases m <;> simp [ih]

/-- The coordinates PLACE writes. -/
def placedCells (s : State) : List (Nat × Nat) := (freeCells s).take s.payLen

theorem keys_zip {β : Type} (s : State) (f : Bool → β) :
    (((freeCells s).zip s.pay).map fun x => (x.1, f x.2)).map Prod.fst = placedCells s := by
  rw [List.map_map]
  have : (Prod.fst ∘ fun x : (Nat × Nat) × Bool => (x.1, f x.2)) = Prod.fst := rfl
  rw [this, fst_zip_take]; rfl

theorem nodup_placedCells (s : State) : (placedCells s).Nodup := (nodup_freeCells s).sublist (List.take_sublist _ _)

/-- What PLACE leaves at a coordinate it writes: bit `i` at the `i`-th free cell (R188, R190). -/
theorem placedBits_of_mem {s : State} (hg : s.gs ≤ Config.gmax) {i r c : Nat} {b : Bool} (hp : (freeCells s)[i]? = some (r, c))
    (hb : s.pay[i]? = some b) : s.placedBits.cell r c = colourOf b ∧ s.placedBits.flag r c = true := by
  obtain ⟨h1, h2, -⟩ := placedBits_parts s
  have hm : (r, c) ∈ freeCells s := List.mem_of_getElem? hp
  obtain ⟨⟨hr, hc, -⟩, -⟩ := mem_freeCells.1 hm
  have hz : ((r, c), b) ∈ (freeCells s).zip s.pay :=
    List.mem_of_getElem? (i := i) (by rw [List.getElem?_zip_eq_some]; exact ⟨hp, hb⟩)
  constructor
  · rw [State.cell, h1]
    refine planeGet_setAll_of_mem _ _ _ ?_ (by omega) (by omega) (List.mem_map.2 ⟨_, hz, rfl⟩)
    rw [keys_zip s colourOf]; exact nodup_placedCells s
  · rw [State.flag, h2]
    refine planeGet_setAll_of_mem _ _ _ ?_ (by omega) (by omega) (List.mem_map.2 ⟨_, hz, rfl⟩)
    rw [keys_zip s fun _ => true]; exact nodup_placedCells s

/-- PLACE leaves every coordinate it does not write. -/
theorem placedBits_of_not_mem {s : State} {r c : Nat} (h : (r, c) ∉ placedCells s) :
    s.placedBits.cell r c = s.cell r c ∧ s.placedBits.flag r c = s.flag r c := by
  obtain ⟨h1, h2, -⟩ := placedBits_parts s
  constructor
  · rw [State.cell, h1, planeGet_setAll_of_not_mem]; · rfl
    intro x hx hxe
    exact h (by rw [← keys_zip s colourOf]; exact List.mem_map.2 ⟨x, hx, hxe⟩)
  · rw [State.flag, h2, planeGet_setAll_of_not_mem]; · rfl
    intro x hx hxe
    exact h (by rw [← keys_zip s fun _ => true]; exact List.mem_map.2 ⟨x, hx, hxe⟩)

theorem mem_coords {n r c : Nat} : (r, c) ∈ coords n ↔ r < n ∧ c < n := by
  simp [coords]

theorem nodup_coords (n : Nat) : (coords n).Nodup := by
  refine List.nodup_flatMap.2 ⟨fun r _ => ?_, ?_⟩
  · exact List.nodup_range.map fun a b h => (Prod.mk.inj h).2
  · refine List.nodup_range.imp ?_
    rintro a b hab ⟨r, c⟩ h1 h2
    simp only [List.mem_map, List.mem_range, Prod.mk.injEq] at h1 h2
    obtain ⟨-, -, rfl, -⟩ := h1
    obtain ⟨-, -, rfl, -⟩ := h2
    exact hab rfl

/-- Element `gs * r + c` of the row-major coordinates is `(r, c)` (R79). -/
theorem getElem?_coords {n r c : Nat} (hr : r < n) (hc : c < n) : (coords n)[n * r + c]? = some (r, c) := by
  have key : ∀ (m k : Nat), k < m →
      ((List.range m).flatMap fun r => (List.range n).map fun c => (r, c))[n * k + c]? = some (k, c) := by
    intro m
    induction m with
    | zero => intro k hk; omega
    | succ m ih =>
      intro k hk
      have hlen : ((List.range m).flatMap fun r => (List.range n).map fun c => (r, c)).length = m * n := by
        simp [List.length_flatMap]
      rw [List.range_succ, List.flatMap_append]
      by_cases hkm : k < m
      · have : n * k + c < m * n := by nlinarith
        rw [List.getElem?_append_left (by rw [hlen]; exact this)]
        exact ih k hkm
      · obtain rfl : k = m := by omega
        rw [List.getElem?_append_right (by rw [hlen]; nlinarith), hlen, Nat.mul_comm k n, Nat.add_sub_cancel_left]
        simp [hc]
  exact key n r hr

theorem length_coords (n : Nat) : (coords n).length = n * n := by simp [coords, List.length_flatMap]

/-- Over an array with no data cell, the data cells after PLACE are the ones it wrote (R42 item 5). -/
theorem flagCount_placedBits {s : State} (hg : s.gs ≤ Config.gmax)
    (h0 : ∀ r < Config.gmax, ∀ c < Config.gmax, s.flag r c = false) :
    s.placedBits.flagCount = (placedCells s).length := by
  refine List.Perm.length_eq ((List.perm_ext_iff_of_nodup ((nodup_coords _).filter _) (nodup_placedCells s)).2 ?_)
  rintro ⟨r, c⟩
  rw [List.mem_filter, mem_coords]
  constructor
  · rintro ⟨⟨hr, hc⟩, hf⟩
    by_contra hn
    rw [(placedBits_of_not_mem hn).2, h0 r hr c hc] at hf
    cases hf
  · intro hm
    obtain ⟨⟨hr, hc, -⟩, -⟩ := mem_freeCells.1 (List.mem_of_mem_take hm)
    obtain ⟨i, hi⟩ := List.mem_iff_getElem?.1 hm
    have hi' : i < s.payLen ∧ (freeCells s)[i]? = some (r, c) := by
      unfold placedCells at hi
      rw [List.getElem?_take] at hi
      split at hi
      next h => exact ⟨h, hi⟩
      next => cases hi
    have hlt : i < s.pay.length := hi'.1
    exact ⟨⟨by omega, by omega⟩, (placedBits_of_mem hg hi'.2 (List.getElem?_eq_getElem hlt)).2⟩

end Sys2Proof.Machine
end

