-- ==== Sys2Proof/Laws/Mask.lean ====
section
/-! SUPPORT. The candidate matrix and its score, in the words of 43_mask_engine.md rules R204, R208, R210. -/

namespace Sys2Proof.Machine

theorem maskBit_isNone {a : Config.Answer} : (maskBit a).isNone = true ↔ a ≠ .int 0 ∧ a ≠ .int 1 := by
  cases a with
  | err => simp [maskBit]
  | int n =>
    unfold maskBit
    by_cases h0 : n = 0
    · simp [h0]
    by_cases h1 : n = 1
    · simp [h1]
    simp [h0, h1]

theorem maskErr_iff {s : State} {k : Nat} :
    s.maskErr k = true ↔ ∃ r < s.gs, ∃ c < s.gs, s.flag r c = true ∧ s.collab.maskAnswer k r c ≠ .int 0
      ∧ s.collab.maskAnswer k r c ≠ .int 1 := by
  simp only [State.maskErr, List.any_eq_true, Bool.and_eq_true, State.maskQuery, maskBit_isNone]
  constructor
  · rintro ⟨⟨r, c⟩, hm, hf, h⟩
    obtain ⟨hr, hc⟩ := mem_coords.1 hm
    exact ⟨r, hr, c, hc, hf, h⟩
  · rintro ⟨r, hr, c, hc, hf, h⟩
    exact ⟨(r, c), mem_coords.2 ⟨hr, hc⟩, hf, h⟩

theorem maskErr_false_iff {s : State} {k : Nat} : s.maskErr k = false ↔ s.masksAnswer k := by
  rw [← Bool.not_eq_true, maskErr_iff]
  simp only [State.masksAnswer]
  push Not
  constructor
  · intro h r hr c hc hf
    by_cases h0 : s.collab.maskAnswer k r c = .int 0
    · exact .inl h0
    · exact .inr (h r hr c hc hf h0)
  · intro h r hr c hc hf h0
    exact (h r hr c hc hf).resolve_left h0

/-- The candidate's cell in the words of R208. -/
theorem candCell_eq {s : State} {k r c : Nat} (h : s.masksAnswer k) (hr : r < s.gs) (hc : c < s.gs) :
    s.candCell k r c =
      if s.flag r c = true ∧ s.collab.maskAnswer k r c = .int 1 then cellXor (s.cell r c) true else s.cell r c := by
  unfold State.candCell State.maskQuery
  by_cases hf : s.flag r c = true
  · rcases h r hr c hc hf with h0 | h0 <;> simp [hf, h0, maskBit]
  · simp [hf]

/-- A cell of the candidate: a data cell is inverted or kept, any other is kept (R208). -/
theorem candCell_cases (s : State) (k r c : Nat) :
    s.candCell k r c = s.cell r c ∨ (s.flag r c = true ∧ s.candCell k r c = cellXor (s.cell r c) true) := by
  unfold State.candCell
  by_cases hf : s.flag r c = true
  · rw [if_pos hf]
    cases (s.maskQuery k r c).getD false
    · left; simp
    · right; exact ⟨hf, rfl⟩
  · left; rw [if_neg hf]

theorem getElem?_candidate {s : State} {k r c : Nat} (hr : r < s.gs) (hc : c < s.gs) :
    (s.candidate k)[s.gs * r + c]? = some (s.candCell k r c) := by
  rw [State.candidate, List.getElem?_map, getElem?_coords hr hc]; rfl

theorem length_candidate (s : State) (k : Nat) : (s.candidate k).length = s.gs * s.gs := by
  rw [State.candidate, List.length_map, length_coords]

theorem isCandidate_candidate {s : State} {k : Nat} (h : s.masksAnswer k) : s.isCandidate k (s.candidate k) :=
  ⟨length_candidate s k, fun r hr c hc => by rw [getElem?_candidate hr hc, candCell_eq h hr hc]⟩

/-- The candidate of R208 is what the model hands to SCORE. -/
theorem isCandidate_iff {s : State} {k : Nat} (h : s.masksAnswer k) {cand : List Cell} :
    s.isCandidate k cand ↔ cand = s.candidate k := by
  constructor
  · rintro ⟨hl, hx⟩
    refine List.ext_getElem? fun j => ?_
    by_cases hj : j < s.gs * s.gs
    · have hg : 0 < s.gs := by have := gs_ge s; omega
      have hc : j % s.gs < s.gs := Nat.mod_lt _ hg
      have hr : j / s.gs < s.gs := Nat.div_lt_of_lt_mul hj
      have e : s.gs * (j / s.gs) + j % s.gs = j := Nat.div_add_mod _ _
      have h1 := hx _ hr _ hc
      have h2 := (isCandidate_candidate h).2 _ hr _ hc
      rw [e] at h1 h2
      rw [h1, h2]
    · rw [List.getElem?_eq_none (by omega), List.getElem?_eq_none (by rw [length_candidate]; omega)]
  · rintro rfl; exact isCandidate_candidate h

theorem candScore_of_answers {s : State} {k : Nat} (h : s.masksAnswer k) :
    s.candScore k = scoreWord (s.collab.scoreAnswer s.gs (s.candidate k)) := by
  rw [State.candScore, maskErr_false_iff.2 h]; rfl

theorem scoreWord_of_range {n : Int} (h1 : -2 ^ 31 ≤ n) (h2 : n < 2 ^ 31) : scoreWord (.int n) = some (BitVec.ofInt 32 n) := by
  exact if_pos ⟨h1, by omega⟩

/-- The running minimum's comparison is that of the signed numbers (R210). -/
theorem scoreLess_iff (a b : BitVec 32) : scoreLess a b = true ↔ a.toInt < b.toInt := by
  simp [scoreLess, BitVec.slt]

theorem toInt_ofInt_score {n : Int} (h1 : -2 ^ 31 ≤ n) (h2 : n < 2 ^ 31) : (BitVec.ofInt 32 n).toInt = n := by
  rw [BitVec.toInt_ofInt]
  exact Int.bmod_eq_of_le (by omega) (by omega)

/-- The score of R210 in the words of R208 is the score the model computes. -/
theorem hasScore_iff {s : State} {k : Nat} {n : Int} : s.hasScore k n ↔ ∃ v, s.candScore k = some v ∧ v.toInt = n := by
  constructor
  · rintro ⟨hm, ⟨cand, hc, ha⟩, h1, h2⟩
    obtain rfl := (isCandidate_iff hm).1 hc
    exact ⟨_, by rw [candScore_of_answers hm, ha, scoreWord_of_range h1 h2], toInt_ofInt_score h1 h2⟩
  · rintro ⟨v, hv, rfl⟩
    have hm : s.masksAnswer k := by
      refine maskErr_false_iff.1 ?_
      by_contra he
      rw [State.candScore, if_pos (by simpa using he)] at hv
      cases hv
    rw [candScore_of_answers hm] at hv
    cases ha : s.collab.scoreAnswer s.gs (s.candidate k) with
    | err => rw [ha] at hv; cases hv
    | int n =>
      rw [ha, scoreWord] at hv
      split at hv
      next h =>
        obtain rfl := Option.some.inj hv
        rw [toInt_ofInt_score h.1 (by omega)]
        exact ⟨hm, ⟨_, isCandidate_candidate hm, ha⟩, h.1, by omega⟩
      · cases hv

/-- Scores depend on the configuration, the arrays and the parameters alone. -/
theorem hasScore_congr {s t : State} (h1 : t.version = s.version) (h2 : t.grid = s.grid) (h3 : t.dflag = s.dflag)
    (h4 : t.collab = s.collab) (k : Nat) (n : Int) : t.hasScore k n ↔ s.hasScore k n := by
  cases s; cases t
  simp only at h1 h2 h3 h4
  subst h1 h2 h3 h4
  exact Iff.rfl

end Sys2Proof.Machine
end

