-- ==== Sys2Proof/Laws/PerInstr.lean ====
section
/-! SUPPORT. Family `OpcodeMap`: the word of every command stands on the command's row of the opcode map and on no other
(30_encoding.md rule R96). One lemma per constructor. -/

namespace Sys2Proof.Laws.OpcodeMap

/-- The word of `i` is covered by the row of `i`, and every row of the map that covers it is that row. -/
def Statement (i : Instr) : Prop :=
  (rowOf i).covers (encode i) = true ∧ ∀ row ∈ opcodeTable, row.covers (encode i) = true → row = rowOf i

theorem nop : Statement .nop := by unfold Statement; decide

theorem reset : Statement .reset := by unfold Statement; decide

theorem setcfg (v : BitVec 4) (e : BitVec 2) : Statement (.setcfg v e) := by revert v e; unfold Statement; decide

theorem payclr : Statement .payclr := by unfold Statement; decide

theorem paypush (n : BitVec 5) (data : BitVec 16) : Statement (.paypush n data) := by
  constructor
  · rw [OpcodeRow.covers, beq_iff_eq]
    refine BitVec.eq_of_getLsbD_eq fun i hi => ?_
    rw [BitVec.getLsbD_and, getLsbD_encode_paypush]
    by_cases h1 : i < 21
    · have : (rowOf (.paypush n data)).mask.getLsbD i = false ∧ (rowOf (.paypush n data)).value.getLsbD i = false := by
        simp only [rowOf]; interval_cases i <;> decide
      rw [this.1, this.2, Bool.and_false]
    · rw [if_neg (by omega), if_neg h1]
      simp only [rowOf]; interval_cases i <;> decide
  · intro row hrow hc
    have top : ∀ row ∈ opcodeTable, row.value.extractLsb' 24 8 = row.mask.extractLsb' 24 8 &&& 0x04#8 →
        row = rowOf (.paypush n data) := by
      unfold opcodeTable; simp only [rowOf]; decide
    refine top row hrow ?_
    have e : (encode (.paypush n data)).extractLsb' 24 8 = 0x04#8 := opcodeOf_encode_paypush n data
    rw [← e, ← beq_iff_eq.1 hc, BitVec.extractLsb'_and, BitVec.and_comm]

theorem init : Statement .init := by unfold Statement; decide

theorem ptiming : Statement .ptiming := by unfold Statement; decide

theorem pfinder : Statement .pfinder := by unfold Statement; decide

theorem psep : Statement .psep := by unfold Statement; decide

theorem pfmtrsv : Statement .pfmtrsv := by unfold Statement; decide

theorem pverinfo : Statement .pverinfo := by unfold Statement; decide

theorem place : Statement .place := by unfold Statement; decide

theorem meval : Statement .meval := by unfold Statement; decide

theorem mcommit : Statement .mcommit := by unfold Statement; decide

theorem fmtenc (m : BitVec 3) : Statement (.fmtenc m) := by revert m; unfold Statement; decide

theorem fmtencw : Statement .fmtencw := by unfold Statement; decide

theorem fmtwrite : Statement .fmtwrite := by unfold Statement; decide

theorem qzone : Statement .qzone := by unfold Statement; decide

end Sys2Proof.Laws.OpcodeMap
end

