-- ==== Sys2Proof/Tests/Slice0.lean ====
section
/-! SUPPORT. Tests. Every expected value stands in the spec (95_test_vectors.md, named beside each test) or is a hand calculation
from its rules; then one witness for the hypotheses of each statement of Certificates/Slice0/Obligations.lean. -/

namespace Sys2Proof.Tests

-- One test at a time: each waits for the kernel, and many waiting at once exhaust the compiler's threads.
set_option Elab.async false

open Sys2Proof.Machine

/-! ## Helpers -/

/-- The default collaborators of R206 and R244 over the black-count scorer of 95_test_vectors.md. -/
def standard : Collab :=
  { maskList := [], maskBase := .standard, scoreList := [], scoreBase := .blackCount, coordsList := [], coordsBase := .standard }

/-- The reset state in another phase and version, with the default collaborators. -/
def at_ (v : BitVec 4) (p : Phase) : State := { State.reset with version := v, phase := p, collab := standard }

/-- The state a command leads to; the state itself where it stops. -/
def after (i : Instr) (s : State) : State :=
  match exec i s with
  | .next t => t
  | .fault _ => s
  | .refused _ => s

/-- The state a step leads to; the state itself where it stops. -/
def stepped (s : State) : State :=
  match step s with
  | .next t => t
  | .fault _ => s
  | .refused _ => s

/-- Cells of `GRID`. -/
def cellsAt (s : State) (l : List (Nat × Nat)) : List Cell := l.map fun p => s.cell p.1 p.2

/-- The patterned Matrix of version 1 in the 41 x 41 array. -/
def patternedGrid (r c : Nat) : Cell := if r < 21 ∧ c < 21 then patternedCell 21 r c else .unset

/-- The patterned Matrix of version 1, with the ten payload bits of program P5. -/
def patterned1 : State :=
  { at_ 1 .patterned with
    grid := planeBuild Config.gmax patternedGrid
    pay := [true, false, true, true, false, true, false, false, true, true] }

/-- The first ten coordinates of the walk at version 1 (V42.1). -/
def walkTen : List (Nat × Nat) :=
  [(20, 20), (20, 19), (19, 20), (19, 19), (18, 20), (18, 19), (17, 20), (17, 19), (16, 20), (16, 19)]

/-- Program P5 after PLACE, written out: the ten bits in the ten cells. -/
def placed1 : State :=
  { patterned1 with
    phase := .placed
    grid := planeBuild Config.gmax fun r c =>
      match (walkTen.zip patterned1.pay).lookup (r, c) with
      | some b => colourOf b
      | none => patternedGrid r c
    dflag := planeBuild Config.gmax fun r c => walkTen.contains (r, c)
    nplaced := 10
    incomplete := true }

/-- Eight candidates scored, mask 5 the winner, as in program P5. -/
def scored1 : State := { placed1 with mcnt := 8, best := 5, minscore := 1, phase := .scoring }

/-- Phase COMMITTED of version 1 with the format value of program P1, mask 1. -/
def committed1 : State :=
  { patterned1 with
    phase := .committed, ecl := 1, mcnt := 8, best := 1, fmtraw := 0x0537, fmtval := 0x5125, fmtmask := 1, fmtValid := true }

/-! ## WellFormed: each check refuses an ill-formed term (R93) -/

theorem test_wellFormed_count_zero : (Instr.paypush 0 0).wellFormed = false := by decide
theorem test_wellFormed_count_seventeen : (Instr.paypush 17 0).wellFormed = false := by decide
theorem test_wellFormed_data_too_wide : (Instr.paypush 4 0x10).wellFormed = false := by decide
theorem test_wellFormed_edges : (Instr.paypush 1 1).wellFormed = true ∧ (Instr.paypush 16 0xFFFF).wellFormed = true := by decide

/-! ## Decode: words written out bit by bit from R91 to R94 and R96 (V40.1, V40.2) -/

theorem test_decode_control :
    decode 0b00000000_000000000000000000000000 = .ok .nop ∧ decode 0b00000001_000000000000000000000000 = .ok .reset
    ∧ decode 0b00000011_000000000000000000000000 = .ok .payclr ∧ decode 0b00010000_000000000000000000000000 = .ok .init := by
  decide

/-- `SETCFG 1, M`, `SETCFG 6, L`, `SETCFG 15, H`. -/
theorem test_decode_setcfg :
    decode 0b00000010_000000000000_0001_000000_01 = .ok (.setcfg 1 1)
    ∧ decode 0b00000010_000000000000_0110_000000_00 = .ok (.setcfg 6 0)
    ∧ decode 0b00000010_000000000000_1111_000000_11 = .ok (.setcfg 15 3) := by decide

/-- `PAYPUSH 16, 0x205B`, `PAYPUSH 10, 0x2D3`, and a count of 0, which still decodes (R93). -/
theorem test_decode_paypush :
    decode 0b00000100_000_10000_0010000001011011 = .ok (.paypush 16 0x205B)
    ∧ decode 0b00000100_000_01010_0000001011010011 = .ok (.paypush 10 0x2D3)
    ∧ decode 0b00000100_000_00000_0000000000000000 = .ok (.paypush 0 0) := by decide

theorem test_decode_passes :
    decode 0b00010001_000000000000000000000000 = .ok .ptiming ∧ decode 0b00010010_000000000000000000000000 = .ok .pfinder
    ∧ decode 0b00010011_000000000000000000000000 = .ok .psep ∧ decode 0b00010100_000000000000000000000000 = .ok .pfmtrsv
    ∧ decode 0b00010101_000000000000000000000000 = .ok .pverinfo := by decide

theorem test_decode_place_and_masks :
    decode 0b00100000_000000000000000000000000 = .ok .place ∧ decode 0b00110000_000000000000000000000000 = .ok .meval
    ∧ decode 0b00110001_000000000000000000000000 = .ok .mcommit := by decide

theorem test_decode_format_and_quiet_zone :
    decode 0b01000000_000000000000000000000_101 = .ok (.fmtenc 5) ∧ decode 0b01000001_000000000000000000000000 = .ok .fmtencw
    ∧ decode 0b01000010_000000000000000000000000 = .ok .fmtwrite ∧ decode 0b01010000_000000000000000000000000 = .ok .qzone := by
  decide

/-- V40.2: reserved bits and unassigned opcodes. -/
theorem test_decode_refuses :
    decode 0x00000001 = .error (.reservedBits 0x00) ∧ decode 0x60000000 = .error (.unassignedOpcode 0x60)
    ∧ decode 0xFFFFFFFF = .error (.unassignedOpcode 0xFF) ∧ decode 0x02001101 = .error (.reservedBits 0x02)
    ∧ decode 0x02000104 = .error (.reservedBits 0x02) ∧ decode 0x40000008 = .error (.reservedBits 0x40)
    ∧ decode 0x04200000 = .error (.reservedBits 0x04) := by decide

/-- V20.2: the byte lanes of `0x02000101`; a run of bytes that is not one word is refused (R62, R90). -/
theorem test_decode_lanes :
    decodeBytes [0x01, 0x01, 0x00, 0x02] = .ok (.setcfg 1 1) ∧ decodeBytes [0x01, 0x01] = .error (.notOneWord 2)
    ∧ decodeTableWord 32 0x02000101 = some (.setcfg 1 1) := by decide

/-! ## Commands -/

theorem test_nop : exec .nop (at_ 1 .placed) = .next (at_ 1 .placed) := by rfl

/-- P3 steps 2 and 6: RESET leaves `FAULT`. -/
theorem test_reset : (after .reset (after .init (at_ 7 .idle))).phase = .idle ∧ (after .reset (after .init (at_ 7 .idle))).version = 0
    ∧ (after .reset (after .init (at_ 7 .idle))).errCode = .noFault := by decide +kernel

/-- R126: `CFG = 0x00000101`; legal in `DONE`, not in `CLEARED`. -/
theorem test_setcfg : busRead (after (.setcfg 1 1) (at_ 6 .done)) 0x000C = some 0x101 ∧ (after (.setcfg 1 1) (at_ 6 .done)).phase = .idle
    ∧ (after (.setcfg 1 1) (at_ 6 .cleared)).errCode = .sequence := by decide +kernel

theorem test_payclr : (after .payclr { at_ 1 .done with pay := [true, false] }).pay = []
    ∧ (after .payclr { at_ 1 .done with pay := [true, false] }).phase = .done := by decide +kernel

/-- V40.3: `PAYPUSH 10, 0x2D3`. -/
theorem test_paypush_order : (after (.paypush 10 0x2D3) State.reset).pay =
    [true, false, true, true, false, true, false, false, true, true] := by decide +kernel

/-- V40.4: a full buffer refuses one more bit. -/
theorem test_paypush_full : (after (.paypush 1 1) { State.reset with pay := List.replicate 2048 true }).errCode = .operand
    ∧ (after (.paypush 1 1) { State.reset with pay := List.replicate 2048 true }).payLen = 2048
    ∧ (after (.paypush 1 1) { State.reset with pay := List.replicate 2047 true }).payLen = 2048 := by decide +kernel

/-- V40.5: `SETCFG 6, H ; INIT` and INIT straight after reset. -/
theorem test_init : (after .init (at_ 6 .idle)).phase = .cleared ∧ (after .init (at_ 6 .idle)).gs = 41
    ∧ (after .init State.reset).errCode = .unsupportedVersion ∧ (after .init State.reset).errInfo = 0x10000000 := by decide +kernel

/-- V41.2, first row. -/
theorem test_ptiming :
    cellsAt (after .ptiming (at_ 1 .cleared)) [(6, 6), (6, 0), (6, 1), (6, 7), (6, 8), (8, 6), (7, 7), (10, 6), (6, 13)] =
      [.black, .black, .white, .white, .black, .black, .unset, .black, .white] := by decide +kernel

/-- V41.2, second row, over an empty matrix: the clipped windows and their offset -1 and offset 6 cells. -/
theorem test_pfinder :
    cellsAt (after .pfinder (at_ 1 .timed)) [(6, 6), (6, 1), (7, 7), (0, 7), (7, 0), (13, 7), (13, 0), (7, 13), (0, 13), (20, 20)] =
      [.black, .black, .unset, .unset, .unset, .unset, .white, .unset, .white, .unset] := by decide +kernel

/-- V41.2, third row: `(7,7)`, `(0,7)` and `(7,0)` become White only now. -/
theorem test_psep :
    cellsAt (after .psep (at_ 1 .found)) [(7, 7), (0, 7), (7, 0), (13, 7), (13, 0), (7, 13), (8, 8), (9, 9)] =
      [.white, .white, .white, .white, .white, .white, .unset, .unset] := by decide +kernel

/-- S1 with the correction of C3: `(13,8)` is Black, `(14,8)` and `(8,8)` are reserved. -/
theorem test_pfmtrsv :
    cellsAt (after .pfmtrsv (at_ 1 .sepd)) [(13, 8), (14, 8), (8, 8), (8, 0), (8, 20), (20, 8), (8, 12), (9, 8)] =
      [.black, .reserved, .reserved, .reserved, .reserved, .reserved, .unset, .unset] := by decide +kernel

/-- V41.6, and R170's fault in a state no run reaches. -/
theorem test_pverinfo : (after .pverinfo (at_ 6 .rsvd)).phase = .patterned
    ∧ (after .pverinfo (at_ 7 .rsvd)).errCode = .unsupportedVersion := by decide +kernel

/-- V42.5: program P5's ten bits. -/
theorem test_place_short : (let t := after .place patterned1
    cellsAt t walkTen = [.black, .white, .black, .black, .white, .black, .white, .white, .black, .black]
    ∧ t.nplaced = 10 ∧ t.incomplete = true ∧ t.cell 15 20 = .unset ∧ t.flag 16 19 = true ∧ t.flag 15 20 = false) := by
  decide +kernel

/-- V42.4: 209 bits at version 1. -/
theorem test_place_too_long : (let t := after .place { patterned1 with pay := List.replicate 209 true }
    t.errCode = .payloadTooLong ∧ t.errPhase = .patterned ∧ t.phase = .fault ∧ t.nplaced = 0) := by decide +kernel

/-- V43.8: the first score of program P5's prefix under the black-count scorer. -/
theorem test_meval_first : (let t := after .meval placed1
    t.minscore = 109 ∧ t.best = 0 ∧ t.mcnt = 1) := by decide +kernel

/-- V43.3: the comparison is signed and strict; here `-1` against a minimum of 1, and a tie. -/
theorem test_meval_signed :
    (placed1.scored 0xFFFFFFFF 1).minscore = 0xFFFFFFFF
    ∧ ({ placed1 with mcnt := 1, minscore := 1 }.scored 0xFFFFFFFF 2).best = 1
    ∧ ({ placed1 with mcnt := 4, minscore := 0x80000000, best := 3 }.scored 0x80000000 5).best = 3 := by decide +kernel

/-- Program P5: mask 5 inverts `(18,20)` and `(18,19)` among the ten cells; V43.9: MCOMMIT after seven MEVAL. -/
theorem test_mcommit : cellsAt (after .mcommit scored1) walkTen =
      [.black, .white, .black, .black, .black, .white, .white, .white, .black, .black]
    ∧ (after .mcommit scored1).phase = .committed
    ∧ (after .mcommit { scored1 with mcnt := 7 }).errCode = .sequence := by decide +kernel

/-- S5 with the correction of C1, and V44.1 for `Q, 7`. -/
theorem test_fmtenc : (after (.fmtenc 5) { at_ 1 .idle with ecl := 1 }).fmtraw = 0x14DC
    ∧ (after (.fmtenc 5) { at_ 1 .idle with ecl := 1 }).fmtval = 0x40CE
    ∧ busRead (after (.fmtenc 7) { at_ 1 .idle with ecl := 2 }) 0x0028 = some 0x00072BED := by decide +kernel

/-- Program P1: level M, mask 1. -/
theorem test_fmtencw : (after .fmtencw { committed1 with fmtval := 0, fmtValid := false }).fmtval = 0x5125
    ∧ (after .fmtencw { committed1 with fmtval := 0, fmtValid := false }).fmtValid = true
    ∧ (after .fmtencw scored1).errCode = .sequence := by decide +kernel

/-- V44.4: row 8 of program P1, columns 0 to 8 and 13 to 20, and the two timing cells. -/
theorem test_fmtwrite :
    cellsAt (after .fmtwrite committed1) [(8, 0), (8, 1), (8, 2), (8, 3), (8, 4), (8, 5), (8, 6), (8, 7), (8, 8)] =
      [.black, .white, .black, .white, .white, .white, .black, .black, .white]
    ∧ cellsAt (after .fmtwrite committed1) [(8, 13), (8, 14), (8, 15), (8, 16), (8, 17), (8, 18), (8, 19), (8, 20), (6, 8), (13, 8)] =
      [.white, .white, .black, .white, .white, .black, .white, .black, .black, .black] := by decide +kernel

/-- V44.3, and V60.1 code 3: a table that holds `(21, 8)` at version 1. -/
theorem test_fmtwrite_faults : (after .fmtwrite { committed1 with fmtValid := false }).errCode = .sequence
    ∧ (after .fmtwrite { committed1 with collab := { standard with coordsList := [((21, 1, 0), (21, 8))] } }).errCode
        = .overlayOutOfBounds := by decide +kernel

/-- V45.1 and V45.3: border, centred cells, `Unset` beyond. -/
theorem test_qzone :
    [(0, 0), (22, 22), (1, 1), (14, 9), (23, 23), (42, 42)].map
        (fun p : Nat × Nat => (after .qzone { patterned1 with phase := .fmtWritten }).outCell p.1 p.2) =
      [.white, .white, .black, .black, .unset, .unset]
    ∧ (after .qzone committed1).errCode = .sequence := by decide +kernel

/-! ## Faults and the bus -/

/-- V60.3: the phase check comes before the operand check. -/
theorem test_fault_priority : (after (.paypush 0 0) (at_ 1 .cleared)).errCode = .sequence
    ∧ (after (.paypush 0 0) State.reset).errCode = .operand := by decide +kernel

/-- P3 steps 2 to 5: the register `ERR`, and a word that is discarded in `FAULT`. -/
theorem test_fault_registers : busRead (after .init (at_ 7 .idle)) 0x0008 = some 0x1F
    ∧ busRead (after .init (at_ 7 .idle)) 0x002C = some 1 ∧ busRead (after .init (at_ 7 .idle)) 0x0030 = some 0x10000000
    ∧ executeWord 0x01000001 (after .init (at_ 7 .idle)) = .next (after .init (at_ 7 .idle)) := by
  refine ⟨by decide +kernel, by decide +kernel, by decide +kernel, rfl⟩

/-- V20.1: the edges of the map. -/
theorem test_bus_edges :
    [0x0030, 0x1000, 0x2FFC, 0x40A0, 0x68A0, 0x80A8, 0xAAA8, 0xC0A0, 0xE8A0].all (fun a => (busRead State.reset a).isSome) = true
    ∧ [0x0034, 0x0FFC, 0x3000, 0x3FFC, 0x40A4, 0x6900, 0x80AC, 0xAB00, 0xC0A4, 0xE900, 0xFFFC, 0x0009, 0x4002].all
        (fun a => busRead State.reset a == none) = true := by decide +kernel

/-- V20.1: the identification word, a refused write and a refused half-word read, as steps. -/
theorem test_bus_steps :
    (stepped { State.reset with inputs := [.access (.read 4 0x0000)] }).reply = some (.data 0x51524D01)
    ∧ (stepped { State.reset with inputs := [.access (.write 4 0x0008 1)] }).reply = some .busError
    ∧ (stepped { State.reset with inputs := [.access (.read 2 0x0000)] }).reply = some .busError := by decide +kernel

/-- P7's third word as a step: `ERR = 0x00000107`. -/
theorem test_step_sequence_fault :
    busRead (stepped ((at_ 1 .cleared).withFetchWord 32 0x12000000)) 0x002C = some 0x107
    ∧ (stepped ((at_ 1 .cleared).withFetchWord 32 0x12000000)).reply = some .ack := by decide +kernel

/-- R102's examples. -/
theorem test_assembler_lines :
    assembleLine ['S', 'E', 'T', 'C', 'F', 'G', ' ', '1', ',', ' ', 'M'] = some [.setcfg 1 1]
    ∧ assembleLine ['F', 'M', 'T', 'E', 'N', 'C', ' ', '5', ' ', ';', ' ', 'x'] = some [.fmtenc 5]
    ∧ assembleLine ['P', 'A', 'Y', 'P', 'U', 'S', 'H', ' ', '1', '6', ',', ' ', '0', 'x', '2', '0', '5', 'B'] =
        some [.paypush 16 0x205B] := by decide +kernel

/-- R95: `PAYPUSH 4, 0b1011` appends 1, 0, 1, 1. -/
theorem test_assembler_binary :
    assembleLine ['P', 'A', 'Y', 'P', 'U', 'S', 'H', ' ', '4', ',', ' ', '0', 'b', '1', '0', '1', '1'] = some [.paypush 4 0xB]
    ∧ pushedBits 4 0xB = [true, false, true, true] := by decide +kernel

/-! ## A finished symbol, which meets every invariant -/

/-- A cell of the finished symbol. -/
def finishedGrid (r c : Nat) : Cell :=
  if r < 21 ∧ c < 21 then (if patternedCell 21 r c = .unset then .white else finishedCell 21 0x5125 r c) else .unset

/-- The data region of the finished symbol. -/
def finishedFlag (r c : Nat) : Bool := decide (r < 21 ∧ c < 21 ∧ patternedCell 21 r c = .unset)

/-- Its bordered output. -/
def finishedOut (r c : Nat) : Cell :=
  if r ≤ 22 ∧ c ≤ 22 then (if r = 0 ∨ r = 22 ∨ c = 0 ∨ c = 22 then .white else finishedGrid (r - 1) (c - 1)) else .unset

/-- A finished symbol of version 1, level M, mask 1: 208 payload bits, all `White` after masking. -/
def finished1 : State :=
  { at_ 1 .done with
    ecl := 1
    grid := planeBuild Config.gmax finishedGrid
    dflag := planeBuild Config.gmax finishedFlag
    pay := List.replicate 208 false
    nplaced := 208
    mcnt := 8
    minscore := 204
    best := 1
    fmtraw := 0x0537
    fmtval := 0x5125
    fmtmask := 1
    fmtValid := true
    out := planeBuild Config.omax finishedOut
    inputs := [commandInput 0x02000103] }

theorem finished1_cell {r c : Nat} (hr : r < Config.gmax) (hc : c < Config.gmax) : finished1.cell r c = finishedGrid r c := by
  change planeGet (planeBuild Config.gmax finishedGrid) r c .unset = _
  rw [planeGet_build, if_pos ⟨hr, hc⟩]

theorem finished1_flag {r c : Nat} (hr : r < Config.gmax) (hc : c < Config.gmax) : finished1.flag r c = finishedFlag r c := by
  change planeGet (planeBuild Config.gmax finishedFlag) r c false = _
  rw [planeGet_build, if_pos ⟨hr, hc⟩]

theorem finished1_control : finished1.ControlInv := by decide +kernel

theorem finished1_format : finished1.FormatInv := by decide +kernel

theorem finished1_cells : ∀ r < 41, ∀ c < 41,
    (21 ≤ r ∨ 21 ≤ c → finishedGrid r c = .unset ∧ finishedFlag r c = false)
    ∧ (finishedFlag r c = true → cellIsColour (finishedGrid r c) = true ∧ c ≠ 6) := by decide +kernel

theorem finished1_grid : finished1.GridInv := by
  intro r hr c hc
  rw [gridOk_iff, finished1_cell hr hc, finished1_flag hr hc]
  exact ⟨fun _ => (finished1_cells r hr c hc).1, (finished1_cells r hr c hc).2, fun h => absurd h (by decide)⟩

theorem finished1_flagCount : ((coords Config.gmax).filter fun p => finishedFlag p.1 p.2).length = 208 := by decide +kernel

theorem finished1_count : finished1.CountInv := by
  refine ⟨?_, fun h => absurd h (by decide)⟩
  have : (coords Config.gmax).filter (fun p => finished1.flag p.1 p.2) = (coords Config.gmax).filter fun p => finishedFlag p.1 p.2 :=
    List.filter_congr fun p hp => finished1_flag (mem_coords.1 hp).1 (mem_coords.1 hp).2
  change 208 = ((coords Config.gmax).filter (fun p => finished1.flag p.1 p.2)).length
  rw [this, finished1_flagCount]

theorem finished1_layers : ∀ r < 21, ∀ c < 21,
    (if finishedFlag r c = true then patternedCell 21 r c = .unset
      else finishedGrid r c = finishedCell 21 0x5125 r c) ∧ (patternedCell 21 r c = .unset → finishedFlag r c = true) := by decide +kernel

theorem finished1_layer : finished1.LayerInv := by
  intro r hr c hc
  have hr' : r < 21 := hr
  have hc' : c < 21 := hc
  change (!finished1.collab.standardPlacement || (if finished1.flag r c then patternedCell 21 r c == .unset
    else finished1.cell r c == finishedCell 21 (formatVal 1 1) r c)) = true
  rw [finished1_flag (by unfold Config.gmax; omega) (by unfold Config.gmax; omega), finished1_cell (by unfold Config.gmax; omega) (by unfold Config.gmax; omega), show formatVal 1 1 = 0x5125 by decide]
  have := (finished1_layers r hr' c hc').1
  split at this <;> simp_all

theorem finished1_complete : finished1.CompleteInv := by
  intro _ _ r hr c hc h
  have hr' : r < 21 := hr
  have hc' : c < 21 := hc
  rw [finished1_flag (by unfold Config.gmax; omega) (by unfold Config.gmax; omega)]
  exact (finished1_layers r hr' c hc').2 h

theorem finished1_out : finished1.OutInv := by
  intro _ r hr c hc
  have e : finished1.outCell r c = finishedOut r c := by
    change planeGet (planeBuild Config.omax finishedOut) r c .unset = _
    rw [planeGet_build, if_pos ⟨hr, hc⟩]
  have hg : finished1.gs = 21 := rfl
  rw [e, borderedCell, hg, finishedOut]
  unfold Config.omax at hr hc
  split
  next h =>
    split
    · rfl
    next h' => rw [finished1_cell (by unfold Config.gmax; omega) (by unfold Config.gmax; omega)]
  next h => rfl

/-! ## Witnesses: for each statement, a state and operands that meet its hypotheses together, clause by clause -/

/-- Phase `FAULT` after a sequence fault. -/
def faulted : State := { at_ 1 .fault with errCode := .sequence, errPhase := .cleared, errInfo := 0x12000000 }

theorem witness_EncodeOfDecode : decode 0x0410205B = .ok (.paypush 16 0x205B) := by decide

theorem witness_UnmatchedWordIsIllegal : (∀ row ∈ opcodeTable, 0x60000000#32 &&& row.mask ≠ row.value)
    ∧ State.reset.phase ≠ .fault ∧ faulted.phase = .fault := by decide

/-- A word that decodes, and one that does not, outside `FAULT` and in it. -/
theorem witness_StepRunsDecodedCommand :
    { at_ 1 .cleared with inputs := [commandInput 0x11000000] }.inputs = .access (.write 4 0x0004 0x11000000) :: []
    ∧ decode 0x11000000 = .ok .ptiming ∧ decode 0x60000000 = .error (.unassignedOpcode 0x60)
    ∧ (at_ 1 .cleared).phase ≠ .fault ∧ (at_ 1 .fault).phase = .fault := by decide

/-- A word read, a misaligned one, a half-word read, a write beside `CMD`, a wide write to `CMD`, and no input. -/
theorem witness_AccessesWithoutCommandChangeNothing :
    busRead (at_ 1 .idle) 0x0010 = some 21 ∧ busRead (at_ 1 .idle) 0x0011 = none ∧ (2 : Nat) ≠ 4
    ∧ (0x0008#16 : Addr) ≠ 0x0004 ∧ (8 : Nat) ≠ 4 ∧ (at_ 1 .idle).inputs = [] := by decide +kernel

theorem witness_ResetGivesResetValues :
    { at_ 1 .fault with inputs := [.resetPin, .resetPin] }.inputs = .resetPin :: [.resetPin] := by decide

theorem witness_SetcfgStoresConfiguration : (at_ 1 .idle).phase = .idle ∧ (at_ 6 .done).phase = .done := by decide

theorem witness_PayclrEmptiesPayload : (at_ 1 .idle).phase = .idle ∧ (at_ 6 .done).phase = .done := by decide

/-- 16 bits that fill the buffer, one bit; a count of 0, a count of 17, a bit too many, one push too many. -/
theorem witness_PaypushAppendsBits :
    (1 ≤ (16#5).toNat ∧ (16#5).toNat ≤ 16 ∧ (0xFFFF#16).toNat < 2 ^ (16#5).toNat ∧ (List.replicate 2032 true).length + (16#5).toNat ≤ 2048)
    ∧ (1 ≤ (1#5).toNat ∧ (1#5).toNat ≤ 16 ∧ (1#16).toNat < 2 ^ (1#5).toNat ∧ ([] : List Bool).length + (1#5).toNat ≤ 2048)
    ∧ ¬ 1 ≤ (0#5).toNat ∧ ¬ (17#5).toNat ≤ 16 ∧ ¬ (2#16).toNat < 2 ^ (1#5).toNat
    ∧ ¬ (List.replicate 2033 true).length + (16#5).toNat ≤ 2048 ∧ (at_ 1 .done).phase = .done := by decide +kernel

/-- The edges of the supported versions on both sides. -/
theorem witness_InitCreatesEmptyMatrix : (1 ≤ (at_ 1 .idle).version.toNat ∧ (at_ 6 .done).version.toNat ≤ 6)
    ∧ (at_ 0 .idle).version.toNat < 1 ∧ 6 < (at_ 7 .done).version.toNat ∧ (at_ 7 .done).phase = .done := by decide

/-- A list with a row that equals `gs`, and one that writes `(20, 20)` twice. -/
theorem witness_OverlayChecksThenWrites : (at_ 1 .cleared).gs ≤ 41
    ∧ (∃ t ∈ [((21 : Int), (0 : Int), Cell.black)], t.1 < 0 ∨ (((at_ 1 .cleared).gs : Nat) : Int) ≤ t.1 ∨ t.2.1 < 0
        ∨ (((at_ 1 .cleared).gs : Nat) : Int) ≤ t.2.1)
    ∧ (∀ t ∈ [((20 : Int), (20 : Int), Cell.black), (20, 20, Cell.white), (0, 0, Cell.black)],
        0 ≤ t.1 ∧ t.1 < (((at_ 1 .cleared).gs : Nat) : Int) ∧ 0 ≤ t.2.1 ∧ t.2.1 < (((at_ 1 .cleared).gs : Nat) : Int)) := by
  decide

theorem witness_TimingPass : (at_ 1 .cleared).phase = .cleared ∧ versionSupported (at_ 1 .cleared).version = true
    ∧ versionSupported (at_ 6 .cleared).version = true := by decide

theorem witness_FinderPass : (at_ 1 .timed).phase = .timed ∧ versionSupported (at_ 1 .timed).version = true
    ∧ versionSupported (at_ 6 .timed).version = true := by decide

theorem witness_SeparatorPass : (at_ 1 .found).phase = .found ∧ versionSupported (at_ 1 .found).version = true
    ∧ versionSupported (at_ 6 .found).version = true := by decide

theorem witness_ReservationPass : (at_ 1 .sepd).phase = .sepd ∧ versionSupported (at_ 1 .sepd).version = true
    ∧ versionSupported (at_ 6 .sepd).version = true := by decide

theorem witness_VersionInformationPass : (at_ 6 .rsvd).phase = .rsvd ∧ (at_ 6 .rsvd).version.toNat ≤ 6
    ∧ 7 ≤ (at_ 7 .rsvd).version.toNat := by decide

theorem witness_FivePassesGivePatternedMatrix : (at_ 1 .cleared).phase = .cleared
    ∧ versionSupported (at_ 1 .cleared).version = true
    ∧ ∀ r < (at_ 1 .cleared).gs, ∀ c < (at_ 1 .cleared).gs, (at_ 1 .cleared).cell r c = .unset :=
  ⟨by decide, by decide, fun r _ c _ => by simp [at_, State.cell]⟩

theorem patterned1_cells : ∀ r < patterned1.gs, ∀ c < patterned1.gs, patterned1.cell r c = patternedCell patterned1.gs r c := by
  intro r hr c hc
  have hg : patterned1.gs = 21 := rfl
  rw [hg] at hr hc ⊢
  change planeGet (planeBuild Config.gmax patternedGrid) r c .unset = _
  rw [planeGet_build, if_pos (by unfold Config.gmax; omega), patternedGrid, if_pos ⟨hr, hc⟩]

/-- Sweeps of R184 at version 1, as lists of where they begin and end: sweep 0 up, 1 down, 7 shifted and down, 9 the last. -/
theorem witness_WalkVisitsEachCellOnce : (1 ≤ 1 ∧ 6 ≤ 6) ∧ 9 < (gridSize 1 - 1) / 2 ∧ 20 < gridSize 1
    ∧ (walk 21)[0]? = some (20, 20) ∧ (walk 21)[1]? = some (20, 19) ∧ (walk 21)[41]? = some (0, 19)
    ∧ (walk 21)[42]? = some (0, 18) ∧ (walk 21)[83]? = some (20, 17) ∧ (walk 21)[294]? = some (0, 5)
    ∧ (walk 21)[335]? = some (20, 4) ∧ (walk 21)[419]? = some (20, 0) := by decide +kernel

theorem witness_FreeCellsAreCapacity : versionSupported patterned1.version = true
    ∧ ∀ r < patterned1.gs, ∀ c < patterned1.gs, patterned1.cell r c = patternedCell patterned1.gs r c :=
  ⟨by decide, patterned1_cells⟩

/-- An exact fit and one bit more; bit 0 and its cell. -/
theorem witness_PlacePutsBitsInWalkOrder : patterned1.phase = .patterned ∧ versionSupported patterned1.version = true
    ∧ (List.replicate 208 true).length ≤ (freeCells patterned1).length
    ∧ (freeCells patterned1).length < (List.replicate 209 true).length
    ∧ patterned1.pay[0]? = some true ∧ (freeCells patterned1)[0]? = some (20, 20) := by decide +kernel

/-- The standard masks answer 0 or 1 everywhere. -/
theorem masksAnswer_standard {s : State} (h : s.collab = standard) (k : Nat) : s.masksAnswer k := by
  intro r _ c _ _
  rw [h]
  change Config.Answer.int (if standardMask k r c then 1 else 0) = .int 0 ∨ Config.Answer.int (if standardMask k r c then 1 else 0) = .int 1
  cases standardMask k r c <;> simp

theorem standard_score (gs : Nat) (cand : List Cell) : standard.scoreAnswer gs cand = .int ((cand.count .black : Nat) : Int) := rfl

theorem listed_score (gs : Nat) (cand : List Cell) (a : Config.Answer) :
    Collab.scoreAnswer { standard with scoreList := [((gs, cand), a)] } gs cand = a := by simp [Collab.scoreAnswer]

theorem listed_scores (gs : Nat) {a b : List Cell} (h : b ≠ a) (x y : Config.Answer) :
    Collab.scoreAnswer { standard with scoreList := [((gs, a), x), ((gs, b), y)] } gs a = x
    ∧ Collab.scoreAnswer { standard with scoreList := [((gs, a), x), ((gs, b), y)] } gs b = y := by
  have e : ((gs, b) == (gs, a)) = false := by simpa using h
  simp [Collab.scoreAnswer, List.lookup, e]

theorem placed1_count_le (k : Nat) : (placed1.candidate k).count .black ≤ 441 := by
  have := List.count_le_length (a := Cell.black) (l := placed1.candidate k)
  rwa [length_candidate, show placed1.gs = 21 from rfl] at this

/-- The first candidate; then, for a later one, a minimum of 442 that its score beats and one of 0 that it does not. -/
theorem witness_MevalKeepsRunningMinimum : placed1.phase = .placed ∧ versionSupported placed1.version = true
    ∧ placed1.mcnt.val < 8 ∧ placed1.masksAnswer 0 ∧ placed1.isCandidate 0 (placed1.candidate 0)
    ∧ ∃ n, standard.scoreAnswer 21 (placed1.candidate 0) = .int n ∧ -2 ^ 31 ≤ n ∧ n < 2 ^ 31 ∧ n < (442#32).toInt
      ∧ (0#32).toInt ≤ n :=
  ⟨rfl, by decide, by decide, masksAnswer_standard rfl 0, isCandidate_candidate (masksAnswer_standard (s := placed1) rfl 0), _,
    standard_score _ _, by omega, by have := placed1_count_le 0; omega, by
      have := placed1_count_le 0
      rw [show (442#32).toInt = 442 by decide]; omega, by rw [show (0#32).toInt = 0 by decide]; omega⟩

/-- A ninth MEVAL; a mask that answers 2 at a data cell; a scorer that answers `err`, and a score one above the range. -/
theorem witness_MevalFaults : { placed1 with mcnt := 8 }.mcnt.val = 8 ∧ placed1.flag 20 20 = true
    ∧ Collab.maskAnswer { standard with maskList := [((0, 20, 20), .int 2)] } 0 20 20 = .int 2
    ∧ placed1.isCandidate 0 (placed1.candidate 0)
    ∧ Collab.scoreAnswer { standard with scoreList := [((21, placed1.candidate 0), .err)] } 21 (placed1.candidate 0) = .err
    ∧ Collab.scoreAnswer { standard with scoreList := [((21, placed1.candidate 0), .int (2 ^ 31))] } 21 (placed1.candidate 0)
        = .int (2 ^ 31) :=
  ⟨rfl, by decide +kernel, by decide, isCandidate_candidate (masksAnswer_standard (s := placed1) rfl 0), listed_score _ _ _,
    listed_score _ _ _⟩

theorem witness_WinnerIsLeastIndexOfMinimum : placed1.phase = .placed ∧ placed1.mcnt.val = 0
    ∧ versionSupported placed1.version = true ∧ ∀ k < 8, placed1.candScore k = some ((placed1.candScore k).getD 0) := by
  refine ⟨rfl, rfl, by decide, fun k _ => ?_⟩
  have hl := placed1_count_le k
  have e : placed1.collab.scoreAnswer placed1.gs (placed1.candidate k) = .int (((placed1.candidate k).count .black : Nat) : Int) :=
    standard_score _ _
  rw [candScore_of_answers (masksAnswer_standard (s := placed1) rfl k), e, scoreWord_of_range (by omega) (by omega),
    Option.getD_some]

theorem witness_McommitAppliesWinner : scored1.phase = .scoring ∧ scored1.version = 1 ∧ scored1.mcnt.val = 8
    ∧ scored1.masksAnswer scored1.best.toNat ∧ { scored1 with mcnt := 7 }.mcnt.val < 8
    ∧ scored1.flag 20 20 = true ∧ Collab.maskAnswer { standard with maskList := [((5, 20, 20), .err)] } 5 20 20 = .err :=
  ⟨rfl, rfl, rfl, masksAnswer_standard rfl _, by decide, by decide +kernel, by decide⟩

theorem witness_FmtencProbes : (at_ 1 .idle).phase ≠ .fault := by decide

theorem witness_FmtencwEncodesWinner : committed1.phase = .committed := by decide

theorem witness_FmtwriteStandardPlacement : committed1.phase = .committed ∧ versionSupported committed1.version = true
    ∧ committed1.fmtValid = true ∧ committed1.collab.standardPlacement = true
    ∧ { committed1 with fmtValid := false }.fmtValid = false := by decide

/-- A table whose first cell is just outside the grid; the standard table, which is inside; and a table that names `(0, 8)`
for bits 0 and 14, where bit 14 is the greatest. -/
theorem witness_FmtwriteAnyPlacement :
    (Collab.coordsOf { standard with coordsList := [((21, 2, 14), (0, 8))] } 21 1 0 = (0, 8)
      ∧ Collab.coordsOf { standard with coordsList := [((21, 2, 14), (0, 8))] } 21 2 14 = (0, 8)) ∧
    inGrid 21 (Collab.coordsOf { standard with coordsList := [((21, 1, 0), (21, 8))] } 21 1 0).1
        (Collab.coordsOf { standard with coordsList := [((21, 1, 0), (21, 8))] } 21 1 0).2 = false
    ∧ (∀ i < 15, ∀ k ∈ [1, 2], inGrid 21 (standard.coordsOf 21 k i).1 (standard.coordsOf 21 k i).2 = true) := by decide +kernel

/-- In a symbol at `COMMITTED` FMTWRITE completes. -/
theorem witness_StandardPlacementStaysInGrid : committed1.collab.standardPlacement = true ∧ committed1.ControlInv
    ∧ committed1.errCode ≠ .overlayOutOfBounds ∧ exec .fmtencw committed1 = .next (committed1.formatted 1 true) :=
  ⟨by decide, by decide +kernel, by decide, rfl⟩

theorem witness_QzoneBordersGrid : (at_ 1 .fmtWritten).phase = .fmtWritten ∧ versionSupported (at_ 1 .fmtWritten).version = true
    ∧ versionSupported (at_ 6 .fmtWritten).version = true := by decide

theorem witness_SequenceFaults : (at_ 1 .cleared).phase ≠ .fault ∧ legalCommands (at_ 1 .cleared).phase .pfinder = false
    ∧ versionSupported (at_ 1 .scoring).version = true ∧ { at_ 1 .scoring with mcnt := 8 }.mcnt.val = 8
    ∧ { at_ 1 .scoring with mcnt := 7 }.mcnt.val < 8 ∧ (at_ 1 .committed).fmtValid = false := by decide

theorem witness_FaultEntryWritesFourItems : (at_ 1 .cleared).phase ≠ .fault
    ∧ executeWord 0x12000000 (at_ 1 .cleared) = .next ((at_ 1 .cleared).takeFault .sequence 0x12000000) := ⟨by decide, rfl⟩

theorem witness_FaultPhaseDiscardsWords : faulted.phase = .fault ∧ (0x01000001#32 : Word) ≠ 0x01000000
    ∧ { faulted with inputs := [commandInput 0x01000001] }.inputs = .access (.write 4 0x0004 0x01000001) :: [] := by decide

/-- Both ways out of `FAULT`. -/
theorem witness_OnlyResetLeavesFault : faulted.phase = .fault
    ∧ (stepped { faulted with inputs := [commandInput 0x01000000] }).phase = .idle
    ∧ (stepped { faulted with inputs := [.resetPin] }).phase = .idle := by decide

theorem witness_PhaseMovesByTheTable : exec .payclr finished1 = .next { finished1 with pay := [] }
    ∧ { finished1 with pay := [] }.phase ≠ .fault := ⟨rfl, by decide⟩

theorem witness_CommandsWriteOnlyTheirWriteSet : exec .payclr finished1 = .next { finished1 with pay := [] }
    ∧ exec .place finished1 = .next (finished1.takeFault .sequence 0x20000000) := ⟨rfl, rfl⟩

/-- One step of the finished symbol: `SETCFG 1, H` in `DONE`. -/
theorem finished1_step : step finished1 =
    .next { finished1 with ecl := 3, phase := .idle, inputs := [], reply := some .ack } := rfl

/-- Two candidates scored 210 and 204 (R210's example): the second is the best so far. The host writes NOP next. -/
def scoring1 : State :=
  { placed1 with
    phase := .scoring, mcnt := 2, minscore := 204, best := 1, inputs := [commandInput 0x00000000]
    collab := { standard with scoreList := [((21, placed1.candidate 0), .int 210), ((21, placed1.candidate 1), .int 204)] } }

theorem scoring1_masks (k : Nat) : scoring1.masksAnswer k := masksAnswer_standard (s := placed1) rfl k

theorem scoring1_listed : scoring1.collab.scoreAnswer 21 (scoring1.candidate 0) = .int 210
    ∧ scoring1.collab.scoreAnswer 21 (scoring1.candidate 1) = .int 204 :=
  listed_scores 21 (a := placed1.candidate 0) (b := placed1.candidate 1) (by decide +kernel) _ _

theorem scoring1_score0 : scoring1.candScore 0 = some 210 :=
  (candScore_of_answers (scoring1_masks 0)).trans (congrArg scoreWord scoring1_listed.1)

theorem scoring1_score1 : scoring1.candScore 1 = some 204 :=
  (candScore_of_answers (scoring1_masks 1)).trans (congrArg scoreWord scoring1_listed.2)

theorem scoring1_winner : scoring1.WinnerInv := by
  have key : ∀ k < 2, ∀ n, scoring1.hasScore k n → n = if k = 0 then 210 else 204 := by
    intro k hk n h
    obtain ⟨v, hv, rfl⟩ := hasScore_iff.1 h
    interval_cases k
    · rw [scoring1_score0] at hv; obtain rfl := Option.some.inj hv; rfl
    · rw [scoring1_score1] at hv; obtain rfl := Option.some.inj hv; rfl
  intro _
  refine ⟨fun k hk => ?_, by decide, hasScore_iff.2 ⟨_, scoring1_score1, rfl⟩, fun k hk n h => ?_⟩
  · have hk' : k < 2 := hk
    interval_cases k
    · exact ⟨_, hasScore_iff.2 ⟨_, scoring1_score0, rfl⟩⟩
    · exact ⟨_, hasScore_iff.2 ⟨_, scoring1_score1, rfl⟩⟩
  · have hk' : k < 2 := hk
    rw [key k hk' n h]
    interval_cases k <;> decide

theorem witness_StepKeepsWinner : scoring1.ControlInv ∧ scoring1.WinnerInv ∧ ∃ t, step scoring1 = .next t :=
  ⟨by decide +kernel, scoring1_winner, _, rfl⟩

theorem witness_StepKeepsControlState : finished1.ControlInv ∧ ∃ t, step finished1 = .next t :=
  ⟨finished1_control, _, finished1_step⟩

theorem witness_NoStepStops : finished1.ControlInv := finished1_control

theorem witness_StepKeepsFormatRegisters : finished1.ControlInv ∧ finished1.FormatInv ∧ ∃ t, step finished1 = .next t :=
  ⟨finished1_control, finished1_format, _, finished1_step⟩

theorem witness_StepKeepsGridShape : finished1.ControlInv ∧ finished1.GridInv ∧ ∃ t, step finished1 = .next t :=
  ⟨finished1_control, finished1_grid, _, finished1_step⟩

theorem witness_StepKeepsPlacedCount : finished1.ControlInv ∧ finished1.GridInv ∧ finished1.CountInv
    ∧ ∃ t, step finished1 = .next t := ⟨finished1_control, finished1_grid, finished1_count, _, finished1_step⟩

theorem witness_StepKeepsLayers : finished1.ControlInv ∧ finished1.FormatInv ∧ finished1.GridInv ∧ finished1.LayerInv
    ∧ ∃ t, step finished1 = .next t := ⟨finished1_control, finished1_format, finished1_grid, finished1_layer, _, finished1_step⟩

theorem witness_StepKeepsCompleteness : finished1.ControlInv ∧ finished1.GridInv ∧ finished1.LayerInv ∧ finished1.CompleteInv
    ∧ ∃ t, step finished1 = .next t := ⟨finished1_control, finished1_grid, finished1_layer, finished1_complete, _, finished1_step⟩

theorem witness_StepKeepsOutput : finished1.ControlInv ∧ finished1.OutInv ∧ ∃ t, step finished1 = .next t :=
  ⟨finished1_control, finished1_out, _, finished1_step⟩

theorem witness_FinishedSymbolIsColours : finished1.ControlInv ∧ finished1.GridInv ∧ finished1.LayerInv ∧ finished1.CompleteInv
    ∧ finished1.OutInv ∧ finished1.phase = .done ∧ finished1.incomplete = false ∧ finished1.collab.standardPlacement = true :=
  ⟨finished1_control, finished1_grid, finished1_layer, finished1_complete, finished1_out, rfl, rfl, rfl⟩

/-- A payload that just fits the buffer. -/
theorem witness_PseudoCommandsExpand : (at_ 1 .idle).phase = .idle
    ∧ { at_ 1 .idle with pay := List.replicate 2031 true }.pay.length + (List.replicate 17 false).length ≤ 2048 := by decide +kernel

/-- An exact fit at version 1 and at version 6. -/
theorem witness_AssembleReachesDone :
    (at_ 1 .idle).phase = .idle ∧ versionSupported (at_ 1 .idle).version = true
    ∧ (at_ 1 .idle).pay.length ≤ capacity (at_ 1 .idle).version.toNat
    ∧ (∀ k < 8, ∀ r < (at_ 1 .idle).gs, ∀ c < (at_ 1 .idle).gs,
        (at_ 1 .idle).collab.maskAnswer k r c = .int 0 ∨ (at_ 1 .idle).collab.maskAnswer k r c = .int 1)
    ∧ (∀ cand : List Cell, cand.length = (at_ 1 .idle).gs * (at_ 1 .idle).gs →
        ∃ n : Int, (at_ 1 .idle).collab.scoreAnswer (at_ 1 .idle).gs cand = .int n ∧ -2 ^ 31 ≤ n ∧ n ≤ 2 ^ 31 - 1)
    ∧ (∀ i < 15, ∀ k, k = 1 ∨ k = 2 → inGrid (at_ 1 .idle).gs ((at_ 1 .idle).collab.coordsOf (at_ 1 .idle).gs k i).1
        ((at_ 1 .idle).collab.coordsOf (at_ 1 .idle).gs k i).2 = true) := by
  refine ⟨rfl, by decide, by decide, by decide +kernel, fun cand h => ?_, ?_⟩
  · have hg : (at_ 1 .idle).gs = 21 := by decide
    rw [hg] at h
    have hc : cand.count .black ≤ cand.length := List.count_le_length
    exact ⟨cand.count .black, rfl, by omega, by omega⟩
  · rintro i hi k (rfl | rfl) <;> revert i <;> decide +kernel

end Sys2Proof.Tests
end

namespace Sys2Proof.Machine

/-! PROOFS. The state and its invariants (10_state.md): what every rule leaves of the state, the table of phases, then the
control invariant, the format registers, the shape of the arrays, the count of data cells, the finished symbol, the registers
on the bus and the reset state. Each invariant is the four goals of `step_keeps`. -/

/-! ## What a rule leaves -/

section Rule

variable {i : Instr} {s t : State}

/-- A rule leaves every item that is not in the command's write set (R41). -/
theorem bodyOf_same (hi : i ≠ .reset) (h : bodyOf i s = .ok t) {x : Item} (hx : x ∉ writeSet i) : sameItem x s t :=
  (bodyOf_frame hi h).1 x hx

theorem bodyOf_phase (hi : i ≠ .reset) (h : bodyOf i s = .ok t) : t.phase = (entersPhase i).getD s.phase :=
  (bodyOf_frame hi h).2.1

/-- A rule that does not fault does not enter `FAULT`, so the phase it enters is the one whose pass left the arrays. -/
theorem bodyOf_passPhase (hi : i ≠ .reset) (hp : s.phase ≠ .fault) (h : bodyOf i s = .ok t) :
    t.passPhase = (entersPhase i).getD s.phase := by
  have ht := bodyOf_phase hi h
  rw [passPhase_of_ne (ht ▸ entersPhase_ne_fault hp), ht]

end Rule

/-! ## The table of phases, read from the phase that a command enters -/

/-- The arrays hold a symbol after a command only if INIT made it or they held it before, under the same version. -/
theorem matrixPhase_before {i : Instr} {p : Phase} (hl : legalIn i p = true)
    (hm : matrixPhase ((entersPhase i).getD p) = true) : i = .init ∨ matrixPhase p = true ∧ Item.version ∉ writeSet i := by
  cases i <;> cases p <;> simp [legalIn, entersPhase, matrixPhase, writeSet] at hl hm ⊢

/-- Only INIT leads into the phases before PLACE. -/
theorem beforePlacement_before {i : Instr} {p : Phase} (hl : legalIn i p = true)
    (hb : beforePlacement ((entersPhase i).getD p) = true) : i = .init ∨ beforePlacement p = true := by
  cases i <;> cases p <;> simp [legalIn, entersPhase, beforePlacement] at hl hb ⊢

/-- Only PLACE leads into the phases `PLACED` to `FMTWRITTEN`, and none of their commands writes the payload. -/
theorem placedPhase_before {i : Instr} {p : Phase} (hl : legalIn i p = true)
    (hb : placedPhase ((entersPhase i).getD p) = true) : i = .place ∨ placedPhase p = true ∧ Item.pay ∉ writeSet i := by
  cases i <;> cases p <;> simp [legalIn, entersPhase, placedPhase, writeSet] at hl hb ⊢

/-- A command that leaves `MCNT` and makes no demand on it enters a phase that allows the same values (R200). -/
theorem mcntAllowed_entered {i : Instr} {p : Phase} {n : Nat} (hl : legalIn i p = true) (hn : mcntAllowed p n = true)
    (hi : i ≠ .init ∧ i ≠ .meval ∧ i ≠ .mcommit) : mcntAllowed ((entersPhase i).getD p) n = true := by
  cases i <;> cases p <;> simp_all [legalIn, entersPhase, mcntAllowed]

/-! ## The control invariant -/

/-- A rule run in a state under the control invariant leaves a supported version wherever the arrays hold a symbol. -/
theorem bodyOf_versionSupported {i : Instr} {s t : State} (hs : s.ControlInv) (hi : i ≠ .reset) (hp : s.phase ≠ .fault)
    (hl : legalIn i s.phase = true) (hb : bodyOf i s = .ok t) (hm : matrixPhase t.passPhase = true) :
    versionSupported t.version = true := by
  rw [bodyOf_passPhase hi hp hb] at hm
  rcases matrixPhase_before hl hm with rfl | ⟨hm, hv⟩
  · obtain ⟨hv, rfl⟩ := initBody_ok_iff.1 hb
    simpa using hv
  · have hv : t.version = s.version := bodyOf_same hi hb hv
    rw [hv]
    exact hs.1 (passPhase_of_ne hp ▸ hm)

/-- INIT sets `MCNT` to 0, MEVAL adds 1, MCOMMIT asks for 8, and the other rules leave it (R130, R200, R210, R214). -/
theorem bodyOf_mcntAllowed {i : Instr} {s t : State} (hs : mcntAllowed s.phase s.mcnt.val = true) (hi : i ≠ .reset)
    (hl : legalIn i s.phase = true) (hb : bodyOf i s = .ok t) : mcntAllowed ((entersPhase i).getD s.phase) t.mcnt.val = true := by
  have keep : Item.mcnt ∉ writeSet i → i ≠ .init ∧ i ≠ .meval ∧ i ≠ .mcommit →
      mcntAllowed ((entersPhase i).getD s.phase) t.mcnt.val = true := fun hw hn => by
    have ht : t.mcnt = s.mcnt := bodyOf_same hi hb hw
    exact ht ▸ mcntAllowed_entered hl hs hn
  cases i with
  | init =>
    obtain ⟨-, rfl⟩ := initBody_ok_iff.1 hb
    rfl
  | meval =>
    obtain ⟨-, v, -, rfl⟩ := mevalBody_ok_iff.1 hb
    simp [entersPhase, mcntAllowed]
  | mcommit =>
    obtain ⟨h8, -, rfl⟩ := mcommitBody_ok_iff.1 hb
    simp [entersPhase, mcntAllowed, h8]
  | reset => exact absurd rfl hi
  | _ => exact keep (by simp [writeSet]) (by simp)

@[simp] theorem length_pushedBits (n : BitVec 5) (data : BitVec 16) : (pushedBits n data).length = n.toNat := by
  simp [pushedBits]

/-- PAYPUSH checks the room in the buffer, and no other rule adds a bit (R128). -/
theorem bodyOf_payLen {i : Instr} {s t : State} (hs : s.payLen ≤ Config.payMax) (hi : i ≠ .reset) (hb : bodyOf i s = .ok t) :
    t.payLen ≤ Config.payMax := by
  have keep : Item.pay ∉ writeSet i → t.payLen ≤ Config.payMax := fun hw => by
    have ht : t.pay = s.pay := bodyOf_same hi hb hw
    rwa [State.payLen, ht]
  cases i with
  | payclr =>
    obtain rfl := Except.ok.inj hb
    exact Nat.zero_le _
  | paypush n data =>
    obtain ⟨hr, rfl⟩ := paypushBody_ok_iff.1 hb
    simp only [pushRefused, Bool.or_eq_false_iff, decide_eq_false_iff_not, not_lt] at hr
    simpa [State.payLen] using hr.2
  | reset => exact absurd rfl hi
  | _ => exact keep (by simp [writeSet])

/-- No rule but the reset's writes the record of a fault (R41, R280). -/
theorem errItem_not_mem_writeSet {i : Instr} (hi : i ≠ .reset) : Item.errCode ∉ writeSet i ∧ Item.errPhase ∉ writeSet i := by
  cases i with
  | reset => exact absurd rfl hi
  | _ => simp [writeSet]

theorem controlInv_resetBlock (s : State) : s.resetBlock.ControlInv := by
  simp [State.ControlInv, matrixPhase, mcntAllowed, State.payLen]

theorem controlInv_takeFault {s : State} (hs : s.ControlInv) (hp : s.phase ≠ .fault) {f : ErrCode} (w : Word) (h0 : f ≠ .noFault)
    (h2 : f ≠ .nonSquareMatrix) : (s.takeFault f w).ControlInv := by
  obtain ⟨hv, hm, hl, -, -, -⟩ := hs
  simp only [State.ControlInv, passPhase_takeFault _ _ _ hp]
  exact ⟨hv, hm, hl, ⟨fun _ => rfl, fun _ => h0⟩, h2, hp⟩

/-- The six clauses of the control invariant, each from what the rules do to its items. -/
theorem controlInv_body {i : Instr} {s t : State} (hs : s.ControlInv) (hi : i ≠ .reset) (hp : s.phase ≠ .fault)
    (hl : legalIn i s.phase = true) (hb : bodyOf i s = .ok t) : t.ControlInv := by
  obtain ⟨-, hm, hpay, herr, h2, hep⟩ := id hs
  have hpass := bodyOf_passPhase hi hp hb
  have hcode : t.errCode = s.errCode := bodyOf_same hi hb (errItem_not_mem_writeSet hi).1
  have hphase : t.errPhase = s.errPhase := bodyOf_same hi hb (errItem_not_mem_writeSet hi).2
  have hnf : t.phase ≠ .fault := bodyOf_phase hi hb ▸ entersPhase_ne_fault hp
  refine ⟨bodyOf_versionSupported hs hi hp hl hb, ?_, bodyOf_payLen hpay hi hb, ?_, hcode ▸ h2, hphase ▸ hep⟩
  · rw [hpass]
    exact bodyOf_mcntAllowed (passPhase_of_ne hp ▸ hm) hi hl hb
  · rw [hcode]
    exact iff_of_false (mt herr.1 hp) hnf

/-- Settles O48: fault entry, reset and the rule of every command keep the control invariant, which does not speak of the bus. -/
theorem stepKeepsControlState : Obligations.StepKeepsControlState := by
  unfold Obligations.StepKeepsControlState
  intro s t hs h
  exact step_keeps (P := State.ControlInv) (fun _ _ _ hs => hs) (fun s _ => controlInv_resetBlock s)
    (fun _ _ w hs hp h0 h2 => controlInv_takeFault hs hp w h0 h2)
    (fun _ _ _ hs hi hp hl _ hb => controlInv_body hs hi hp hl hb) hs h

/-! ## The format registers -/

/-- `CLEARED` to `SCORING`, the phases in which the third clause of the format invariant asks for `FMT_VALID = 0`. -/
abbrev beforeCommit (p : Phase) : Prop := beforePlacement p = true ∨ p = .placed ∨ p = .scoring

/-- Only INIT leads into the phases before MCOMMIT. -/
theorem beforeCommit_before {i : Instr} {p : Phase} (hl : legalIn i p = true) (hb : beforeCommit ((entersPhase i).getD p)) :
    i = .init ∨ beforeCommit p := by
  cases i <;> cases p <;> simp [legalIn, entersPhase, beforeCommit, beforePlacement] at hl hb ⊢

/-- The mask id is bits 12:10 of the code word (R234, R236). -/
theorem formatRaw_mask (e : BitVec 2) (m : BitVec 3) : (formatRaw e m).extractLsb' 10 3 = m := by
  revert e m; decide

/-- `FMTRAW`, `FMTVAL` and `FMTMASK` as FMTENC and FMTENCW write them together (R34). -/
theorem formatted_consistent (s : State) (m : BitVec 3) (b : Bool) :
    (s.formatted m b).fmtval = (s.formatted m b).fmtraw ^^^ Config.fmtXor
      ∧ (s.formatted m b).fmtraw.extractLsb' 10 3 = (s.formatted m b).fmtmask :=
  ⟨rfl, formatRaw_mask s.ecl m⟩

/-- With `FMT_VALID = 0` the format invariant is the consistency of the three registers (R34). -/
theorem formatInv_of_invalid {s t : State} (hs : s.FormatInv) (hr : t.fmtraw = s.fmtraw) (hv : t.fmtval = s.fmtval)
    (hm : t.fmtmask = s.fmtmask) (h0 : t.fmtValid = false) : t.FormatInv := by
  obtain ⟨hreg, -, -⟩ := hs
  rw [← hr, ← hv, ← hm] at hreg
  exact ⟨hreg, fun h => absurd h (by simp [h0]), fun _ => h0⟩

/-- The format invariant speaks of the four format items, and of the winner and the level while the arrays hold a symbol. -/
theorem formatInv_of_same {s t : State} (hs : s.FormatInv) (hr : t.fmtraw = s.fmtraw) (hv : t.fmtval = s.fmtval)
    (hm : t.fmtmask = s.fmtmask) (h0 : t.fmtValid = s.fmtValid)
    (hw : matrixPhase t.passPhase = true →
      matrixPhase s.passPhase = true ∧ t.ecl = s.ecl ∧ t.best = s.best ∧ t.mcnt = s.mcnt)
    (hb : beforeCommit t.passPhase → beforeCommit s.passPhase) : t.FormatInv := by
  obtain ⟨hreg, hwin, hbefore⟩ := hs
  simp only [State.FormatInv, hr, hv, hm, h0]
  refine ⟨hreg, fun h1 h2 => ?_, fun h => hbefore (hb h)⟩
  obtain ⟨hp, he, hbest, hcnt⟩ := hw h2
  rw [he, hbest, hcnt]
  exact hwin h1 hp

theorem formatInv_resetBlock (s : State) : s.resetBlock.FormatInv := by
  simp [State.FormatInv]

theorem formatInv_takeFault {s : State} (hs : s.FormatInv) (hp : s.phase ≠ .fault) (f : ErrCode) (w : Word) :
    (s.takeFault f w).FormatInv :=
  formatInv_of_same hs rfl rfl rfl rfl (fun h => ⟨passPhase_takeFault s f w hp ▸ h, rfl, rfl, rfl⟩)
    (fun h => passPhase_takeFault s f w hp ▸ h)

/-- FMTENCW is legal in `COMMITTED` only, where `MCNT = 8`: the value it computes is the committed winner's (R240). -/
theorem formatInv_fmtencw {s : State} (hc : s.ControlInv) (hp : s.phase = .committed) : (s.formatted s.best true).FormatInv := by
  have hpass : s.passPhase = .committed := by simp [State.passPhase, hp]
  obtain ⟨-, hcnt, -⟩ := hc
  rw [hpass] at hcnt
  refine ⟨.inl (formatted_consistent s s.best true), fun _ _ => ⟨hcnt, rfl, rfl, rfl⟩, fun h => ?_⟩
  rw [show (s.formatted s.best true).passPhase = .committed from hpass] at h
  simp [beforePlacement] at h

/-- MEVAL changes the winner while `FMT_VALID = 0`, FMTENC and FMTENCW write the format items, SETCFG writes the level and
leads to `IDLE`; the other rules but INIT's leave the format items, the level and the winner. -/
theorem formatInv_body {i : Instr} {s t : State} (hc : s.ControlInv) (hs : s.FormatInv) (hi : i ≠ .reset) (hp : s.phase ≠ .fault)
    (hl : legalIn i s.phase = true) (hb : bodyOf i s = .ok t) : t.FormatInv := by
  have hpass := bodyOf_passPhase hi hp hb
  have hsp := passPhase_of_ne hp
  have keep : i ≠ .init →
      (∀ x ∈ [Item.fmtraw, .fmtval, .fmtmask, .fmtValid, .ecl, .best, .mcnt], x ∉ writeSet i) → t.FormatInv := by
    intro hn hw
    have same : ∀ x ∈ [Item.fmtraw, .fmtval, .fmtmask, .fmtValid, .ecl, .best, .mcnt], sameItem x s t :=
      fun x hx => bodyOf_same hi hb (hw x hx)
    simp only [List.forall_mem_cons] at same
    obtain ⟨hr, hv, hm, h0, he, hbest, hcnt, -⟩ := same
    refine formatInv_of_same hs hr hv hm h0 (fun h => ⟨?_, he, hbest, hcnt⟩) fun h => ?_ <;> rw [hpass] at h <;> rw [hsp]
    · exact ((matrixPhase_before hl h).resolve_left hn).1
    · exact (beforeCommit_before hl h).resolve_left hn
  cases i with
  | reset => exact absurd rfl hi
  | setcfg v e =>
    obtain rfl := Except.ok.inj hb
    have idle : State.passPhase { s with version := v, ecl := e, phase := .idle } = .idle := rfl
    exact formatInv_of_same hs rfl rfl rfl rfl (fun h => absurd h (by simp [idle, matrixPhase]))
      fun h => absurd h (by simp [idle, beforeCommit, beforePlacement])
  | init =>
    obtain ⟨-, rfl⟩ := initBody_ok_iff.1 hb
    exact formatInv_of_invalid hs (by simp) (by simp) (by simp) (by simp)
  | meval =>
    obtain ⟨-, v, -, rfl⟩ := mevalBody_ok_iff.1 hb
    have hv : s.fmtValid = false := by
      obtain ⟨-, -, hbefore⟩ := hs
      exact hbefore (.inr (by simpa [hsp, legalIn] using hl))
    exact formatInv_of_invalid hs (by simp) (by simp) (by simp) (by simpa using hv)
  | fmtenc m =>
    obtain rfl := Except.ok.inj hb
    exact ⟨.inl (formatted_consistent s m false), fun h => absurd h (by simp), fun _ => by simp⟩
  | fmtencw =>
    obtain rfl := Except.ok.inj hb
    exact formatInv_fmtencw hc (by simpa [legalIn] using hl)
  | _ => exact keep (by simp) (by simp [writeSet])

/-- Settles O50: the format invariant, carried together with the control invariant, which gives `MCNT = 8` in `COMMITTED`. -/
theorem stepKeepsFormatRegisters : Obligations.StepKeepsFormatRegisters := by
  unfold Obligations.StepKeepsFormatRegisters
  intro s t hc hs h
  refine (step_keeps (P := fun s => s.ControlInv ∧ s.FormatInv) (fun _ _ _ hs => hs)
    (fun s _ => ⟨controlInv_resetBlock s, formatInv_resetBlock s⟩) ?_ ?_ ⟨hc, hs⟩ h).2
  · exact fun s f w ⟨hc, hs⟩ hp h0 h2 => ⟨controlInv_takeFault hc hp w h0 h2, formatInv_takeFault hs hp f w⟩
  · exact fun i s t ⟨hc, hs⟩ hi hp hl _ hb => ⟨controlInv_body hc hi hp hl hb, formatInv_body hc hs hi hp hl hb⟩

/-! ## The shape of `GRID` and `DFLAG` -/

theorem matrixPhase_of_beforePlacement {p : Phase} (h : beforePlacement p = true) : matrixPhase p = true := by
  cases p <;> simp [beforePlacement] at h <;> rfl

/-- What a list of triples puts at a coordinate is the value of one of its triples. -/
theorem mem_of_lastAt {l : List Triple} {r c : Nat} {v : Cell} (h : lastAt l r c = some v) :
    ∃ x ∈ l, x.1.toNat = r ∧ x.2.1.toNat = c ∧ x.2.2 = v := by
  induction l using List.reverseRecOn with
  | nil => cases h
  | append_singleton l t ih =>
    rw [lastAt_concat] at h
    split at h
    next ht => exact ⟨t, by simp, ht.1, ht.2, Option.some.inj h⟩
    next =>
      obtain ⟨x, hx, hv⟩ := ih h
      exact ⟨x, by simp [hx], hv⟩

/-- A list that passes Overlay's check names no coordinate outside the live grid. -/
theorem lastAt_outside {gs : Nat} {l : List Triple} (hl : ∀ x ∈ l, inGrid gs x.1 x.2.1 = true) {r c : Nat}
    (h : gs ≤ r ∨ gs ≤ c) : lastAt l r c = none := by
  refine lastAt_none fun x hx hn => ?_
  have := inGrid_iff.1 (hl x hx)
  omega

/-- The shape at a coordinate is kept by whatever keeps its cell and its flag, when a symbol now held was held before under
the same version and the phases before PLACE are not entered. -/
theorem gridOk_of_same {s t : State} {r c : Nat} (hs : gridOk s r c = true) (hcell : t.cell r c = s.cell r c)
    (hflag : t.flag r c = s.flag r c) (hm : matrixPhase t.passPhase = true → matrixPhase s.passPhase = true ∧ t.gs = s.gs)
    (hb : beforePlacement t.passPhase = true → beforePlacement s.passPhase = true) : gridOk t r c = true := by
  rw [gridOk_iff] at hs ⊢
  obtain ⟨hout, hdata, hbefore⟩ := hs
  rw [hcell, hflag]
  refine ⟨fun hp ho => ?_, hdata, fun hp => hbefore (hb hp)⟩
  obtain ⟨hp, hg⟩ := hm hp
  exact hout hp (hg ▸ ho)

/-- An overlay keeps the shape: it names no cell outside the live grid, and it writes only colours where data may stand. -/
theorem gridOk_overlay {l : List Triple} {p : Phase} {s t : State} {r c : Nat} (hs : gridOk s r c = true) (hr : r < Config.gmax)
    (hc : c < Config.gmax) (ho : overlayThen l p s = .ok t) (hp : p ≠ .fault) (hm : matrixPhase s.passPhase = true)
    (hb : beforePlacement p = true → beforePlacement s.passPhase = true)
    (hcol : beforePlacement s.passPhase = true ∨ ∀ x ∈ l, cellIsColour x.2.2 = true) : gridOk t r c = true := by
  obtain ⟨hl, rfl⟩ := overlayThen_ok_iff.1 ho
  rw [gridOk_iff] at hs ⊢
  obtain ⟨hout, hdata, hbefore⟩ := hs
  rw [passPhase_of_ne hp, State.cell, planeGet_writeTriples _ _ _ hr hc]
  refine ⟨fun _ hx => ?_, fun hf => ?_, fun h => hbefore (hb h)⟩
  · rw [lastAt_outside hl hx]
    exact hout hm hx
  · obtain ⟨hcolour, h6⟩ := hdata hf
    refine ⟨?_, h6⟩
    cases hv : lastAt l r c with
    | none => exact hcolour
    | some v =>
      obtain ⟨x, hx, -, -, rfl⟩ := mem_of_lastAt hv
      exact hcol.elim (fun hbp => absurd ((hbefore hbp).symm.trans hf) Bool.false_ne_true) fun h => h x hx

/-- FMTWRITE's triples are colours (R246, R248). -/
theorem formatTriples_colour {s : State} : ∀ x ∈ formatTriples s, cellIsColour x.2.2 = true := by
  intro x hx
  rcases mem_formatTriples.1 hx with ⟨i, -, k, -, rfl⟩ | rfl | rfl
  · exact cellIsColour_colourOf _
  · rfl
  · rfl

/-- PLACE leaves a colour and the flag at every coordinate it writes (R188, R190). -/
theorem placedBits_of_mem_placedCells {s : State} (hg : s.gs ≤ Config.gmax) {r c : Nat} (h : (r, c) ∈ placedCells s) :
    cellIsColour (s.placedBits.cell r c) = true ∧ s.placedBits.flag r c = true := by
  obtain ⟨i, hi, hx⟩ := List.mem_take_iff_getElem.1 h
  have hlen : i < s.payLen := by omega
  obtain ⟨hcell, hflag⟩ := placedBits_of_mem hg (List.getElem?_eq_some_iff.2 ⟨by omega, hx⟩) (List.getElem?_eq_getElem hlen)
  exact ⟨by rw [hcell, cellIsColour_colourOf], hflag⟩

/-- PLACE keeps the shape: it writes colours into free cells of the walk, which are in the live grid and not in column 6. -/
theorem gridOk_placedBits {s : State} {r c : Nat} (hs : gridOk s r c = true) (hp : s.phase = .patterned)
    (hg : s.gs ≤ Config.gmax) : gridOk s.placedBits r c = true := by
  have hpass : s.passPhase = .patterned := by simp [State.passPhase, hp]
  have hpass' : s.placedBits.passPhase = .placed := by simp [State.passPhase]
  rw [gridOk_iff, hpass] at hs
  obtain ⟨hout, -, hbefore⟩ := hs
  rw [gridOk_iff, hpass']
  by_cases hm : (r, c) ∈ placedCells s
  · obtain ⟨⟨hr, hc, h6⟩, -⟩ := mem_freeCells.1 (List.mem_of_mem_take hm)
    refine ⟨fun _ ho => ?_, fun _ => ⟨(placedBits_of_mem_placedCells hg hm).1, h6⟩, fun h => absurd h (by decide)⟩
    simp only [State.placedBits_gs] at ho
    omega
  · obtain ⟨hcell, hflag⟩ := placedBits_of_not_mem hm
    rw [hcell, hflag, hbefore rfl]
    exact ⟨fun _ ho => ⟨(hout rfl ho).1, rfl⟩, fun h => absurd h (by simp), fun _ => rfl⟩

/-- MCOMMIT keeps the shape: it inverts data cells of the live grid, and the inverse of a colour is a colour (R208, R214). -/
theorem gridOk_committed {s : State} {k r c : Nat} (hs : gridOk s r c = true) (hp : s.phase = .scoring) (hr : r < Config.gmax)
    (hc : c < Config.gmax) : gridOk (s.committed k) r c = true := by
  have hpass : s.passPhase = .scoring := by simp [State.passPhase, hp]
  have hpass' : (s.committed k).passPhase = .committed := by simp [State.passPhase]
  rw [gridOk_iff, hpass] at hs
  obtain ⟨hout, hdata, -⟩ := hs
  rw [gridOk_iff, hpass', State.committed_cell s k hr hc, State.committed_flag, State.committed_gs]
  refine ⟨fun _ ho => ?_, fun hf => ?_, fun h => absurd h (by decide)⟩
  · rw [if_neg (by omega)]
    exact hout rfl ho
  · obtain ⟨hcolour, h6⟩ := hdata hf
    refine ⟨?_, h6⟩
    split
    · rcases candCell_cases s k r c with h | ⟨-, h⟩ <;> simp [h, hcolour]
    · exact hcolour

/-- Before PLACE no cell is a data cell. -/
theorem flag_beforePlacement {s : State} (hs : s.GridInv) (hb : beforePlacement s.passPhase = true) :
    ∀ r < Config.gmax, ∀ c < Config.gmax, s.flag r c = false := by
  intro r hr c hc
  obtain ⟨-, -, hbefore⟩ := gridOk_iff.1 (hs r hr c hc)
  exact hbefore hb

theorem gridInv_resetBlock (s : State) : s.resetBlock.GridInv := by
  intro r _ c _
  rw [gridOk_iff]
  simp [State.cell, State.flag, beforePlacement, matrixPhase]

theorem gridInv_takeFault {s : State} (hs : s.GridInv) (hp : s.phase ≠ .fault) (f : ErrCode) (w : Word) :
    (s.takeFault f w).GridInv := fun r hr c hc =>
  gridOk_of_same (hs r hr c hc) rfl rfl (fun h => ⟨passPhase_takeFault s f w hp ▸ h, rfl⟩)
    fun h => passPhase_takeFault s f w hp ▸ h

theorem gridInv_cleared (s : State) : s.cleared.GridInv := by
  intro r _ c _
  rw [gridOk_iff]
  simp

/-- The commands that write `GRID` keep the shape because of what they write there; INIT empties both arrays, and the other
rules leave them. -/
theorem gridInv_body {i : Instr} {s t : State} (hs : s.GridInv) (hi : i ≠ .reset) (hp : s.phase ≠ .fault)
    (hl : legalIn i s.phase = true) (hg : usesGrid i = true → s.gs ≤ Config.gmax) (hb : bodyOf i s = .ok t) : t.GridInv := by
  have hpass := bodyOf_passPhase hi hp hb
  have hsp := passPhase_of_ne hp
  have keep : i ≠ .init → Item.grid ∉ writeSet i → Item.dflag ∉ writeSet i → t.GridInv := by
    intro hn hwg hwd r hr c hc
    have hgrid : t.grid = s.grid := bodyOf_same hi hb hwg
    have hdflag : t.dflag = s.dflag := bodyOf_same hi hb hwd
    refine gridOk_of_same (hs r hr c hc) (by rw [State.cell, hgrid]; rfl) (by rw [State.flag, hdflag]; rfl) (fun h => ?_)
      fun h => ?_ <;> rw [hpass] at h <;> rw [hsp]
    · obtain ⟨hm, hv⟩ := (matrixPhase_before hl h).resolve_left hn
      have hv : t.version = s.version := bodyOf_same hi hb hv
      exact ⟨hm, by rw [State.gs, hv]; rfl⟩
    · exact (beforePlacement_before hl h).resolve_left hn
  have pass : ∀ (l : List Triple) (before after : Phase), s.phase = before → beforePlacement before = true → after ≠ .fault →
      overlayThen l after s = .ok t → t.GridInv := by
    rintro l before after rfl hbp hnf ho r hr c hc
    rw [← hsp] at hbp
    exact gridOk_overlay (hs r hr c hc) hr hc ho hnf (matrixPhase_of_beforePlacement hbp) (fun _ => hbp) (.inl hbp)
  cases i with
  | reset => exact absurd rfl hi
  | init =>
    obtain ⟨-, rfl⟩ := initBody_ok_iff.1 hb
    exact gridInv_cleared s
  | ptiming => exact pass _ .cleared _ (by simpa [legalIn] using hl) rfl (by decide) ((ptimingBody_eq s).symm.trans hb)
  | pfinder => exact pass _ .timed _ (by simpa [legalIn] using hl) rfl (by decide) hb
  | psep => exact pass _ .found _ (by simpa [legalIn] using hl) rfl (by decide) hb
  | pfmtrsv => exact pass _ .sepd _ (by simpa [legalIn] using hl) rfl (by decide) hb
  | place =>
    obtain ⟨-, rfl⟩ := placeBody_ok_iff.1 hb
    exact fun r hr c hc => gridOk_placedBits (hs r hr c hc) (by simpa [legalIn] using hl) (hg rfl)
  | mcommit =>
    obtain ⟨-, -, rfl⟩ := mcommitBody_ok_iff.1 hb
    exact fun r hr c hc => gridOk_committed (hs r hr c hc) (by simpa [legalIn] using hl) hr hc
  | fmtwrite =>
    obtain ⟨hv, -, -⟩ := fmtwriteBody_ok_iff.1 hb
    have hm := matrixPhase_of_usesGrid hl rfl
    exact fun r hr c hc => gridOk_overlay (hs r hr c hc) hr hc ((fmtwriteBody_eq hv).symm.trans hb) (by decide) (hsp ▸ hm)
      (fun h => absurd h (by decide)) (.inr formatTriples_colour)
  | _ => exact keep (by simp) (by simp [writeSet]) (by simp [writeSet])

/-- Settles O51: the shape is kept at every coordinate, by the commands that write `GRID` because of what they write there. -/
theorem stepKeepsGridShape : Obligations.StepKeepsGridShape := by
  unfold Obligations.StepKeepsGridShape
  intro s t _ hs h
  exact step_keeps (P := State.GridInv) (fun _ _ _ hs => hs) (fun s _ => gridInv_resetBlock s)
    (fun _ f w hs hp _ _ => gridInv_takeFault hs hp f w) (fun _ _ _ hs hi hp hl hg hb => gridInv_body hs hi hp hl hg hb) hs h

/-! ## The number of data cells -/

/-- The count of data cells depends on `DFLAG` alone. -/
theorem flagCount_of_same {s t : State} (h : t.dflag = s.dflag) : t.flagCount = s.flagCount := by
  simp only [State.flagCount, State.flag, h]

theorem flagCount_of_no_flag {s : State} (h : ∀ r c, s.flag r c = false) : s.flagCount = 0 := by
  simp [State.flagCount, h]

theorem countInv_resetBlock (s : State) : s.resetBlock.CountInv :=
  ⟨(flagCount_of_no_flag fun r c => by simp [State.flag]).symm, fun h => absurd h Bool.false_ne_true⟩

theorem countInv_takeFault {s : State} (hs : s.CountInv) (hp : s.phase ≠ .fault) (f : ErrCode) (w : Word) :
    (s.takeFault f w).CountInv := by
  obtain ⟨hcount, hplaced⟩ := hs
  exact ⟨hcount, fun h => hplaced (passPhase_takeFault s f w hp ▸ h)⟩

theorem countInv_cleared (s : State) : s.cleared.CountInv :=
  ⟨(flagCount_of_no_flag (State.cleared_flag s)).symm, fun h => absurd h Bool.false_ne_true⟩

/-- PLACE places the whole payload, which fits the 12 bits of `NPLACED`, over an array with no data cell. -/
theorem countInv_placedBits {s : State} (hlen : s.payLen ≤ Config.payMax) (hg : s.gs ≤ Config.gmax)
    (h0 : ∀ r < Config.gmax, ∀ c < Config.gmax, s.flag r c = false) (hfree : s.payLen ≤ (freeCells s).length) :
    s.placedBits.CountInv := by
  obtain ⟨-, -, hn⟩ := placedBits_parts s
  have hcount : s.placedBits.nplaced.toNat = s.payLen := by
    have : s.payLen < 2 ^ 12 := lt_of_le_of_lt hlen (by decide)
    rw [hn, Nat.min_eq_right hfree, BitVec.toNat_ofNat, Nat.mod_eq_of_lt this]
  refine ⟨?_, fun _ => hcount⟩
  rw [hcount, flagCount_placedBits hg h0, placedCells, List.length_take, Nat.min_eq_left hfree]

/-- PLACE counts the bits it places, INIT clears the flags and the count, and the other rules leave both, and the payload
while it is placed. -/
theorem countInv_body {i : Instr} {s t : State} (hc : s.ControlInv) (hgrid : s.GridInv) (hs : s.CountInv) (hi : i ≠ .reset)
    (hp : s.phase ≠ .fault) (hl : legalIn i s.phase = true) (hg : usesGrid i = true → s.gs ≤ Config.gmax)
    (hb : bodyOf i s = .ok t) : t.CountInv := by
  have hsp := passPhase_of_ne hp
  have keep : i ≠ .place → Item.dflag ∉ writeSet i → Item.nplaced ∉ writeSet i → t.CountInv := by
    intro hn hwd hwn
    obtain ⟨hcount, hplaced⟩ := hs
    have hnp : t.nplaced = s.nplaced := bodyOf_same hi hb hwn
    refine ⟨by rw [hnp, hcount, flagCount_of_same (bodyOf_same hi hb hwd)], fun h => ?_⟩
    rw [bodyOf_passPhase hi hp hb] at h
    obtain ⟨hpl, hwp⟩ := (placedPhase_before hl h).resolve_left hn
    have hpay : t.pay = s.pay := bodyOf_same hi hb hwp
    rw [hnp, State.payLen, hpay]
    exact hplaced (hsp ▸ hpl)
  cases i with
  | reset => exact absurd rfl hi
  | init =>
    obtain ⟨-, rfl⟩ := initBody_ok_iff.1 hb
    exact countInv_cleared s
  | place =>
    obtain ⟨hfree, rfl⟩ := placeBody_ok_iff.1 hb
    obtain ⟨-, -, hlen, -⟩ := hc
    have hphase : s.phase = .patterned := by simpa [legalIn] using hl
    exact countInv_placedBits hlen (hg rfl) (flag_beforePlacement hgrid (by rw [hsp, hphase]; rfl)) hfree
  | _ => exact keep (by simp) (by simp [writeSet]) (by simp [writeSet])

/-- Settles O52: the count, carried with the control invariant (the bound on the payload) and the shape (no data cell before
PLACE). -/
theorem stepKeepsPlacedCount : Obligations.StepKeepsPlacedCount := by
  unfold Obligations.StepKeepsPlacedCount
  intro s t hc hg hs h
  refine (step_keeps (P := fun s => s.ControlInv ∧ s.GridInv ∧ s.CountInv) (fun _ _ _ hs => hs)
    (fun s _ => ⟨controlInv_resetBlock s, gridInv_resetBlock s, countInv_resetBlock s⟩) ?_ ?_ ⟨hc, hg, hs⟩ h).2.2
  · exact fun s f w ⟨hc, hg, hs⟩ hp h0 h2 =>
      ⟨controlInv_takeFault hc hp w h0 h2, gridInv_takeFault hg hp f w, countInv_takeFault hs hp f w⟩
  · exact fun i s t ⟨hc, hg, hs⟩ hi hp hl hu hb =>
      ⟨controlInv_body hc hi hp hl hb, gridInv_body hg hi hp hl hu hb, countInv_body hc hg hs hi hp hl hu hb⟩

/-! ## Commands: the table of phases, the write sets, the stop -/

/-- Settles O46: of the five things a command can answer, only the reset and its rule's result are outside `FAULT`. -/
theorem phaseMovesByTheTable : Obligations.PhaseMovesByTheTable := by
  unfold Obligations.PhaseMovesByTheTable
  intro i s t h hnf
  rw [legalCommands_eq_legalIn]
  rcases exec_cases h with ⟨rfl, rfl⟩ | ⟨-, hp, rfl⟩ | ⟨-, -, -, rfl⟩ | ⟨hi, -, hl, -, hb | ⟨f, -, rfl⟩⟩
  · exact ⟨rfl, rfl⟩
  · exact absurd hp hnf
  · exact absurd rfl hnf
  · exact ⟨bodyOf_phase hi hb, hl⟩
  · exact absurd rfl hnf

/-- RESET writes every item of R20. -/
theorem mem_writeSet_reset (x : Item) : x ∈ writeSet .reset := by
  cases x <;> simp [writeSet]

/-- Settles O47: fault entry has its own write set, and a rule that does not fault its frame. -/
theorem commandsWriteOnlyTheirWriteSet : Obligations.CommandsWriteOnlyTheirWriteSet := by
  unfold Obligations.CommandsWriteOnlyTheirWriteSet
  intro i s t h
  have fault : ∀ f, (s.takeFault f (encode i)).phase ≠ .fault → ∀ x, x ∉ writeSet i → sameItem x s (s.takeFault f (encode i)) :=
    fun f hnf => absurd rfl hnf
  rcases exec_cases h with ⟨rfl, rfl⟩ | ⟨-, -, rfl⟩ | ⟨-, -, -, rfl⟩ | ⟨hi, hp, -, -, hb | ⟨f, -, rfl⟩⟩
  · exact ⟨fun _ x hx => absurd (mem_writeSet_reset x) hx, fun hf => absurd hf (by simp), rfl, rfl, rfl⟩
  · exact ⟨fun _ x _ => sameItem_refl x t, fun _ x _ => sameItem_refl x t, rfl, rfl, rfl⟩
  · exact ⟨fault _, fun _ x hx => sameItem_takeFault hx s _ _, rfl, rfl, rfl⟩
  · obtain ⟨hsame, hphase, hown⟩ := bodyOf_frame hi hb
    exact ⟨fun _ => hsame, fun hf => absurd hf (hphase ▸ entersPhase_ne_fault hp), hown⟩
  · exact ⟨fault _, fun _ x hx => sameItem_takeFault hx s _ _, rfl, rfl, rfl⟩

/-- Under the control invariant every command answers a next state: where a command over the grid is legal, the arrays hold a
symbol of a supported version, whose grid fits them (R35, R42 item 7). -/
theorem exec_next_of_controlInv {s : State} (hs : s.ControlInv) (i : Instr) : ∃ t, exec i s = .next t := by
  cases h : exec i s with
  | next t => exact ⟨t, rfl⟩
  | refused r => exact absurd h exec_not_refused
  | fault f =>
    obtain ⟨hu, hg, hl⟩ := exec_stops h
    have hm := matrixPhase_of_usesGrid hl hu
    have hp : s.phase ≠ .fault := by rintro hp; simp [hp, matrixPhase] at hm
    have := gs_of_controlInv hs (passPhase_of_ne hp ▸ hm)
    omega

theorem executeWord_next_of_controlInv {s : State} (hs : s.ControlInv) (w : Word) : ∃ t, executeWord w s = .next t := by
  unfold executeWord
  split
  next i _ => exact exec_next_of_controlInv hs i
  next =>
    unfold illegalWord
    split <;> exact ⟨_, rfl⟩

/-- Settles O49: only a command word could stop a step, and none does under the control invariant. -/
theorem noStepStops : Obligations.NoStepStops := by
  unfold Obligations.NoStepStops
  intro s hs
  unfold step
  cases hw : nextWork s with
  | wait => exact ⟨s, rfl⟩
  | settled t => exact ⟨t, rfl⟩
  | command w u =>
    have hu : u.ControlInv := by
      unfold nextWork at hw
      split at hw
      · cases hw
      · cases hw
      · cases hw
      · split at hw
        · cases hw; exact hs
        · cases hw
    obtain ⟨t, ht⟩ := executeWord_next_of_controlInv hu w
    exact ⟨t.answer .ack, by simp [ht, acknowledge]⟩

/-! ## The finished symbol -/

theorem cellIsColour_iff {x : Cell} : cellIsColour x = true ↔ x ≠ .reserved ∧ x ≠ .unset := by
  cases x <;> decide

/-- After FMTWRITE under the standard placement the cells the fixed passes did not leave free are colours (R246, R248). -/
theorem finishedCell_colour {gs r c : Nat} (val : BitVec 15) (h : patternedCell gs r c ≠ .unset) :
    cellIsColour (finishedCell gs val r c) = true := by
  unfold finishedCell
  split
  next =>
    split
    · rfl
    · exact cellIsColour_colourOf _
  next hr => exact cellIsColour_iff.2 ⟨hr, h⟩

/-- A live cell of a complete symbol in `DONE`: a data cell is a colour by the shape, any other by the layers. -/
theorem cell_colour_of_done {s : State} (hc : s.ControlInv) (hg : s.GridInv) (hl : s.LayerInv) (hf : s.CompleteInv)
    (hp : s.phase = .done) (hi : s.incomplete = false) (hstd : s.collab.standardPlacement = true) {r c : Nat} (hr : r < s.gs)
    (hcc : c < s.gs) : cellIsColour (s.cell r c) = true := by
  have hpass : s.passPhase = .done := by simp [State.passPhase, hp]
  have hgs := (gs_of_controlInv hc (by rw [hpass]; rfl)).2
  obtain ⟨-, hdata, -⟩ := gridOk_iff.1 (hg r (by omega) c (by omega))
  by_cases hflag : s.flag r c = true
  · exact (hdata hflag).1
  · have hu : patternedCell s.gs r c ≠ .unset := fun h => hflag (hf (.inr hpass) hi r hr c hcc h)
    have hlayer := hl r hr c hcc
    simp only [layerOk, hpass, hstd, hflag, Bool.not_true, Bool.false_or, Bool.false_eq_true, if_false, beq_iff_eq] at hlayer
    rw [hlayer]
    exact finishedCell_colour _ hu

/-- Settles O58: `OUT` is the white ring about the live grid. -/
theorem finishedSymbolIsColours : Obligations.FinishedSymbolIsColours := by
  unfold Obligations.FinishedSymbolIsColours
  intro s hc hg hl hf ho hp hi hstd r hr c hcc
  have hpass : s.passPhase = .done := by simp [State.passPhase, hp]
  have hgs := (gs_of_controlInv hc (by rw [hpass]; rfl)).2
  rw [ho hpass r (by simp only [Config.omax, Config.gmax] at *; omega) c (by simp only [Config.omax, Config.gmax] at *; omega),
    borderedCell, if_pos ⟨hr, hcc⟩]
  split
  next => rfl
  next hring => exact cell_colour_of_done hc hg hl hf hp hi hstd (by omega) (by omega)

/-! ## The registers on the bus -/

theorem errFlag_iff {s : State} : s.errFlag = true ↔ s.phase = .fault := by simp [State.errFlag]

theorem doneFlag_iff {s : State} : s.doneFlag = true ↔ s.phase = .done := by simp [State.doneFlag]

/-- The fields of `STATUS`, for every code of `PHASE` and all values of the four flags (R31). -/
theorem statusWord_fields (s : State) :
    s.statusWord.extractLsb' 0 4 = phaseCode s.phase ∧ s.statusWord.getLsbD 4 = s.errFlag
      ∧ s.statusWord.getLsbD 5 = s.doneFlag ∧ s.statusWord.getLsbD 6 = s.fmtValid ∧ s.statusWord.getLsbD 7 = s.incomplete
      ∧ s.statusWord.extractLsb' 8 24 = 0 := by
  unfold State.statusWord
  generalize phaseCode s.phase = p, s.errFlag = e, s.doneFlag = d, s.fmtValid = v, s.incomplete = n
  revert p e d v n
  decide

/-- Settles O10: word 2 of the register map is `STATUS`. -/
theorem statusFields : Obligations.StatusFields := by
  unfold Obligations.StatusFields
  intro s
  obtain ⟨hphase, herr, hdone, hvalid, hinc, hzero⟩ := statusWord_fields s
  exact ⟨s.statusWord, rfl, hphase, herr ▸ errFlag_iff, hdone ▸ doneFlag_iff, hvalid, hinc, hzero⟩

/-- Bit `j` of a word with one field, from bit `lo` up. -/
theorem getLsbD_fieldAt {k : Nat} (x : BitVec k) (lo j : Nat) :
    (fieldAt x lo).getLsbD j = (decide (j < 32) && decide (lo ≤ j) && x.getLsbD (j - lo)) := by
  by_cases h : j < 32 <;> by_cases h' : lo ≤ j <;> simp [fieldAt, BitVec.getLsbD_setWidth, h, h']

/-- A word with one field from bit 0 up: `m` zero bits above it. -/
theorem fieldAt_zero_eq_append {k m : Nat} (h : m + k = 32) (x : BitVec k) : fieldAt x 0 = (0#m ++ x).cast h := by
  refine BitVec.eq_of_getLsbD_eq fun j hj => ?_
  rw [getLsbD_fieldAt, BitVec.getLsbD_cast, BitVec.getLsbD_append]
  by_cases hk : j < k
  · simp [hj, hk]
  · simp [hk, BitVec.getLsbD_of_ge x j (Nat.le_of_not_lt hk)]

/-- A word with two fields, `y` from bit 0 up and `x` with `q` zero bits below it and `p` above. -/
theorem fieldAt_or_eq_append {k m p q : Nat} (h : p + k + q + m = 32) (x : BitVec k) (y : BitVec m) :
    fieldAt x (q + m) ||| fieldAt y 0 = (0#p ++ x ++ 0#q ++ y).cast h := by
  refine BitVec.eq_of_getLsbD_eq fun j hj => ?_
  simp only [BitVec.getLsbD_or, getLsbD_fieldAt, BitVec.getLsbD_cast, BitVec.getLsbD_append, Nat.sub_zero, Nat.sub_sub]
  by_cases hm : j < m
  · have hx : ¬ q + m ≤ j := by omega
    simp [hj, hm, hx]
  have hy := BitVec.getLsbD_of_ge y j (Nat.le_of_not_lt hm)
  by_cases hq : j - m < q
  · have hx : ¬ q + m ≤ j := by omega
    simp [hm, hq, hy, hx]
  have hx : q + m ≤ j := by omega
  rw [Nat.add_comm m q]
  by_cases hk : j - (q + m) < k
  · simp [hj, hm, hq, hy, hk, hx]
  · simp [hm, hq, hy, hk, BitVec.getLsbD_of_ge x _ (Nat.le_of_not_lt hk)]

theorem paylenWord_eq (s : State) : s.paylenWord = 0#20 ++ BitVec.ofNat 12 s.pay.length :=
  fieldAt_zero_eq_append (m := 20) rfl (BitVec.ofNat 12 s.payLen)

theorem nplacedWord_eq (s : State) : s.nplacedWord = 0#20 ++ s.nplaced := fieldAt_zero_eq_append (m := 20) rfl s.nplaced

theorem fmtrawWord_eq (s : State) : s.fmtrawWord = 0#17 ++ s.fmtraw := fieldAt_zero_eq_append (m := 17) rfl s.fmtraw

theorem cfgWord_eq (s : State) : s.cfgWord = 0#20 ++ s.version ++ 0#6 ++ s.ecl :=
  fieldAt_or_eq_append (p := 20) (q := 6) rfl s.version s.ecl

theorem maskstWord_eq (s : State) : s.maskstWord = 0#21 ++ s.best ++ 0#4 ++ BitVec.ofNat 4 s.mcnt.val :=
  (BitVec.or_comm _ _).trans (fieldAt_or_eq_append (p := 21) (q := 4) rfl s.best (BitVec.ofNat 4 s.mcnt.val))

theorem fmtvalWord_eq (s : State) : s.fmtvalWord = 0#13 ++ s.fmtmask ++ 0#1 ++ s.fmtval :=
  (BitVec.or_comm _ _).trans (fieldAt_or_eq_append (p := 13) (q := 1) rfl s.fmtmask s.fmtval)

theorem errWord_eq (s : State) : s.errWord = 0#20 ++ phaseCode s.errPhase ++ 0#4 ++ errCodeBits s.errCode :=
  (BitVec.or_comm _ _).trans (fieldAt_or_eq_append (p := 20) (q := 4) rfl (phaseCode s.errPhase) (errCodeBits s.errCode))

/-- Settles O11: the register map word by word, each word as its fields. -/
theorem registerFields : Obligations.RegisterFields := by
  unfold Obligations.RegisterFields
  intro s
  exact ⟨rfl, rfl, congrArg some (cfgWord_eq s), rfl, congrArg some (paylenWord_eq s), congrArg some (nplacedWord_eq s),
    congrArg some (maskstWord_eq s), rfl, congrArg some (fmtrawWord_eq s), congrArg some (fmtvalWord_eq s),
    congrArg some (errWord_eq s), rfl⟩

/-! ## Reset -/

/-- Settles O15: every item of the state after RESET, the arrays cell by cell; the reset input does what RESET does. -/
theorem resetGivesResetValues : Obligations.ResetGivesResetValues := by
  unfold Obligations.ResetGivesResetValues
  intro s rest
  refine ⟨s.resetBlock, exec_reset s, rfl, fun h => ?_, rfl, rfl, rfl, rfl, rfl, rfl, rfl, rfl, rfl, rfl, rfl, rfl, rfl, rfl, rfl,
    rfl, fun r hr c hc => ?_, fun r hr c hc => ?_⟩
  · simp only [step, nextWork, h]
    rfl
  · simp [State.cell, State.flag]
  · simp [State.outCell]

/-- Settles O57: the reset state is what RESET makes of itself; the last four invariants bind a later phase or nothing in
`IDLE`. -/
theorem resetMeetsInvariants : Obligations.ResetMeetsInvariants := by
  unfold Obligations.ResetMeetsInvariants
  have hidle : State.reset.passPhase = .idle := rfl
  refine ⟨controlInv_resetBlock .reset, formatInv_resetBlock .reset, gridInv_resetBlock .reset, countInv_resetBlock .reset,
    fun r _ c _ => ?layers, fun h => ?complete, fun h => ?out, fun h => ?winner⟩
  case layers => rfl
  case complete => simp [hidle, placedPhase] at h
  case out => simp [hidle] at h
  case winner => simp [hidle] at h

end Sys2Proof.Machine

namespace Sys2Proof.Machine

/-! PROOFS. The slave address space and the accesses (20_memory.md): what a word read of each region of the map answers, then
what a step does for each kind of access. -/

/-! ## The regions of the map -/

section Regions

variable {s : State} {addr : Addr}

theorem busRead_misaligned (h : addr.toNat % 4 ≠ 0) : busRead s addr = none := by
  simp only [busRead, if_pos h]

theorem busRead_registers (h : addr.toNat % 4 = 0) (hi : addr.toNat ≤ 0x0033) : busRead s addr = registerRead s addr.toNat := by
  simp only [busRead]
  rw [if_neg (by omega), if_pos hi]

theorem busRead_pay (h : addr.toNat % 4 = 0) (hlo : 0x1000 ≤ addr.toNat) (hi : addr.toNat ≤ 0x2FFF) :
    busRead s addr = some (payRead s ((addr.toNat - 0x1000) / 4)) := by
  simp only [busRead]
  rw [if_neg (by omega), if_neg (by omega), if_pos ⟨hlo, hi⟩]

theorem busRead_grid (h : addr.toNat % 4 = 0) (hlo : 0x4000 ≤ addr.toNat) (hi : addr.toNat ≤ 0x7FFF) :
    busRead s addr = gridRead s (windowRow (addr.toNat - 0x4000)) (windowCol (addr.toNat - 0x4000)) := by
  simp only [busRead]
  rw [if_neg (by omega), if_neg (by omega), if_neg (by omega), if_pos ⟨hlo, hi⟩]

theorem busRead_out (h : addr.toNat % 4 = 0) (hlo : 0x8000 ≤ addr.toNat) (hi : addr.toNat ≤ 0xBFFF) :
    busRead s addr = outRead s (windowRow (addr.toNat - 0x8000)) (windowCol (addr.toNat - 0x8000)) := by
  simp only [busRead]
  rw [if_neg (by omega), if_neg (by omega), if_neg (by omega), if_neg (by omega), if_pos ⟨hlo, hi⟩]

theorem busRead_dflag (h : addr.toNat % 4 = 0) (hlo : 0xC000 ≤ addr.toNat) :
    busRead s addr = dflagRead s (windowRow (addr.toNat - 0xC000)) (windowCol (addr.toNat - 0xC000)) := by
  simp only [busRead]
  rw [if_neg (by omega), if_neg (by omega), if_neg (by omega), if_neg (by omega), if_neg (by omega), if_pos hlo]

/-- The two holes of the map (R61). -/
theorem busRead_unmapped (h : addr.toNat % 4 = 0)
    (hole : (0x0034 ≤ addr.toNat ∧ addr.toNat ≤ 0x0FFF) ∨ (0x3000 ≤ addr.toNat ∧ addr.toNat ≤ 0x3FFF)) :
    busRead s addr = none := by
  simp only [busRead]
  rw [if_neg (by omega), if_neg (by omega), if_neg (by omega), if_neg (by omega), if_neg (by omega), if_neg (by omega)]

/-- The map has 13 registers (R28). -/
theorem registerRead_ne_none {a : Nat} (h : a ≤ 0x0033) : registerRead s a ≠ none := by
  have hk : a / 4 < 13 := by omega
  unfold registerRead
  generalize a / 4 = k at hk
  interval_cases k <;> exact Option.some_ne_none _

theorem gridRead_eq_none_iff {r c : Nat} : gridRead s r c = none ↔ 40 < r ∨ 40 < c := by
  simp only [gridRead, ← apply_ite some, ite_eq_left_iff, reduceCtorEq, imp_false, not_not]

theorem outRead_eq_none_iff {r c : Nat} : outRead s r c = none ↔ 42 < r ∨ 42 < c := by
  simp only [outRead, ← apply_ite some, ite_eq_left_iff, reduceCtorEq, imp_false, not_not]

theorem dflagRead_eq_none_iff {r c : Nat} : dflagRead s r c = none ↔ 40 < r ∨ 40 < c := by
  simp only [dflagRead, ite_eq_left_iff, reduceCtorEq, imp_false, not_not]

end Regions

/-- Settles O8: region by region in ascending order, where the read answers `none` and which clauses of the right side the
region's bounds leave open. -/
theorem busErrorAddresses : Obligations.BusErrorAddresses := by
  unfold Obligations.BusErrorAddresses
  intro s addr
  by_cases hal : addr.toNat % 4 = 0
  case neg => exact iff_of_true (busRead_misaligned hal) (.inl hal)
  rcases Nat.lt_or_ge addr.toNat 0x0034 with h0 | h0
  · exact iff_of_false (busRead_registers hal (by omega) ▸ registerRead_ne_none (by omega)) (by omega)
  rcases Nat.lt_or_ge addr.toNat 0x1000 with h1 | h1
  · exact iff_of_true (busRead_unmapped hal (.inl (by omega))) (by omega)
  rcases Nat.lt_or_ge addr.toNat 0x3000 with h2 | h2
  · exact iff_of_false (busRead_pay hal h1 (by omega) ▸ Option.some_ne_none _) (by omega)
  rcases Nat.lt_or_ge addr.toNat 0x4000 with h3 | h3
  · exact iff_of_true (busRead_unmapped hal (.inr (by omega))) (by omega)
  rcases Nat.lt_or_ge addr.toNat 0x8000 with h4 | h4
  · rw [busRead_grid hal h3 (by omega), gridRead_eq_none_iff, windowRow, windowCol]
    omega
  rcases Nat.lt_or_ge addr.toNat 0xC000 with h5 | h5
  · rw [busRead_out hal h4 (by omega), outRead_eq_none_iff, windowRow, windowCol]
    omega
  · rw [busRead_dflag hal h5, dflagRead_eq_none_iff, windowRow, windowCol]
    omega

/-! ## The windows, element by element -/

section Windows

variable (s : State) {r c : Nat}

/-- A word address of a window that does not run past the address space. -/
theorem toNat_windowAddr {base i : Nat} (h : base + 4 * i < 0x10000) : (BitVec.ofNat 16 (base + 4 * i)).toNat = base + 4 * i := by
  rw [BitVec.toNat_ofNat, Nat.mod_eq_of_lt h]

theorem windowRow_word (hc : c < 64) : windowRow (4 * (64 * r + c)) = r := by
  unfold windowRow; omega

theorem windowCol_word (hc : c < 64) : windowCol (4 * (64 * r + c)) = c := by
  unfold windowCol; omega

theorem busRead_grid_word (hr : r < 64) (hc : c < 64) :
    busRead s (BitVec.ofNat 16 (0x4000 + 4 * (64 * r + c))) = gridRead s r c := by
  have ha := toNat_windowAddr (base := 0x4000) (i := 64 * r + c) (by omega)
  rw [busRead_grid (by omega) (by omega) (by omega), ha, Nat.add_sub_cancel_left, windowRow_word hc, windowCol_word hc]

theorem busRead_out_word (hr : r < 64) (hc : c < 64) :
    busRead s (BitVec.ofNat 16 (0x8000 + 4 * (64 * r + c))) = outRead s r c := by
  have ha := toNat_windowAddr (base := 0x8000) (i := 64 * r + c) (by omega)
  rw [busRead_out (by omega) (by omega) (by omega), ha, Nat.add_sub_cancel_left, windowRow_word hc, windowCol_word hc]

theorem busRead_dflag_word (hr : r < 64) (hc : c < 64) :
    busRead s (BitVec.ofNat 16 (0xC000 + 4 * (64 * r + c))) = dflagRead s r c := by
  have ha := toNat_windowAddr (base := 0xC000) (i := 64 * r + c) (by omega)
  rw [busRead_dflag (by omega) (by omega), ha, Nat.add_sub_cancel_left, windowRow_word hc, windowCol_word hc]

theorem busRead_pay_word {i : Nat} (hi : i < 2048) : busRead s (BitVec.ofNat 16 (0x1000 + 4 * i)) = some (payRead s i) := by
  have ha := toNat_windowAddr (base := 0x1000) (i := i) (by omega)
  rw [busRead_pay (by omega) (by omega) (by omega), ha, Nat.add_sub_cancel_left, Nat.mul_div_cancel_left i (by decide)]

theorem gridRead_of_le (hr : r ≤ 40) (hc : c ≤ 40) :
    gridRead s r c = some (if s.phase = .fault then 3 else (cellCode (s.cell r c)).setWidth 32) := by
  rw [gridRead, if_neg (by omega), apply_ite some]

theorem outRead_of_le (hr : r ≤ 42) (hc : c ≤ 42) :
    outRead s r c = some (if s.phase = .done then (cellCode (s.outCell r c)).setWidth 32 else 3) := by
  rw [outRead, if_neg (by omega), apply_ite some]

theorem dflagRead_of_le (hr : r ≤ 40) (hc : c ≤ 40) : dflagRead s r c = some (boolWord (s.flag r c)) := by
  rw [dflagRead, if_neg (by omega)]

/-- The bit of the payload, and 0 from `PAYLEN` up, where the list has no element (R73). -/
theorem payRead_eq (i : Nat) : payRead s i = if s.pay[i]? = some true then 1 else 0 := by
  unfold payRead
  cases s.pay[i]? with
  | none => rfl
  | some b => cases b <;> rfl

end Windows

/-- Settles O9: the address of an element names its window, row and column, and there the window shows the element. -/
theorem windowsShowTheArrays : Obligations.WindowsShowTheArrays := by
  unfold Obligations.WindowsShowTheArrays
  intro s
  refine ⟨fun r hr c hc => ?grid, fun r hr c hc => ?out, fun i hi => ?pay, fun r hr c hc => ?dflag⟩
  case grid => rw [busRead_grid_word s (by omega) (by omega), gridRead_of_le s hr hc]
  case out => rw [busRead_out_word s (by omega) (by omega), outRead_of_le s hr hc]
  case pay => rw [busRead_pay_word s hi, payRead_eq]
  case dflag => rw [busRead_dflag_word s (by omega) (by omega), dflagRead_of_le s hr hc, boolWord]

/-! ## One step for each kind of access -/

section Accesses

variable {s : State} {rest : List Input} {bytes : Nat} {addr : Addr} {w : Word}

theorem executeWord_of_ok {i : Instr} (h : decode w = .ok i) (s : State) : executeWord w s = exec i s := by
  simp only [executeWord, h]

theorem executeWord_of_error {e : DecodeError} (h : decode w = .error e) (s : State) : executeWord w s = illegalWord w s := by
  simp only [executeWord, h]

theorem illegalWord_fault (h : s.phase = .fault) : illegalWord w s = .next s := if_pos h

theorem illegalWord_of_ne (h : s.phase ≠ .fault) : illegalWord w s = .next (s.takeFault .illegalCommand w) := if_neg h

theorem step_of_no_input (h : s.inputs = []) : step s = .next s := by
  simp only [step, nextWork, h]

theorem step_of_command (h : s.inputs = commandInput w :: rest) : step s = acknowledge (executeWord w (s.taken rest)) := by
  simp only [step, nextWork, h, commandInput, and_self, if_true]

theorem step_of_read (h : s.inputs = .access (.read bytes addr) :: rest) :
    step s = .next (readAccess bytes addr (s.taken rest)) := by
  simp only [step, nextWork, h]

theorem step_of_refused_write (h : s.inputs = .access (.write bytes addr w) :: rest) (hx : bytes ≠ 4 ∨ addr ≠ cmdAddr) :
    step s = .next ((s.taken rest).answer .busError) := by
  have hn : ¬ (bytes = 4 ∧ addr = cmdAddr) := not_and_or.mpr hx
  simp only [step, nextWork, h, if_neg hn]

/-- What the outside will do next is not on the bus. -/
@[simp] theorem busRead_taken (s : State) (rest : List Input) (addr : Addr) : busRead (s.taken rest) addr = busRead s addr := rfl

theorem readAccess_of_some {v : Word} (h : busRead s addr = some v) : readAccess 4 addr s = s.answer (.data v) := by
  simp only [readAccess, if_true, h]

theorem readAccess_of_refused (h : bytes ≠ 4 ∨ busRead s addr = none) : readAccess bytes addr s = s.answer .busError := by
  have hn : (if bytes = 4 then busRead s addr else none) = none := by
    rcases h with h | h
    · exact if_neg h
    · rw [h, ite_self]
  simp only [readAccess, hn]

end Accesses

/-- Settles O6: the acknowledge around what the word does, by whether it decodes and, if not, by the phase. -/
theorem stepRunsDecodedCommand : Obligations.StepRunsDecodedCommand := by
  unfold Obligations.StepRunsDecodedCommand
  intro s w rest h
  have hstep : step s = acknowledge (executeWord w (s.taken rest)) := step_of_command h
  refine ⟨hstep, fun i hi => ?decodes, fun e he => ⟨fun hp => ?illegal, fun hp => ?discarded⟩⟩
  case decodes => rw [hstep, executeWord_of_ok hi]; rfl
  case illegal => rw [hstep, executeWord_of_error he, illegalWord_of_ne (s := s.taken rest) hp]; rfl
  case discarded => rw [hstep, executeWord_of_error he, illegalWord_fault (s := s.taken rest) hp]; rfl

/-- Settles O7: each kind of access that presents no command, and no input. -/
theorem accessesWithoutCommandChangeNothing : Obligations.AccessesWithoutCommandChangeNothing := by
  unfold Obligations.AccessesWithoutCommandChangeNothing
  intro s bytes addr w rest
  refine ⟨fun h v hb hv => ?answered, fun h hx => ?refusedRead, fun h hx => ?refusedWrite, step_of_no_input⟩
  case answered => subst hb; rw [step_of_read h, readAccess_of_some (s := s.taken rest) hv]; rfl
  case refusedRead => rw [step_of_read h, readAccess_of_refused (s := s.taken rest) hx]; rfl
  case refusedWrite => rw [step_of_refused_write h hx]; rfl

end Sys2Proof.Machine

namespace Sys2Proof

/-! PROOFS. The words of the commands (30_encoding.md): each format read backwards gives the word back, and so does each row of
the opcode map. -/

/-! ## From the fields of a word to the command -/

/-- A word that decodes has the opcode of a format, and decodes by that format (R90, R96). -/
theorem decode_cases {w : Word} {i : Instr} (h : decode w = .ok i) :
    (∃ j, encode j = encodeZ (opcodeOf w) ∧ decodeZ w j = .ok i)
    ∨ (opcodeOf w = 0x02 ∧ decodeC w = .ok i)
    ∨ (opcodeOf w = 0x04 ∧ decodeP w = .ok i)
    ∨ (opcodeOf w = 0x40 ∧ decodeM w = .ok i) := by
  have formatZ : ∀ {op j}, opcodeOf w = op → encode j = encodeZ op → decodeZ w j = .ok i →
      ∃ j, encode j = encodeZ (opcodeOf w) ∧ decodeZ w j = .ok i := fun hop he hd => ⟨_, hop ▸ he, hd⟩
  unfold decode at h
  iterate 2
    obtain ⟨hop, h⟩ | ⟨-, h⟩ := ite_eq_iff.1 h
    · exact .inl (formatZ hop rfl h)
  obtain ⟨hop, h⟩ | ⟨-, h⟩ := ite_eq_iff.1 h
  · exact .inr (.inl ⟨hop, h⟩)
  obtain ⟨hop, h⟩ | ⟨-, h⟩ := ite_eq_iff.1 h
  · exact .inl (formatZ hop rfl h)
  obtain ⟨hop, h⟩ | ⟨-, h⟩ := ite_eq_iff.1 h
  · exact .inr (.inr (.inl ⟨hop, h⟩))
  iterate 9
    obtain ⟨hop, h⟩ | ⟨-, h⟩ := ite_eq_iff.1 h
    · exact .inl (formatZ hop rfl h)
  obtain ⟨hop, h⟩ | ⟨-, h⟩ := ite_eq_iff.1 h
  · exact .inr (.inr (.inr ⟨hop, h⟩))
  iterate 3
    obtain ⟨hop, h⟩ | ⟨-, h⟩ := ite_eq_iff.1 h
    · exact .inl (formatZ hop rfl h)
  cases h

section Fields

variable {w : Word}

/-- A word with the opcode of SETCFG and its reserved bits 0 is the word of its operands (R92). -/
theorem encode_setcfg_fields (hop : opcodeOf w = 0x02#8) (h1 : w.extractLsb' 12 12 = 0#12) (h2 : w.extractLsb' 2 6 = 0#6) :
    encode (.setcfg (w.extractLsb' 8 4) (w.extractLsb' 0 2)) = w := by
  change 0x02#8 ++ 0#12 ++ w.extractLsb' 8 4 ++ 0#6 ++ w.extractLsb' 0 2 = w
  rw [← hop, ← h1, ← h2, opcodeOf]
  simp only [BitVec.extractLsb'_append_extractLsb'_eq_extractLsb', BitVec.extractLsb'_eq_self]

/-- A word with the opcode of PAYPUSH and its reserved bits 0 is the word of its operands (R93). -/
theorem encode_paypush_fields (hop : opcodeOf w = 0x04#8) (h : w.extractLsb' 21 3 = 0#3) :
    encode (.paypush (w.extractLsb' 16 5) (w.extractLsb' 0 16)) = w := by
  change 0x04#8 ++ 0#3 ++ w.extractLsb' 16 5 ++ w.extractLsb' 0 16 = w
  rw [← hop, ← h, opcodeOf]
  simp only [BitVec.extractLsb'_append_extractLsb'_eq_extractLsb', BitVec.extractLsb'_eq_self]

/-- A word with the opcode of FMTENC and its reserved bits 0 is the word of its operand (R94). -/
theorem encode_fmtenc_fields (hop : opcodeOf w = 0x40#8) (h : w.extractLsb' 3 21 = 0#21) :
    encode (.fmtenc (w.extractLsb' 0 3)) = w := by
  change 0x40#8 ++ 0#21 ++ w.extractLsb' 0 3 = w
  rw [← hop, ← h, opcodeOf]
  simp only [BitVec.extractLsb'_append_extractLsb'_eq_extractLsb', BitVec.extractLsb'_eq_self]

end Fields

/-- The four bytes of a word decode as the word (R63, R90). -/
theorem decodeBytes_lanes (w : Word) : decodeBytes ((List.range 4).map (laneOf w)) = decode w :=
  congrArg decode (wordOfLanes_laneOf w)

/-- The word of PAYPUSH decodes to it at every operand value, legal or not (R93). -/
theorem decode_encode_paypush (n : BitVec 5) (data : BitVec 16) :
    decode (encode (.paypush n data)) = .ok (.paypush n data) := by
  obtain ⟨hres, hn, hdata⟩ := fields_encode_paypush n data
  have hdec : decode (encode (.paypush n data)) = decodeP (encode (.paypush n data)) := by
    unfold decode
    rw [opcodeOf_encode_paypush]
    rfl
  rw [hdec, decodeP, if_pos hres, hn, hdata]

/-- The word of a command decodes to the command: a word without operands by evaluation, the small operands value by value. -/
theorem decode_encode (i : Instr) : decode (encode i) = .ok i := by
  cases i with
  | setcfg v e => revert v e; decide
  | paypush n data => exact decode_encode_paypush n data
  | fmtenc m => revert m; decide
  | _ => rfl

/-- Settles O1: the round trip on the word, and on the four lanes, which put together again are the word. -/
theorem decodeOfEncode : Obligations.DecodeOfEncode := by
  unfold Obligations.DecodeOfEncode
  exact fun i => ⟨decode_encode i, (decodeBytes_lanes _).trans (decode_encode i)⟩

/-- A word that decodes is the word of its command: its opcode, its operands and 0 elsewhere, format by format. -/
theorem encode_of_decode {w : Word} {i : Instr} (h : decode w = .ok i) : encode i = w := by
  rcases decode_cases h with ⟨j, hj, h⟩ | ⟨hop, h⟩ | ⟨hop, h⟩ | ⟨hop, h⟩
  · obtain ⟨rfl, hlow⟩ := decodeZ_ok h
    rw [hj, encodeZ_of_fields rfl hlow]
  · obtain ⟨⟨h1, h2⟩, h⟩ | ⟨-, h⟩ := ite_eq_iff.1 h
    · exact Except.ok.inj h ▸ encode_setcfg_fields hop h1 h2
    · cases h
  · obtain ⟨hres, h⟩ | ⟨-, h⟩ := ite_eq_iff.1 h
    · exact Except.ok.inj h ▸ encode_paypush_fields hop hres
    · cases h
  · obtain ⟨hres, h⟩ | ⟨-, h⟩ := ite_eq_iff.1 h
    · exact Except.ok.inj h ▸ encode_fmtenc_fields hop hres
    · cases h

/-- Settles O2: each format read backwards. -/
theorem encodeOfDecode : Obligations.EncodeOfDecode := by
  unfold Obligations.EncodeOfDecode
  exact fun w i h => encode_of_decode h

/-! ## From a row of the opcode map to the command -/

/-- The word of a command stands on the command's row (R96). -/
theorem encode_and_mask (i : Instr) : encode i &&& (rowOf i).mask = (rowOf i).value := by
  cases i with
  | setcfg v e => exact beq_iff_eq.1 (Laws.OpcodeMap.setcfg v e).1
  | paypush n data => exact beq_iff_eq.1 (Laws.OpcodeMap.paypush n data).1
  | fmtenc m => exact beq_iff_eq.1 (Laws.OpcodeMap.fmtenc m).1
  | _ => rfl

/-- A field that the mask covers has the value of the row. -/
theorem extractLsb'_of_masked {w m v : Word} (h : w &&& m = v) {lo len : Nat} (hm : m.extractLsb' lo len = BitVec.allOnes len) :
    w.extractLsb' lo len = v.extractLsb' lo len := by
  rw [← h, BitVec.extractLsb'_and, hm, BitVec.and_allOnes]

/-- A word that a row covers is the word of a command on that row: the mask leaves out the operands alone (R96). -/
theorem exists_encode_of_masked {w : Word} (j : Instr) (h : w &&& (rowOf j).mask = (rowOf j).value) :
    ∃ i, encode i = w ∧ rowOf i = rowOf j := by
  cases j with
  | setcfg v e =>
    have field := @extractLsb'_of_masked w 0xFFFFF0FC 0x02000000 h
    exact ⟨_, encode_setcfg_fields (field (by decide)) (field (by decide)) (field (by decide)), rfl⟩
  | paypush n data =>
    have field := @extractLsb'_of_masked w 0xFFE00000 0x04000000 h
    exact ⟨_, encode_paypush_fields (field (by decide)) (field (by decide)), rfl⟩
  | fmtenc m =>
    have field := @extractLsb'_of_masked w 0xFFFFFFF8 0x40000000 h
    exact ⟨_, encode_fmtenc_fields (field (by decide)) (field (by decide)), rfl⟩
  | _ =>
    refine ⟨_, ?_, rfl⟩
    exact h.symm.trans BitVec.and_allOnes

/-- Settles O3: a decoded word is the word of its command, which stands on its row; a word on a row is the word of a command. -/
theorem decodeFollowsOpcodeMap : Obligations.DecodeFollowsOpcodeMap := by
  unfold Obligations.DecodeFollowsOpcodeMap
  intro w j
  constructor
  · rintro ⟨i, hi, hrow⟩
    rw [← hrow, ← encode_of_decode hi, encode_and_mask]
  · intro h
    obtain ⟨i, rfl, hrow⟩ := exists_encode_of_masked j h
    exact ⟨i, decode_encode i, hrow⟩

/-- Settles O4: the seven words, evaluated. -/
theorem writtenWordsDecode : Obligations.WrittenWordsDecode := by
  unfold Obligations.WrittenWordsDecode
  decide

end Sys2Proof

namespace Sys2Proof.Machine

/-! PROOFS. The pseudo-commands (30_encoding.md rule R103): runs of commands put together, then PAYBITS. -/

/-! ## Runs -/

theorem execList_cons_of_next {i : Instr} {rest : List Instr} {s t : State} (h : exec i s = .next t) :
    execList (i :: rest) s = execList rest t := by
  rw [execList, h]

theorem execList_append_of_next {a b : List Instr} {s t : State} (h : execList a s = .next t) :
    execList (a ++ b) s = execList b t := by
  induction a generalizing s with
  | nil => cases h; rfl
  | cons i a ih =>
    cases hx : exec i s with
    | next u =>
      rw [execList_cons_of_next hx] at h
      rw [List.cons_append, execList_cons_of_next hx, ih h]
    | fault f => rw [execList, hx] at h; cases h
    | refused r => rw [execList, hx] at h; cases h

/-! ## PAYBITS -/

theorem bitsValue_concat (bits : List Bool) (b : Bool) : bitsValue (bits ++ [b]) = 2 * bitsValue bits + b.toNat := by
  simp [bitsValue]

theorem bitsValue_lt (bits : List Bool) : bitsValue bits < 2 ^ bits.length := by
  induction bits using List.reverseRecOn with
  | nil => decide
  | append_singleton bits b ih =>
    have := b.toNat_le
    rw [bitsValue_concat, List.length_append, List.length_singleton, Nat.pow_succ]
    omega

/-- The binary digits of the value of a bit string, most significant first, are the bit string (R10). -/
theorem map_testBit_bitsValue (bits : List Bool) :
    ((List.range bits.length).map fun j => (bitsValue bits).testBit (bits.length - 1 - j)) = bits := by
  induction bits using List.reverseRecOn with
  | nil => rfl
  | append_singleton bits b ih =>
    have hlast : (2 * bitsValue bits + b.toNat).testBit 0 = b := by cases b <;> simp
    have hrest : ∀ j, (2 * bitsValue bits + b.toNat).testBit (j + 1) = (bitsValue bits).testBit j := fun j => by
      have := b.toNat_le
      rw [Nat.testBit_succ, show (2 * bitsValue bits + b.toNat) / 2 = bitsValue bits by omega]
    rw [bitsValue_concat, List.length_append, List.length_singleton, List.range_succ, List.map_append]
    congr 1
    · conv_rhs => rw [← ih]
      refine List.map_congr_left fun j hj => ?_
      have := List.mem_range.1 hj
      rw [← hrest]
      congr 1
      omega
    · simp [hlast]

section Piece

variable {piece : List Bool}

/-- The count of a piece fits its field. -/
theorem toNat_pieceLength (h : piece.length ≤ 16) : (BitVec.ofNat 5 piece.length).toNat = piece.length := by
  rw [BitVec.toNat_ofNat, Nat.mod_eq_of_lt (by omega)]

/-- The value of a piece fits its field. -/
theorem toNat_pieceValue (h : piece.length ≤ 16) : (BitVec.ofNat 16 (bitsValue piece)).toNat = bitsValue piece := by
  rw [BitVec.toNat_ofNat, Nat.mod_eq_of_lt ((bitsValue_lt piece).trans_le (Nat.pow_le_pow_right (by decide) h))]

/-- The push of a piece pushes the piece (R95, R103). -/
theorem pushedBits_piece (h : piece.length ≤ 16) :
    pushedBits (BitVec.ofNat 5 piece.length) (BitVec.ofNat 16 (bitsValue piece)) = piece := by
  simp only [pushedBits, toNat_pieceLength h, ← BitVec.testBit_toNat, toNat_pieceValue h]
  exact map_testBit_bitsValue piece

/-- The push of a piece appends it (R128): none of the three checks fails. -/
theorem exec_pushOf {s : State} (hp : s.phase = .idle ∨ s.phase = .done) (h0 : piece ≠ []) (h16 : piece.length ≤ 16)
    (hfit : s.pay.length + piece.length ≤ 2048) : exec (pushOf piece) s = .next { s with pay := s.pay ++ piece } := by
  have hlen : 0 < piece.length := List.length_pos_iff.2 h0
  have hshift : bitsValue piece >>> piece.length = 0 := by
    rw [Nat.shiftRight_eq_div_pow, Nat.div_eq_of_lt (bitsValue_lt piece)]
  have hok : pushRefused (BitVec.ofNat 5 piece.length) (BitVec.ofNat 16 (bitsValue piece)) s.payLen = false := by
    simp only [pushRefused, toNat_pieceLength h16, toNat_pieceValue h16, hshift, State.payLen, Config.payMax,
      Bool.or_eq_false_iff, decide_eq_false_iff_not]
    omega
  refine exec_of_ok (by simp [pushOf]) ?_ ?_ (by simp [pushOf, usesGrid]) (paypushBody_ok_iff.2 ⟨hok, ?_⟩)
  · rcases hp with hp | hp <;> simp [hp]
  · rcases hp with hp | hp <;> simp [hp, pushOf, legalIn]
  · rw [pushedBits_piece h16]

end Piece

/-- The pushes of the pieces append the bit string, a piece at a time (R103). -/
theorem execList_pieces (fuel : Nat) (bits : List Bool) (s : State) (hfuel : bits.length ≤ fuel)
    (hp : s.phase = .idle ∨ s.phase = .done) (hfit : s.pay.length + bits.length ≤ 2048) :
    execList ((pieces fuel bits).map pushOf) s = .next { s with pay := s.pay ++ bits } := by
  induction fuel, bits using pieces.induct generalizing s with
  | case1 bits =>
    obtain rfl : bits = [] := List.length_eq_zero_iff.1 (by omega)
    simp [pieces, execList]
  | case2 fuel => simp [pieces, execList]
  | case3 fuel b bs ih =>
    have hlen := congrArg List.length (List.take_append_drop 16 (b :: bs))
    have hcut : ((b :: bs).take 16).length ≤ 16 := List.length_take_le ..
    simp only [List.length_append, List.length_cons] at hlen hfuel hfit
    have hdrop : ((b :: bs).drop 16).length ≤ fuel := by rw [List.length_drop, List.length_cons]; omega
    have hrest := ih { s with pay := s.pay ++ (b :: bs).take 16 } hdrop hp (by rw [List.length_append]; omega)
    rw [List.append_assoc, List.take_append_drop] at hrest
    rw [pieces, List.map_cons, execList_cons_of_next (exec_pushOf hp (by simp) hcut (by omega)), hrest]

theorem length_pieces (fuel : Nat) (bits : List Bool) (h : bits.length ≤ fuel) :
    (pieces fuel bits).length = (bits.length + 15) / 16 := by
  induction fuel, bits using pieces.induct with
  | case1 bits =>
    obtain rfl : bits = [] := List.length_eq_zero_iff.1 (by omega)
    rfl
  | case2 fuel => rfl
  | case3 fuel b bs ih =>
    simp only [List.length_cons] at h
    rw [pieces, List.length_cons, ih (by rw [List.length_drop, List.length_cons]; omega), List.length_drop, List.length_cons]
    omega

theorem length_paybitsWords (bits : List Bool) : (paybitsWords bits).length = (bits.length + 15) / 16 := by
  rw [paybitsWords, List.length_map, length_pieces _ _ le_rfl]

/-- Settles O59: PAYBITS a piece at a time, and the numbers of words. -/
theorem pseudoCommandsExpand : Obligations.PseudoCommandsExpand := by
  unfold Obligations.PseudoCommandsExpand
  refine ⟨fun bits s hp hfit => execList_pieces _ bits s le_rfl hp hfit, length_paybitsWords, rfl, rfl, rfl, rfl,
    fun v e bits => ?symbol⟩
  case symbol =>
    have hassemble : assembleWords.length = 19 := rfl
    simp only [expand, List.length_append, List.length_cons, List.length_nil, length_paybitsWords, hassemble]
    omega

end Sys2Proof.Machine

namespace Sys2Proof.Machine

/-! PROOFS. ASSEMBLE (30_encoding.md rule R103) completes: the five passes over an empty Matrix, the cells they leave free, eight
MEVAL in a row, then the whole sequence. -/

/-- Of the commands only RESET is legal in `FAULT` (R26). -/
theorem ne_fault_of_legalIn {i : Instr} {p : Phase} (hi : i ≠ .reset) (hl : legalIn i p = true) : p ≠ .fault := by
  rintro rfl
  cases i <;> simp [legalIn] at hi hl

/-- A legal command whose rule does not fault, its grid inside the arrays, answers what its rule answers. -/
theorem exec_of_rule {i : Instr} {s t : State} (hi : i ≠ .reset) (hl : legalIn i s.phase = true) (hg : s.gs ≤ Config.gmax)
    (hb : bodyOf i s = .ok t) : exec i s = .next t :=
  exec_of_ok hi (ne_fault_of_legalIn hi hl) hl (fun _ => hg) hb

/-! ## The five passes -/

/-- What one overlay leaves: the triples written, and the next phase. -/
def State.written (s : State) (l : List Triple) (p : Phase) : State := { s with grid := writeTriples s.grid l, phase := p }

@[simp] theorem State.written_gs (s : State) (l : List Triple) (p : Phase) : (s.written l p).gs = s.gs := rfl

/-- One overlay after another is the overlay of both lists. -/
theorem State.written_written (s : State) (a b : List Triple) (p q : Phase) :
    (s.written a p).written b q = s.written (a ++ b) q := by
  simp only [State.written, writeTriples_append]

theorem State.written_cell (s : State) (l : List Triple) (p : Phase) {r c : Nat} (hr : r < Config.gmax) (hc : c < Config.gmax) :
    (s.written l p).cell r c = (lastAt l r c).getD (s.cell r c) :=
  planeGet_writeTriples _ _ _ hr hc

section Passes

variable {s : State}

/-- A pass in its phase, its triples inside the grid, writes them and enters the next phase. -/
theorem exec_overlayThen {i : Instr} {l : List Triple} {p : Phase} (hb : bodyOf i s = overlayThen l p s) (hi : i ≠ .reset)
    (hl : legalIn i s.phase = true) (hg : s.gs ≤ Config.gmax) (hin : ∀ x ∈ l, inGrid s.gs x.1 x.2.1 = true) :
    exec i s = .next (s.written l p) :=
  exec_of_rule hi hl hg (hb.trans (overlayThen_ok hin))

/-- The triples of the passes, in order (R150); PVERINFO has none (R170). -/
def patternTriples (gs : Nat) : List Triple :=
  timingRow gs ++ timingColumn gs ++ finderTriples gs ++ separatorTriples gs ++ reservationTriples gs

/-- PATTERNS from `CLEARED` writes the triples of its passes, one list after the other. -/
theorem execList_patterns (hp : s.phase = .cleared) (hv : versionSupported s.version = true) :
    execList patternsWords s = .next (s.written (patternTriples s.gs) .patterned) := by
  obtain ⟨h21, hmax⟩ := gs_of_supported hv
  have timing : exec .ptiming s = .next (s.written (timingRow s.gs ++ timingColumn s.gs) .timed) :=
    exec_overlayThen (ptimingBody_eq s) (by decide) (by simp [hp, legalIn]) hmax (timing_inGrid (by omega))
  have finder : ∀ l, exec .pfinder (s.written l .timed) = .next (s.written (l ++ finderTriples s.gs) .found) := fun l =>
    State.written_written s .. ▸ exec_overlayThen rfl (by decide) rfl hmax finder_inGrid
  have separator : ∀ l, exec .psep (s.written l .found) = .next (s.written (l ++ separatorTriples s.gs) .sepd) := fun l =>
    State.written_written s .. ▸ exec_overlayThen rfl (by decide) rfl hmax (separator_inGrid (by omega))
  have reservation : ∀ l, exec .pfmtrsv (s.written l .sepd) = .next (s.written (l ++ reservationTriples s.gs) .rsvd) := fun l =>
    State.written_written s .. ▸ exec_overlayThen rfl (by decide) rfl hmax (reservation_inGrid (by omega))
  have version : ∀ l, exec .pverinfo (s.written l .rsvd) = .next (s.written l .patterned) := fun l =>
    exec_of_rule (by decide) rfl hmax (pverinfoBody_ok_iff.2 ⟨((versionSupported_iff _).1 hv).2, rfl⟩)
  rw [patternsWords, execList_cons_of_next timing, execList_cons_of_next (finder _), execList_cons_of_next (separator _),
    execList_cons_of_next (reservation _), execList_cons_of_next (version _)]
  rfl

/-- Over an empty grid the passes leave the patterned Matrix (R172). -/
theorem lastAt_patternTriples {gs r c : Nat} (ho : gs % 2 = 1) (hg : 21 ≤ gs) (hr : r < gs) (hc : c < gs) :
    (lastAt (patternTriples gs) r c).getD .unset = patternedCell gs r c := by
  have timed : (lastAt (timingRow gs ++ timingColumn gs) r c).getD .unset = timedCell .unset r c := by
    simp only [timing_lastAt, timedCell, hr, hc, true_and, and_true]
    split_ifs <;> rfl
  have separated : ∀ d, (lastAt (separatorTriples gs) r c).getD d = sepdCell gs d r c := fun d =>
    (separator_lastAt (by omega) r c d).trans (if_congr (by omega) rfl rfl)
  have reserved : ∀ d, (lastAt (reservationTriples gs) r c).getD d = rsvdCell gs d r c := fun d =>
    (reservation_lastAt (by omega) r c d).trans (if_congr Iff.rfl rfl (if_congr (by omega) rfl rfl))
  have append : ∀ a b : List Triple, (lastAt (a ++ b) r c).getD .unset = (lastAt b r c).getD ((lastAt a r c).getD .unset) :=
    fun a b => by rw [lastAt_append]; cases lastAt b r c <;> rfl
  rw [← layers_eq_patternedCell ho hg hr hc, patternTriples, append, append, append, timed, finder_lastAt (by omega) hr hc,
    separated, reserved]

end Passes

/-! ## The cells the passes leave free -/

/-- The free cells: outside the timing row and column and outside the three corners of finders and format cells (R172). -/
theorem patternedCell_unset_iff {gs r c : Nat} (hg : 21 ≤ gs) (hr : r < gs) (hc : c < gs) :
    patternedCell gs r c = .unset ↔
      r ≠ 6 ∧ c ≠ 6 ∧ ¬(r ≤ 8 ∧ c ≤ 8) ∧ ¬(gs - 8 ≤ r ∧ c ≤ 8) ∧ ¬(r ≤ 8 ∧ gs - 8 ≤ c) := by
  have hf := fun r c => (finder_colour r c).2
  have ht := fun i => (timing_colour i).2
  unfold patternedCell
  split_ifs <;> simp only [hf, ht, false_iff, true_iff] <;> omega

/-- The free cells in three bands of rows: beside the two upper corners, between the corners, beside the lower corner. -/
def freeRegion (gs : Nat) : Finset (Nat × Nat) :=
  (Finset.range 9).erase 6 ×ˢ Finset.Ico 9 (gs - 8) ∪ Finset.Ico 9 (gs - 8) ×ˢ (Finset.range gs).erase 6
    ∪ Finset.Ico (gs - 8) gs ×ˢ Finset.Ico 9 gs

theorem mem_freeRegion {gs r c : Nat} (hg : 21 ≤ gs) :
    (r, c) ∈ freeRegion gs ↔ r < gs ∧ c < gs ∧ patternedCell gs r c = .unset := by
  rw [and_congr_right fun hr => and_congr_right fun hc => patternedCell_unset_iff hg hr hc]
  simp only [freeRegion, Finset.mem_union, Finset.mem_product, Finset.mem_erase, Finset.mem_range, Finset.mem_Ico]
  omega

/-- Bands with different rows are counted one by one. -/
theorem card_bands {r₁ r₂ r₃ c₁ c₂ c₃ : Finset Nat} (h₁₂ : Disjoint r₁ r₂) (h₁₃ : Disjoint r₁ r₃) (h₂₃ : Disjoint r₂ r₃) :
    (r₁ ×ˢ c₁ ∪ r₂ ×ˢ c₂ ∪ r₃ ×ˢ c₃).card = r₁.card * c₁.card + r₂.card * c₂.card + r₃.card * c₃.card := by
  rw [Finset.card_union_of_disjoint, Finset.card_union_of_disjoint, Finset.card_product, Finset.card_product,
    Finset.card_product]
  · exact Finset.disjoint_product.2 (.inl h₁₂)
  · exact Finset.disjoint_union_left.2 ⟨Finset.disjoint_product.2 (.inl h₁₃), Finset.disjoint_product.2 (.inl h₂₃)⟩

theorem card_freeRegion {gs : Nat} (hg : 21 ≤ gs) : (freeRegion gs).card + 2 * gs + 191 = gs * gs := by
  obtain ⟨n, rfl⟩ : ∃ n, gs = n + 17 := ⟨gs - 17, by omega⟩
  have h6 : 6 ∈ Finset.range (n + 17) := Finset.mem_range.2 (by omega)
  rw [freeRegion, card_bands, Finset.card_erase_of_mem (by decide), Finset.card_erase_of_mem h6]
  case h₁₂ | h₁₃ | h₂₃ =>
    refine Finset.disjoint_left.2 fun x => ?_
    simp only [Finset.mem_erase, Finset.mem_range, Finset.mem_Ico]
    omega
  simp only [Finset.card_range, Nat.card_Ico, Nat.reduceSubDiff, Nat.add_sub_cancel, Nat.add_sub_add_left]
  ring

/-- The free cells of the patterned Matrix are `CAP(v)` many (R186). -/
theorem length_freeCells_patterned {s : State} (hv : versionSupported s.version = true)
    (hs : ∀ r < s.gs, ∀ c < s.gs, s.cell r c = patternedCell s.gs r c) :
    (freeCells s).length + 2 * s.gs + 191 = s.gs * s.gs ∧ (freeCells s).length = capacity s.version.toNat := by
  obtain ⟨hg, -⟩ := gs_of_supported hv
  have hset : (freeCells s).toFinset = freeRegion s.gs := by
    ext ⟨r, c⟩
    rw [List.mem_toFinset, mem_freeCells, mem_freeRegion hg]
    constructor
    · rintro ⟨⟨hr, hc, -⟩, hu⟩
      exact ⟨hr, hc, hs r hr c hc ▸ hu⟩
    · rintro ⟨hr, hc, hu⟩
      exact ⟨⟨hr, hc, fun h6 => patternedCell_column_six (h6 ▸ hu)⟩, (hs r hr c hc).trans hu⟩
  have hcard := card_freeRegion hg
  rw [← hset, List.toFinset_card_of_nodup (nodup_freeCells s)] at hcard
  refine ⟨hcard, ?_⟩
  have hcap : capacity s.version.toNat = s.gs ^ 2 - 2 * s.gs - 191 := rfl
  rw [hcap, pow_two]
  omega

/-! ## The collaborators -/

/-- The collaborators answer every query of the grid size within their types (R7, R276), and FMT_COORDS stays inside the grid
(R135). -/
structure State.Answers (s : State) : Prop where
  masks : ∀ k < 8, ∀ r < s.gs, ∀ c < s.gs, s.collab.maskAnswer k r c = .int 0 ∨ s.collab.maskAnswer k r c = .int 1
  scores : ∀ cand : List Cell, cand.length = s.gs * s.gs →
    ∃ n : Int, s.collab.scoreAnswer s.gs cand = .int n ∧ -2 ^ 31 ≤ n ∧ n ≤ 2 ^ 31 - 1
  coords : ∀ i < 15, ∀ k, k = 1 ∨ k = 2 →
    inGrid s.gs (s.collab.coordsOf s.gs k i).1 (s.collab.coordsOf s.gs k i).2 = true

namespace State.Answers

variable {s : State}

/-- The condition is one on the grid size and the parameters alone. -/
theorem of_same (h : s.Answers) {t : State} (hg : t.gs = s.gs) (hc : t.collab = s.collab) : t.Answers :=
  ⟨by rw [hg, hc]; exact h.masks, by rw [hg, hc]; exact h.scores, by rw [hg, hc]; exact h.coords⟩

theorem masksAnswer (h : s.Answers) {k : Nat} (hk : k < 8) : s.masksAnswer k := fun r hr c hc _ => h.masks k hk r hr c hc

/-- Every candidate has a score. -/
theorem exists_candScore (h : s.Answers) {k : Nat} (hk : k < 8) : ∃ v, s.candScore k = some v := by
  obtain ⟨n, hn, hlo, hhi⟩ := h.scores _ (length_candidate s k)
  exact ⟨_, by rw [candScore_of_answers (h.masksAnswer hk), hn, scoreWord_of_range hlo (by omega)]⟩

/-- FMTWRITE's triples are inside the grid (R135). -/
theorem formatTriples_inGrid (h : s.Answers) (hg : 21 ≤ s.gs) : ∀ x ∈ formatTriples s, inGrid s.gs x.1 x.2.1 = true := by
  intro x hx
  rcases mem_formatTriples.1 hx with ⟨i, hi, k, hk, rfl⟩ | rfl | rfl
  · exact h.coords i hi k hk
  · rw [inGrid_iff]; dsimp only; omega
  · rw [inGrid_iff]; dsimp only; omega

end State.Answers

/-! ## The parts of ASSEMBLE after the passes -/

/-- What MEVAL leaves: the mask registers, and `SCORING` (R210). -/
def State.withWinner (s : State) (m : BitVec 32) (b : BitVec 3) (c : Fin 9) : State :=
  { s with minscore := m, best := b, mcnt := c, phase := .scoring }

section Parts

variable {s : State}

/-- MEVAL of a candidate that has a score writes the mask registers and the phase alone (R210). -/
theorem exec_meval (hp : s.phase = .placed ∨ s.phase = .scoring) (hg : s.gs ≤ Config.gmax) (ha : s.Answers) {c : Fin 9}
    (hc : c.val = s.mcnt.val + 1) : ∃ m b, exec .meval s = .next (s.withWinner m b c) := by
  have hn : s.mcnt.val < 8 := by omega
  obtain ⟨v, hv⟩ := ha.exists_candScore hn
  have hx : exec .meval s = .next (s.scored v c) :=
    exec_of_rule (by decide) (by rcases hp with hp | hp <;> simp [hp, legalIn]) hg
      (mevalBody_ok_iff.2 ⟨hn, v, hv, congrArg _ (Fin.ext hc)⟩)
  unfold State.scored at hx
  split at hx
  · exact ⟨_, _, hx⟩
  · exact ⟨_, _, hx⟩

/-- A run of MEVAL counts its candidates and writes the mask registers and the phase alone. -/
theorem execList_mevals (n : Nat) (hp : s.phase = .placed ∨ s.phase = .scoring) (hg : s.gs ≤ Config.gmax) (ha : s.Answers)
    {c : Fin 9} (hc : c.val = s.mcnt.val + (n + 1)) :
    ∃ m b, execList (List.replicate (n + 1) .meval) s = .next (s.withWinner m b c) := by
  induction n generalizing s with
  | zero =>
    obtain ⟨m, b, hx⟩ := exec_meval hp hg ha hc
    exact ⟨m, b, execList_cons_of_next hx⟩
  | succ n ih =>
    obtain ⟨m, b, hx⟩ := exec_meval hp hg ha (c := ⟨s.mcnt.val + 1, by omega⟩) rfl
    obtain ⟨m', b', hrest⟩ := ih (s := s.withWinner m b ⟨s.mcnt.val + 1, by omega⟩) (.inr rfl) hg (ha.of_same rfl rfl)
      (by simp only [State.withWinner]; omega)
    exact ⟨m', b', (execList_cons_of_next hx).trans hrest⟩

/-- MSELECT from `PLACED` commits the candidate of the winner it leaves (R212, R214). -/
theorem execList_mselect (hp : s.phase = .placed) (hg : s.gs ≤ Config.gmax) (hn : s.mcnt = 0) (ha : s.Answers) :
    ∃ m b, execList mselectWords s = .next ((s.withWinner m b 8).committed b.toNat) := by
  obtain ⟨m, b, hevals⟩ := execList_mevals 7 (c := 8) (.inl hp) hg ha (by rw [hn]; rfl)
  have hmasks : (s.withWinner m b 8).masksAnswer b.toNat := (ha.of_same rfl rfl).masksAnswer b.isLt
  have hcommit : exec .mcommit (s.withWinner m b 8) = .next ((s.withWinner m b 8).committed b.toNat) :=
    exec_of_rule (by decide) rfl hg (mcommitBody_ok_iff.2 ⟨rfl, maskErr_false_iff.2 hmasks, rfl⟩)
  exact ⟨m, b, (execList_append_of_next hevals).trans (execList_cons_of_next hcommit)⟩

/-- FORMAT from `COMMITTED` writes the format items for the winner, then the format cells (R240, R246). -/
theorem execList_format (hp : s.phase = .committed) (hv : versionSupported s.version = true) (ha : s.Answers) :
    execList formatWords s =
      .next ((s.formatted s.best true).written (formatTriples (s.formatted s.best true)) .fmtWritten) := by
  obtain ⟨hg, hmax⟩ := gs_of_supported hv
  have hencode : exec .fmtencw s = .next (s.formatted s.best true) :=
    exec_of_rule (by decide) (by simp [hp, legalIn]) hmax rfl
  have ha' : (s.formatted s.best true).Answers := ha.of_same rfl rfl
  have hwrite := exec_overlayThen (i := .fmtwrite) (s := s.formatted s.best true) (fmtwriteBody_eq rfl) (by decide)
    (by simp [hp, legalIn]) hmax (ha'.formatTriples_inGrid hg)
  exact (execList_cons_of_next hencode).trans (execList_cons_of_next hwrite)

/-- QZONE from `FMTWRITTEN` (R260). -/
theorem exec_qzone (hp : s.phase = .fmtWritten) (hg : s.gs ≤ Config.gmax) : exec .qzone s = .next s.bordered :=
  exec_of_rule (by decide) (by simp [hp, legalIn]) hg rfl

end Parts

/-! ## ASSEMBLE -/

/-- What INIT and PATTERNS leave: the patterned Matrix (R172). -/
def State.patterned (s : State) : State := s.cleared.written (patternTriples s.gs) .patterned

section Patterned

variable {s : State}

theorem State.patterned_cell (hv : versionSupported s.version = true) {r c : Nat} (hr : r < s.gs) (hc : c < s.gs) :
    s.patterned.cell r c = patternedCell s.gs r c := by
  obtain ⟨hg, hmax⟩ := gs_of_supported hv
  rw [State.patterned, State.written_cell _ _ _ (by omega) (by omega), State.cleared_cell,
    lastAt_patternTriples (gs_odd s) hg hr hc]

/-- What INIT, PATTERNS and PLACE leave, from a state that accepts INIT, with a payload that fits. -/
theorem execList_placed (hp : s.phase = .idle ∨ s.phase = .done) (hv : versionSupported s.version = true)
    (hfit : s.payLen ≤ (freeCells s.patterned).length) :
    execList ([.init] ++ patternsWords ++ [.place]) s = .next s.patterned.placedBits := by
  obtain ⟨-, hmax⟩ := gs_of_supported hv
  have hinit : exec .init s = .next s.cleared :=
    exec_of_rule (by decide) (by rcases hp with hp | hp <;> simp [hp, legalIn]) hmax (initBody_ok_iff.2 ⟨hv, rfl⟩)
  have hpatterns : execList patternsWords s.cleared = .next s.patterned := execList_patterns rfl hv
  have hplace : exec .place s.patterned = .next s.patterned.placedBits :=
    exec_of_rule (by decide) rfl hmax (placeBody_ok_iff.2 ⟨hfit, rfl⟩)
  have hbuilt : execList ([.init] ++ patternsWords) s = .next s.patterned := (execList_cons_of_next hinit).trans hpatterns
  exact (execList_append_of_next hbuilt).trans (execList_cons_of_next hplace)

/-- The payload is placed whole, and its length fits `NPLACED` (R188). -/
theorem toNat_nplaced_placedBits (hfit : s.payLen ≤ (freeCells s).length) (hlen : s.payLen < 2 ^ 12) :
    s.placedBits.nplaced.toNat = s.payLen := by
  obtain ⟨-, -, hn⟩ := placedBits_parts s
  rw [hn, Nat.min_eq_right hfit, BitVec.toNat_ofNat, Nat.mod_eq_of_lt hlen]

end Patterned

/-- Settles O60: the parts of ASSEMBLE, one after the other. -/
theorem assembleReachesDone : Obligations.AssembleReachesDone := by
  unfold Obligations.AssembleReachesDone
  intro s hp hv hfit hmasks hscores hcoords
  obtain ⟨-, hmax⟩ := gs_of_supported hv
  have ha : s.Answers := ⟨hmasks, hscores, hcoords⟩
  obtain ⟨hcount, hcap⟩ := length_freeCells_patterned (s := s.patterned) hv fun r hr c hc => State.patterned_cell hv hr hc
  have hfree : s.patterned.payLen ≤ (freeCells s.patterned).length := hcap ▸ hfit
  have hlen : s.patterned.payLen < 2 ^ 12 := by
    have : s.patterned.gs * s.patterned.gs ≤ 41 * 41 := Nat.mul_le_mul hmax hmax
    omega
  have hplaced := execList_placed hp hv hfree
  obtain ⟨m, b, hselect⟩ := execList_mselect (s := s.patterned.placedBits) rfl hmax rfl (ha.of_same rfl rfl)
  have hselected := (execList_append_of_next hplaced).trans hselect
  have hformat := execList_format (s := (s.patterned.placedBits.withWinner m b 8).committed b.toNat) rfl hv (ha.of_same rfl rfl)
  have hformatted := (execList_append_of_next hselected).trans hformat
  refine ⟨_, (execList_append_of_next hformatted).trans (execList_cons_of_next (exec_qzone rfl hmax)), rfl, rfl, rfl, rfl,
    toNat_nplaced_placedBits hfree hlen, ?incomplete, rfl, rfl⟩
  case incomplete => exact congrArg (fun n => decide (s.pay.length < n)) hcap

end Sys2Proof.Machine

namespace Sys2Proof.Machine

/-! PROOFS. Control, input and Matrix creation (40_matrix_control.md): Overlay, the commands of `IDLE` and `DONE`, then the grid
under the standard placement. -/

/-! ## Overlay -/

theorem inGrid_eq_false_iff {gs : Nat} {r c : Int} :
    inGrid gs r c = false ↔ r < 0 ∨ (gs : Int) ≤ r ∨ c < 0 ∨ (gs : Int) ≤ c := by
  rw [← Bool.not_eq_true, inGrid_iff]
  omega

section Overlay

variable {l front back : List Triple} {s u : State} {gs r c : Nat} {v : Cell}

/-- A list that passes Overlay's check and names a coordinate in no triple gives it no value. -/
theorem lastAt_unnamed (hl : ∀ x ∈ l, inGrid gs x.1 x.2.1 = true) (hn : ∀ x ∈ l, x.1 ≠ r ∨ x.2.1 ≠ c) :
    lastAt l r c = none := by
  refine lastAt_none fun x hx hrc => ?_
  have hin := inGrid_iff.1 (hl x hx)
  have hne := hn x hx
  omega

/-- The later triple wins (R134). -/
theorem lastAt_named (hback : ∀ x ∈ back, inGrid gs x.1 x.2.1 = true) (hn : ∀ x ∈ back, x.1 ≠ r ∨ x.2.1 ≠ c) :
    lastAt (front ++ ((r : Int), (c : Int), v) :: back) r c = some v := by
  rw [List.append_cons, lastAt_append, lastAt_unnamed hback hn, Option.none_or, lastAt_concat, if_pos (by simp)]

/-- Overlay leaves a cell that no triple names, inside the array and outside it. -/
theorem overlay_cell_unnamed (h : overlay l s = .ok u) (hn : ∀ x ∈ l, x.1 ≠ r ∨ x.2.1 ≠ c) : u.cell r c = s.cell r c := by
  obtain ⟨hl, -⟩ := overlay_ok_iff.1 h
  by_cases hout : Config.gmax ≤ r ∨ Config.gmax ≤ c
  · rw [State.cell_out u hout, State.cell_out s hout]
  · rw [overlay_cell h (by omega) (by omega), lastAt_unnamed hl hn, Option.getD_none]

/-- Overlay gives a cell the value of the last triple that names it, where the grid fits the array. -/
theorem overlay_cell_named (h : overlay (front ++ ((r : Int), (c : Int), v) :: back) s = .ok u) (hg : s.gs ≤ Config.gmax)
    (hn : ∀ x ∈ back, x.1 ≠ r ∨ x.2.1 ≠ c) : u.cell r c = v := by
  obtain ⟨hl, -⟩ := overlay_ok_iff.1 h
  have hin := inGrid_iff.1 (hl ((r : Int), (c : Int), v) (by simp))
  dsimp only at hin
  rw [overlay_cell h (by omega) (by omega), lastAt_named (fun x hx => hl x (by simp [hx])) hn, Option.getD_some]

end Overlay

/-- Settles O20: a coordinate outside is Overlay's fault; otherwise each cell by the last triple that names it. -/
theorem overlayChecksThenWrites : Obligations.OverlayChecksThenWrites := by
  unfold Obligations.OverlayChecksThenWrites
  intro l s hg
  constructor
  · rintro ⟨x, hx, hout⟩
    exact overlay_error_iff.2 ⟨⟨x, hx, inGrid_eq_false_iff.2 hout⟩, rfl⟩
  · intro hl
    have hok := overlay_ok fun x hx => inGrid_iff.2 (hl x hx)
    refine ⟨_, hok, rfl, ?named, fun r c hn => overlay_cell_unnamed hok hn⟩
    case named =>
      rintro front back r c v rfl hn
      exact overlay_cell_named hok hg hn

/-! ## The commands of `IDLE` and `DONE` -/

/-- The phases of SETCFG, PAYCLR, PAYPUSH and INIT (R26). -/
abbrev LegalInIdleDone (i : Instr) : Prop := ∀ p, legalIn i p = (p == .idle || p == .done)

section IdleDone

variable {i : Instr} {s t : State} {f : ErrCode}

theorem LegalInIdleDone.ne_reset (h : LegalInIdleDone i) : i ≠ .reset := by
  rintro rfl
  exact absurd (h .fault) (by decide)

/-- In these two phases the command runs its rule: it names no cell, so it needs no room in the arrays. -/
theorem LegalInIdleDone.runs (h : LegalInIdleDone i) (hp : s.phase = .idle ∨ s.phase = .done) :
    s.phase ≠ .fault ∧ legalIn i s.phase = true ∧ (usesGrid i = true → s.gs ≤ Config.gmax) := by
  have hl : legalIn i s.phase = true := by rcases hp with hp | hp <;> rw [h, hp] <;> rfl
  exact ⟨ne_fault_of_legalIn h.ne_reset hl, hl, fun hu => absurd (matrixPhase_of_usesGrid (h .idle) hu) (by decide)⟩

theorem LegalInIdleDone.exec_ok (h : LegalInIdleDone i) (hp : s.phase = .idle ∨ s.phase = .done) (hb : bodyOf i s = .ok t) :
    exec i s = .next t := by
  obtain ⟨hf, hl, hg⟩ := h.runs hp
  exact exec_of_ok h.ne_reset hf hl hg hb

theorem LegalInIdleDone.exec_error (h : LegalInIdleDone i) (hp : s.phase = .idle ∨ s.phase = .done)
    (hb : bodyOf i s = .error f) : exec i s = .next (s.takeFault f (encode i)) := by
  obtain ⟨hf, hl, hg⟩ := h.runs hp
  exact exec_of_error h.ne_reset hf hl hg hb

/-- In the other phases the command raises `Sequence`, and in `FAULT` it is discarded (R277, R282). -/
theorem LegalInIdleDone.exec_elsewhere (h : LegalInIdleDone i) (s : State) :
    (s.phase ≠ .idle → s.phase ≠ .done → s.phase ≠ .fault → exec i s = .next (s.takeFault .sequence (encode i)))
    ∧ (s.phase = .fault → exec i s = .next s) :=
  ⟨fun hi hd hf => exec_illegal h.ne_reset hf (by simp [h s.phase, hi, hd]), exec_in_fault h.ne_reset⟩

end IdleDone

/-- Settles O14: outside `FAULT` the empty rule, in `FAULT` the discard. -/
theorem nopChangesNothing : Obligations.NopChangesNothing := by
  unfold Obligations.NopChangesNothing
  refine ⟨decode_encode .nop, fun s => ?_⟩
  by_cases hp : s.phase = .fault
  · exact exec_in_fault (by decide) hp
  · exact exec_of_ok (by decide) hp (by simp [legalIn, hp]) (by simp [usesGrid]) rfl

/-- The word of SETCFG, written out (R92). -/
theorem setcfg_word (v : BitVec 4) (e : BitVec 2) :
    (0x02000000 : Word) ||| v.setWidth 32 <<< 8 ||| e.setWidth 32 = encode (.setcfg v e) := by
  revert v e
  decide

/-- Settles O16: SETCFG's rule has no check. -/
theorem setcfgStoresConfiguration : Obligations.SetcfgStoresConfiguration := by
  unfold Obligations.SetcfgStoresConfiguration
  intro v e
  have hlegal : LegalInIdleDone (.setcfg v e) := fun _ => rfl
  exact ⟨setcfg_word v e ▸ decode_encode (.setcfg v e), fun s => ⟨fun hp => hlegal.exec_ok hp rfl, hlegal.exec_elsewhere s⟩⟩

/-- Settles O17: PAYCLR's rule has no check. -/
theorem payclrEmptiesPayload : Obligations.PayclrEmptiesPayload := by
  unfold Obligations.PayclrEmptiesPayload
  have hlegal : LegalInIdleDone .payclr := fun _ => rfl
  exact ⟨decode_encode .payclr, fun s => ⟨fun hp => hlegal.exec_ok hp rfl, hlegal.exec_elsewhere s⟩⟩

/-! ## PAYPUSH -/

/-- The word of PAYPUSH, written out (R93). -/
theorem paypush_word (n : BitVec 5) (data : BitVec 16) :
    (0x04000000 : Word) ||| n.setWidth 32 <<< 16 ||| data.setWidth 32 = encode (.paypush n data) := by
  have hopcode : ∀ i < 32, (0x04000000 : Word).getLsbD i = decide (i = 26) := by decide
  refine BitVec.eq_of_getLsbD_eq fun i hi => ?_
  rw [getLsbD_encode_paypush, BitVec.getLsbD_or, BitVec.getLsbD_or, hopcode i hi, BitVec.getLsbD_shiftLeft,
    BitVec.getLsbD_setWidth, BitVec.getLsbD_setWidth]
  by_cases hdata : i < 16
  · simp [hdata, hi, show i ≠ 26 by omega]
  have h0 := BitVec.getLsbD_of_ge data i (by omega)
  by_cases hcount : i < 21
  · simp [hdata, hcount, hi, h0, show i ≠ 26 by omega, show i - 16 < 32 by omega]
  · simp [hdata, hcount, h0, BitVec.getLsbD_of_ge n (i - 16) (by omega)]

/-- The three checks of PAYPUSH as inequalities (R128). -/
theorem pushRefused_iff {n : BitVec 5} {data : BitVec 16} {len : Nat} :
    pushRefused n data len = true ↔
      n.toNat < 1 ∨ 16 < n.toNat ∨ 2 ^ n.toNat ≤ data.toNat ∨ 2048 < len + n.toNat := by
  have hdata : data.toNat >>> n.toNat ≠ 0 ↔ 2 ^ n.toNat ≤ data.toNat := by
    rw [Nat.shiftRight_eq_div_pow, Nat.div_ne_zero_iff]
    exact ⟨And.right, fun h => ⟨by positivity, h⟩⟩
  rw [pushRefused, Bool.or_eq_true, Bool.or_eq_true, decide_eq_true_eq, decide_eq_true_eq, decide_eq_true_eq, hdata, or_assoc,
    or_assoc]
  rfl

theorem paypushBody_error_iff {n : BitVec 5} {data : BitVec 16} {s : State} {f : ErrCode} :
    paypushBody n data s = .error f ↔ pushRefused n data s.payLen = true ∧ f = .operand := by
  unfold paypushBody
  split
  next h => simp [h, eq_comm]
  next h => simp [h]

theorem getElem?_pushedBits {n : BitVec 5} {data : BitVec 16} {j : Nat} (hj : j < n.toNat) :
    (pushedBits n data)[j]? = some (data.getLsbD (n.toNat - 1 - j)) := by
  simp [pushedBits, hj]

/-- Settles O18: the bits pushed one by one, and the three checks as inequalities. -/
theorem paypushAppendsBits : Obligations.PaypushAppendsBits := by
  unfold Obligations.PaypushAppendsBits
  intro n data
  have hlegal : LegalInIdleDone (.paypush n data) := fun _ => rfl
  refine ⟨paypush_word n data ▸ decode_encode (.paypush n data), fun s => ⟨?push, ?refuse, hlegal.exec_elsewhere s⟩⟩
  case push =>
    intro hp hlo hhi hdata hroom
    have hok : pushRefused n data s.payLen = false := by
      rw [← Bool.not_eq_true, pushRefused_iff, State.payLen]
      omega
    exact ⟨pushedBits n data, length_pushedBits n data, fun j hj => getElem?_pushedBits hj,
      hlegal.exec_ok hp (paypushBody_ok_iff.2 ⟨hok, rfl⟩)⟩
  case refuse =>
    intro hp hbad
    exact hlegal.exec_error hp (paypushBody_error_iff.2 ⟨pushRefused_iff.2 hbad, rfl⟩)

/-! ## INIT -/

theorem initBody_error_iff {s : State} {f : ErrCode} :
    initBody s = .error f ↔ versionSupported s.version = false ∧ f = .unsupportedVersion := by
  unfold initBody
  split
  next h => simp [h]
  next h => simp [h, eq_comm]

/-- Settles O19: the rule of INIT on both sides of its check; the arrays cell by cell. -/
theorem initCreatesEmptyMatrix : Obligations.InitCreatesEmptyMatrix := by
  unfold Obligations.InitCreatesEmptyMatrix
  have hlegal : LegalInIdleDone .init := fun _ => rfl
  refine ⟨decode_encode .init, fun s => ⟨?create, ?refuse, hlegal.exec_elsewhere s⟩⟩
  case create =>
    intro hp hlo hhi
    exact ⟨s.cleared, hlegal.exec_ok hp (initBody_ok_iff.2 ⟨(versionSupported_iff _).2 ⟨hlo, hhi⟩, rfl⟩), rfl,
      fun r _ c _ => ⟨State.cleared_cell s r c, State.cleared_flag s r c⟩⟩
  case refuse =>
    intro hp hbad
    have hv : versionSupported s.version = false := by
      rw [← Bool.not_eq_true, versionSupported_iff]
      omega
    exact hlegal.exec_error hp (initBody_error_iff.2 ⟨hv, rfl⟩)

/-! ## The grid under the standard placement -/

section Faults

variable {s : State} {f : ErrCode}

/-- PVERINFO's list is empty, so its one fault is the version's (R170). -/
theorem pverinfoBody_error (h : pverinfoBody s = .error f) : f = .unsupportedVersion := by
  by_cases hv : s.version.toNat ≤ 6
  · rw [pverinfoBody_ok_iff.2 ⟨hv, rfl⟩] at h
    cases h
  · rw [pverinfoBody, versionInfo, if_pos (by omega)] at h
    exact (Except.error.inj h).symm

theorem placeBody_error (h : placeBody s = .error f) : f = .payloadTooLong := by
  unfold placeBody at h
  split at h
  · exact (Except.error.inj h).symm
  · cases h

theorem mevalBody_error (h : mevalBody s = .error f) : f = .sequence ∨ f = .collaborator := by
  unfold mevalBody at h
  split at h
  · split at h
    · exact .inr (Except.error.inj h).symm
    · cases h
  · exact .inl (Except.error.inj h).symm

theorem mcommitBody_error (h : mcommitBody s = .error f) : f = .sequence ∨ f = .collaborator := by
  unfold mcommitBody at h
  split at h
  · exact .inl (Except.error.inj h).symm
  · split at h
    · exact .inr (Except.error.inj h).symm
    · cases h

/-- FMTWRITE without a valid format value raises `Sequence` before it asks for a placement (R246). -/
theorem fmtwriteBody_error (hin : ∀ x ∈ formatTriples s, inGrid s.gs x.1 x.2.1 = true) (h : fmtwriteBody s = .error f) :
    f = .sequence := by
  cases hv : s.fmtValid
  · rw [fmtwriteBody, if_pos hv] at h
    exact (Except.error.inj h).symm
  · rw [fmtwriteBody_ok_iff.2 ⟨hv, hin, rfl⟩] at h
    cases h

theorem overlayThen_ne_error {l : List Triple} {p : Phase} (hin : ∀ x ∈ l, inGrid s.gs x.1 x.2.1 = true) :
    overlayThen l p s ≠ .error f := by
  rw [overlayThen_ok hin]
  exact nofun

end Faults

/-- The lists of the fixed passes are inside every grid, FMTWRITE's inside the grid of a supported version under the standard
placement; no other rule overlays a list with a triple (R135). -/
theorem bodyOf_error_ne_outOfBounds {i : Instr} {s : State} {f : ErrCode} (hstd : s.collab.standardPlacement = true)
    (hc : s.ControlInv) (hp : s.phase ≠ .fault) (hl : legalIn i s.phase = true) (hb : bodyOf i s = .error f) :
    f ≠ .overlayOutOfBounds := by
  have hgs := gs_ge s
  cases i with
  | paypush n data =>
    obtain ⟨-, rfl⟩ := paypushBody_error_iff.1 hb
    decide
  | init =>
    obtain ⟨-, rfl⟩ := initBody_error_iff.1 hb
    decide
  | ptiming => exact absurd ((ptimingBody_eq s).symm.trans hb) (overlayThen_ne_error (timing_inGrid (by omega)))
  | pfinder => exact absurd hb (overlayThen_ne_error finder_inGrid)
  | psep => exact absurd hb (overlayThen_ne_error (separator_inGrid (by omega)))
  | pfmtrsv => exact absurd hb (overlayThen_ne_error (reservation_inGrid (by omega)))
  | pverinfo => exact pverinfoBody_error hb ▸ by decide
  | place => exact placeBody_error hb ▸ by decide
  | meval => rcases mevalBody_error hb with rfl | rfl <;> decide
  | mcommit => rcases mcommitBody_error hb with rfl | rfl <;> decide
  | fmtwrite =>
    have hm : matrixPhase s.passPhase = true := by
      rw [passPhase_of_ne hp]
      exact matrixPhase_of_usesGrid hl rfl
    obtain ⟨h21, -⟩ := gs_of_controlInv hc hm
    exact fmtwriteBody_error (format_inGrid_standard hstd h21) hb ▸ by decide
  | _ => cases hb

/-- Settles O40: only a rule's fault could be new, and under the standard placement it is another one. -/
theorem standardPlacementStaysInGrid : Obligations.StandardPlacementStaysInGrid := by
  unfold Obligations.StandardPlacementStaysInGrid
  intro i s t hstd hc hs h
  rcases exec_cases h with ⟨-, rfl⟩ | ⟨-, -, rfl⟩ | ⟨-, -, -, rfl⟩ | ⟨hi, hp, hl, -, hb | ⟨f, hf, rfl⟩⟩
  · simp
  · exact hs
  · simp
  · have hcode : t.errCode = s.errCode := bodyOf_same hi hb (errItem_not_mem_writeSet hi).1
    exact hcode ▸ hs
  · exact bodyOf_error_ne_outOfBounds hstd hc hp hl hf

end Sys2Proof.Machine

namespace Sys2Proof.Machine

/-! PROOFS. The Fixed-Pattern Placer (41_pattern_placer.md): each pass cell by cell, the five passes in a row, then the layers of
the Matrix in every phase. -/

/-! ## The passes, cell by cell -/

section Cells

variable {gs r c : Nat}

theorem timing_natCast (i : Nat) : timing i = if i % 2 = 0 then .black else .white := by
  unfold timing
  exact if_congr (by omega) rfl rfl

/-- Over a cell `d` of the live grid PTIMING's list leaves the timing layer (R152). -/
theorem timing_lastAt_getD (hr : r < gs) (hc : c < gs) (d : Cell) :
    (lastAt (timingRow gs ++ timingColumn gs) r c).getD d = timedCell d r c := by
  simp only [timing_lastAt, timedCell, hr, hc, true_and, and_true]
  split_ifs <;> rfl

/-- Over a cell `d` of the live grid PSEP's list leaves the separator layer (R160). -/
theorem separator_lastAt_getD (hg : 16 ≤ gs) (hr : r < gs) (hc : c < gs) (d : Cell) :
    (lastAt (separatorTriples gs) r c).getD d = sepdCell gs d r c :=
  (separator_lastAt hg r c d).trans (if_congr (by omega) rfl rfl)

/-- Over a cell `d` of the live grid PFMTRSV's list leaves the reserved layer (R164). -/
theorem reservation_lastAt_getD (hg : 16 ≤ gs) (hr : r < gs) (hc : c < gs) (d : Cell) :
    (lastAt (reservationTriples gs) r c).getD d = rsvdCell gs d r c :=
  (reservation_lastAt hg r c d).trans (if_congr Iff.rfl rfl (if_congr (by omega) rfl rfl))

/-- The finder motif as rings about its centre (3, 3): the outer ring at distance 3, the core within distance 1 (R158). -/
theorem finder_eq_rings {r c : Int} (hr : -1 ≤ r ∧ r ≤ 6) (hc : -1 ≤ c ∧ c ≤ 6) :
    finder r c = if max |r - 3| |c - 3| = 3 ∨ max |r - 3| |c - 3| ≤ 1 then .black else .white := by
  unfold finder
  refine if_congr ?_ rfl rfl
  simp only [abs_eq_max_neg]
  omega

/-- The triples of all passes are inside the grid. -/
theorem patternTriples_inGrid (hg : 16 ≤ gs) : ∀ x ∈ patternTriples gs, inGrid gs x.1 x.2.1 = true := by
  simp only [patternTriples, List.forall_mem_append]
  exact ⟨⟨⟨List.forall_mem_append.1 (timing_inGrid (by omega)), finder_inGrid⟩, separator_inGrid hg⟩, reservation_inGrid hg⟩

end Cells

/-- A pass in its phase completes, writes `GRID` and the phase alone, and gives each cell the value of the last triple that
names it (R134). -/
theorem exec_pass {i : Instr} {l : List Triple} {p : Phase} {s : State} (hb : bodyOf i s = overlayThen l p s) (hi : i ≠ .reset)
    (hl : legalIn i s.phase = true) (hg : s.gs ≤ Config.gmax) (hin : ∀ x ∈ l, inGrid s.gs x.1 x.2.1 = true) :
    ∃ t, exec i s = .next t ∧ t = { s with grid := t.grid, phase := p }
      ∧ ∀ r < 41, ∀ c < 41, t.cell r c = (lastAt l r c).getD (s.cell r c) :=
  ⟨s.written l p, exec_overlayThen hb hi hl hg hin, rfl, fun _ hr _ hc => State.written_cell s l p hr hc⟩

/-- Settles O21: the row's and the column's triples, the column's last. -/
theorem timingPass : Obligations.TimingPass := by
  unfold Obligations.TimingPass
  intro s hp hv
  obtain ⟨h21, hmax⟩ := gs_of_supported hv
  obtain ⟨t, hx, ht, hcell⟩ :=
    exec_pass (i := .ptiming) (ptimingBody_eq s) (by decide) (by simp [hp, legalIn]) hmax (timing_inGrid (by omega))
  refine ⟨t, hx, ht, fun r hr c hc => ?_⟩
  rw [hcell r hr c hc, timing_lastAt, timing_natCast, timing_natCast]
  split_ifs <;> rfl

/-- Settles O22: inside the live grid the windows, outside it no triple; the motif by its rings. -/
theorem finderPass : Obligations.FinderPass := by
  unfold Obligations.FinderPass
  refine ⟨fun s hp hv => ?_, fun r c hr hr' hc hc' => finder_eq_rings ⟨hr, hr'⟩ ⟨hc, hc'⟩⟩
  obtain ⟨h21, hmax⟩ := gs_of_supported hv
  obtain ⟨t, hx, ht, hcell⟩ := exec_pass (i := .pfinder) rfl (by decide) (by simp [hp, legalIn]) hmax finder_inGrid
  refine ⟨t, hx, ht, fun r hr c hc => ?_⟩
  rw [hcell r hr c hc]
  split
  next hin => exact finder_lastAt (by omega) hin.1 hin.2 _
  next hout => rw [lastAt_outside finder_inGrid (by omega), Option.getD_none]

/-- Settles O23: the cells that the six segments name. -/
theorem separatorPass : Obligations.SeparatorPass := by
  unfold Obligations.SeparatorPass
  intro s hp hv
  obtain ⟨h21, hmax⟩ := gs_of_supported hv
  obtain ⟨t, hx, ht, hcell⟩ :=
    exec_pass (i := .psep) rfl (by decide) (by simp [hp, legalIn]) hmax (separator_inGrid (by omega))
  exact ⟨t, hx, ht, fun r hr c hc => (hcell r hr c hc).trans (separator_lastAt (by omega) r c _)⟩

/-- Settles O24: the reserved cells, then the dark module. -/
theorem reservationPass : Obligations.ReservationPass := by
  unfold Obligations.ReservationPass
  intro s hp hv
  obtain ⟨h21, hmax⟩ := gs_of_supported hv
  obtain ⟨t, hx, ht, hcell⟩ :=
    exec_pass (i := .pfmtrsv) rfl (by decide) (by simp [hp, legalIn]) hmax (reservation_inGrid (by omega))
  exact ⟨t, hx, ht, fun r hr c hc => (hcell r hr c hc).trans (reservation_lastAt (by omega) r c _)⟩

/-- Settles O26: one overlay of the triples of all passes, over an empty live grid and outside it. -/
theorem fivePassesGivePatternedMatrix : Obligations.FivePassesGivePatternedMatrix := by
  unfold Obligations.FivePassesGivePatternedMatrix
  intro s hp hv hempty
  obtain ⟨h21, hmax⟩ := gs_of_supported hv
  refine ⟨s.written (patternTriples s.gs) .patterned, execList_patterns hp hv, rfl, ?inside, ?outside⟩
  case inside =>
    intro r hr c hc
    rw [State.written_cell _ _ _ (by omega) (by omega), hempty r hr c hc, lastAt_patternTriples (gs_odd s) h21 hr hc]
  case outside =>
    intro r hr c hc hout
    rw [State.written_cell _ _ _ hr hc, lastAt_outside (patternTriples_inGrid (by omega)) hout, Option.getD_none]

/-! ## Version information -/

theorem versionInfo_of_le {v : Nat} (h : v ≤ 6) : versionInfo v = .ok [] := if_neg (by omega)

theorem versionInfo_of_ge {v : Nat} (h : 7 ≤ v) : versionInfo v = .error .unsupportedVersion := if_pos h

/-- Settles O25: the function on both sides of its check, then the word in each phase. -/
theorem versionInformationPass : Obligations.VersionInformationPass := by
  unfold Obligations.VersionInformationPass
  refine ⟨fun v => ⟨versionInfo_of_le, versionInfo_of_ge⟩, decode_encode .pverinfo, fun s => ⟨?empty, ?refuse, ?elsewhere,
    exec_in_fault (by decide)⟩⟩
  case empty =>
    intro hp hv
    exact exec_of_ok (by decide) (by simp [hp]) (by simp [hp, legalIn]) (by simp [usesGrid]) (pverinfoBody_ok_iff.2 ⟨hv, rfl⟩)
  case refuse =>
    intro hp hv
    have hbody : pverinfoBody s = .error .unsupportedVersion := by rw [pverinfoBody, versionInfo_of_ge hv]
    exact exec_of_error (by decide) (by simp [hp]) (by simp [hp, legalIn]) (by simp [usesGrid]) hbody
  case elsewhere =>
    intro hp hf
    exact exec_illegal (by decide) hf (by simp [hp, legalIn])

/-! ## The layers of the Matrix -/

/-- The cell that the fixed passes before a phase leave over an empty Matrix (R150, R172). -/
def passCell (gs r c : Nat) : Phase → Cell
  | .timed => timedCell .unset r c
  | .found => foundCell gs (timedCell .unset r c) r c
  | .sepd => sepdCell gs (foundCell gs (timedCell .unset r c) r c) r c
  | .rsvd => patternedCell gs r c
  | .patterned => patternedCell gs r c
  | _ => .unset

/-- A data cell lies where the patterned Matrix is free, and a cell that is no data cell holds `base` (R172, R188). -/
abbrev State.dataOver (s : State) (base : Cell) (r c : Nat) : Prop :=
  (s.flag r c = true → patternedCell s.gs r c = .unset) ∧ (s.flag r c = false → s.cell r c = base)

section Layers

variable {s t : State} {r c : Nat}

/-- Before PLACE the layers are those of the fixed passes. -/
theorem layerOk_iff_passCell (h : beforePlacement s.passPhase = true) :
    layerOk s r c = true ↔ s.cell r c = passCell s.gs r c s.passPhase := by
  cases hp : s.passPhase <;> simp [layerOk, passCell, beforePlacement, hp] at h ⊢

/-- `PLACED` to `COMMITTED`: data over the patterned Matrix. -/
theorem layerOk_iff_dataOver (h : s.passPhase = .placed ∨ s.passPhase = .scoring ∨ s.passPhase = .committed) :
    layerOk s r c = true ↔ s.dataOver (patternedCell s.gs r c) r c := by
  rcases h with h | h | h <;> cases hf : s.flag r c <;> simp [layerOk, State.dataOver, h, hf]

/-- From FMTWRITE on: under the standard placement, data over the patterned Matrix with the winner's format value in its
reserved cells (R246). -/
theorem layerOk_iff_finished (h : s.passPhase = .fmtWritten ∨ s.passPhase = .done) :
    layerOk s r c = true ↔
      (s.collab.standardPlacement = true → s.dataOver (finishedCell s.gs (formatVal s.ecl s.best) r c) r c) := by
  rcases h with h | h <;> cases hs : s.collab.standardPlacement <;> cases hf : s.flag r c <;>
    simp [layerOk, State.dataOver, h, hs, hf]

/-- The layers are kept by whatever keeps the phase, the arrays and what the format value is computed from. -/
theorem layerInv_of_same (hs : s.LayerInv) (hp : t.passPhase = s.passPhase) (hv : t.version = s.version) (hg : t.grid = s.grid)
    (hd : t.dflag = s.dflag) (hx : t.collab = s.collab) (he : t.ecl = s.ecl) (hb : t.best = s.best) : t.LayerInv := by
  have hgs : t.gs = s.gs := by rw [State.gs, hv, State.gs]
  intro r hr c hc
  have hlayer := hs r (hgs ▸ hr) c (hgs ▸ hc)
  have hcell : t.cell r c = s.cell r c := by rw [State.cell, hg, State.cell]
  have hflag : t.flag r c = s.flag r c := by rw [State.flag, hd, State.flag]
  simpa only [layerOk, hp, hgs, hcell, hflag, hx, he, hb] using hlayer

theorem layerInv_resetBlock (s : State) : s.resetBlock.LayerInv := fun _ _ _ _ => rfl

theorem layerInv_takeFault (hs : s.LayerInv) (hp : s.phase ≠ .fault) (f : ErrCode) (w : Word) : (s.takeFault f w).LayerInv :=
  layerInv_of_same hs (passPhase_takeFault s f w hp) rfl rfl rfl rfl rfl rfl

theorem layerInv_cleared (s : State) : s.cleared.LayerInv := fun r _ c _ =>
  (layerOk_iff_passCell rfl).2 (State.cleared_cell s r c)

theorem ne_fault_of_beforePlacement {p : Phase} (h : beforePlacement p = true) : p ≠ .fault := by
  rintro rfl
  cases h

/-- An overlay that takes the fixed passes' cells of one phase to those of the next keeps the layers. -/
theorem layerInv_pass {l : List Triple} {p q : Phase} (hs : s.LayerInv) (hp : s.phase = p) (hbp : beforePlacement p = true)
    (hbq : beforePlacement q = true) (hg : s.gs ≤ Config.gmax)
    (hl : ∀ r < s.gs, ∀ c < s.gs, (lastAt l r c).getD (passCell s.gs r c p) = passCell s.gs r c q) :
    (s.written l q).LayerInv := by
  have hpass : s.passPhase = p := hp ▸ passPhase_of_ne (hp ▸ ne_fault_of_beforePlacement hbp)
  have hpass' : (s.written l q).passPhase = q := passPhase_of_ne (ne_fault_of_beforePlacement hbq)
  intro r hr c hc
  rw [State.written_gs] at hr hc
  have hcell := (layerOk_iff_passCell (by rwa [hpass])).1 (hs r hr c hc)
  rw [layerOk_iff_passCell (by rwa [hpass']), hpass', State.written_gs, State.written_cell _ _ _ (by omega) (by omega), hcell,
    hpass, hl r hr c hc]

/-- PLACE writes where the patterned Matrix is free and nowhere else (R188). -/
theorem layerInv_placedBits (hs : s.LayerInv) (hgrid : s.GridInv) (hp : s.phase = .patterned) (hg : s.gs ≤ Config.gmax) :
    s.placedBits.LayerInv := by
  have hpass : s.passPhase = .patterned := by simp [State.passPhase, hp]
  have hb : beforePlacement s.passPhase = true := by rw [hpass]; rfl
  intro r hr c hc
  rw [State.placedBits_gs] at hr hc
  have hcell : s.cell r c = patternedCell s.gs r c := by
    rw [(layerOk_iff_passCell hb).1 (hs r hr c hc), hpass, passCell]
  have hflag := flag_beforePlacement hgrid hb r (by omega) c (by omega)
  rw [layerOk_iff_dataOver (.inl rfl), State.dataOver, State.placedBits_gs]
  by_cases hm : (r, c) ∈ placedCells s
  · obtain ⟨-, hfree⟩ := mem_freeCells.1 (List.mem_of_mem_take hm)
    exact ⟨fun _ => hcell ▸ hfree, fun h => absurd (placedBits_of_mem_placedCells hg hm).2 (by simp [h])⟩
  · obtain ⟨hcell', hflag'⟩ := placedBits_of_not_mem hm
    exact ⟨fun h => absurd (hflag'.trans hflag) (by simp [h]), fun _ => hcell'.trans hcell⟩

/-- MEVAL writes no cell (R210). -/
theorem layerInv_scored (hs : s.LayerInv) (hp : s.phase = .placed ∨ s.phase = .scoring) (v : BitVec 32) (n : Fin 9) :
    (s.scored v n).LayerInv := by
  have hpass : s.passPhase = .placed ∨ s.passPhase = .scoring ∨ s.passPhase = .committed := by
    rcases hp with hp | hp <;> simp [State.passPhase, hp]
  intro r hr c hc
  rw [State.scored_gs] at hr hc
  have hlayer := (layerOk_iff_dataOver hpass).1 (hs r hr c hc)
  rw [layerOk_iff_dataOver (.inr (.inl (by simp [State.passPhase])))]
  simpa only [State.dataOver, State.scored_gs, State.scored_flag, State.scored_cell] using hlayer

/-- MCOMMIT inverts data cells alone (R202, R214). -/
theorem layerInv_committed (hs : s.LayerInv) (hp : s.phase = .scoring) (hg : s.gs ≤ Config.gmax) (k : Nat) :
    (s.committed k).LayerInv := by
  have hpass : s.passPhase = .scoring := by simp [State.passPhase, hp]
  intro r hr c hc
  rw [State.committed_gs] at hr hc
  obtain ⟨hdata, hrest⟩ := (layerOk_iff_dataOver (.inr (.inl hpass))).1 (hs r hr c hc)
  rw [layerOk_iff_dataOver (.inr (.inr rfl)), State.dataOver, State.committed_gs, State.committed_flag,
    State.committed_cell s k (by omega) (by omega), if_pos ⟨hr, hc⟩]
  refine ⟨hdata, fun hf => ?_⟩
  rcases candCell_cases s k r c with h | ⟨h, -⟩
  · rw [h, hrest hf]
  · simp [hf] at h

/-- FMTWRITE under the standard placement names the reserved cells alone, so no data cell, and gives them the finished value
of `FMTVAL`, which `FMT_VALID` says is the winner's (R246). -/
theorem layerInv_fmtWritten (hs : s.LayerInv) (hf : s.FormatInv) (hp : s.phase = .committed) (hv : s.fmtValid = true)
    (h21 : 21 ≤ s.gs) (hg : s.gs ≤ Config.gmax) : (s.written (formatTriples s) .fmtWritten).LayerInv := by
  have hpass : s.passPhase = .committed := by simp [State.passPhase, hp]
  obtain ⟨-, hwinner, -⟩ := hf
  obtain ⟨-, -, hval, -⟩ := hwinner hv (by rw [hpass]; rfl)
  intro r hr c hc
  rw [State.written_gs] at hr hc
  obtain ⟨hdata, hrest⟩ := (layerOk_iff_dataOver (.inr (.inr hpass))).1 (hs r hr c hc)
  refine (layerOk_iff_finished (.inl rfl)).2 fun hstd => ⟨hdata, fun hflag => ?_⟩
  have hlast := format_lastAt_standard (s := s) hstd h21 hr hc
  rw [State.written_cell _ _ _ (by omega) (by omega), hlast, hrest hflag, hval]
  change _ = finishedCell s.gs (formatVal s.ecl s.best) r c
  split
  next => rfl
  next hfixed => rw [finishedCell, if_neg hfixed, Option.getD_none]

/-- QZONE writes no cell of `GRID` (R260). -/
theorem layerInv_bordered (hs : s.LayerInv) (hp : s.phase = .fmtWritten) : s.bordered.LayerInv := fun r hr c hc =>
  (layerOk_iff_finished (.inr rfl)).2 ((layerOk_iff_finished (s := s) (.inl (by simp [State.passPhase, hp]))).1 (hs r hr c hc))

end Layers

/-- Each pass lays its layer over the ones before it, PLACE and MCOMMIT write data cells alone, FMTWRITE the reserved cells; the
other rules write no cell, INIT and SETCFG apart, which begin anew. -/
theorem layerInv_body {i : Instr} {s t : State} (hc : s.ControlInv) (hf : s.FormatInv) (hgrid : s.GridInv) (hs : s.LayerInv)
    (hi : i ≠ .reset) (hp : s.phase ≠ .fault) (hl : legalIn i s.phase = true) (hb : bodyOf i s = .ok t) : t.LayerInv := by
  have hsp := passPhase_of_ne hp
  have keep : entersPhase i = none →
      (∀ x ∈ [Item.version, .grid, .dflag, .ecl, .best], x ∉ writeSet i) → t.LayerInv := by
    intro hn hw
    have same : ∀ x ∈ [Item.version, .grid, .dflag, .ecl, .best], sameItem x s t := fun x hx => bodyOf_same hi hb (hw x hx)
    simp only [List.forall_mem_cons] at same
    obtain ⟨hv, hg, hd, he, hbest, -⟩ := same
    obtain ⟨-, -, hx, -, -⟩ := bodyOf_frame hi hb
    exact layerInv_of_same hs (by rw [bodyOf_passPhase hi hp hb, hn, hsp, Option.getD_none]) hv hg hd hx he hbest
  have bounds : matrixPhase s.phase = true → 21 ≤ s.gs ∧ s.gs ≤ Config.gmax := fun h => gs_of_controlInv hc (hsp ▸ h)
  have pass : ∀ (l : List Triple) (p q : Phase), s.phase = p → beforePlacement p = true → beforePlacement q = true →
      overlayThen l q s = .ok t →
      (21 ≤ s.gs → ∀ r < s.gs, ∀ c < s.gs, (lastAt l r c).getD (passCell s.gs r c p) = passCell s.gs r c q) → t.LayerInv := by
    intro l p q hphase hbp hbq ho hl
    obtain ⟨h21, hmax⟩ := bounds (hphase ▸ matrixPhase_of_beforePlacement hbp)
    obtain ⟨-, rfl⟩ := overlayThen_ok_iff.1 ho
    exact layerInv_pass hs hphase hbp hbq hmax (hl h21)
  cases i with
  | reset => exact absurd rfl hi
  | setcfg v e =>
    obtain rfl := Except.ok.inj hb
    exact fun _ _ _ _ => rfl
  | init =>
    obtain ⟨-, rfl⟩ := initBody_ok_iff.1 hb
    exact layerInv_cleared s
  | ptiming =>
    exact pass _ .cleared .timed (by simpa [legalIn] using hl) rfl rfl ((ptimingBody_eq s).symm.trans hb)
      fun _ r hr c hc => timing_lastAt_getD hr hc _
  | pfinder =>
    exact pass _ .timed .found (by simpa [legalIn] using hl) rfl rfl hb fun _ r hr c hc => finder_lastAt (by omega) hr hc _
  | psep =>
    exact pass _ .found .sepd (by simpa [legalIn] using hl) rfl rfl hb
      fun _ r hr c hc => separator_lastAt_getD (by omega) hr hc _
  | pfmtrsv =>
    exact pass _ .sepd .rsvd (by simpa [legalIn] using hl) rfl rfl hb fun h21 r hr c hc =>
      (reservation_lastAt_getD (by omega) hr hc _).trans (layers_eq_patternedCell (gs_odd s) h21 hr hc)
  | pverinfo =>
    obtain ⟨-, rfl⟩ := pverinfoBody_ok_iff.1 hb
    exact pass [] .rsvd .patterned (by simpa [legalIn] using hl) rfl rfl (overlayThen_ok (by simp)) fun _ _ _ _ _ => rfl
  | place =>
    obtain ⟨-, rfl⟩ := placeBody_ok_iff.1 hb
    exact layerInv_placedBits hs hgrid (by simpa [legalIn] using hl) (bounds (matrixPhase_of_usesGrid hl rfl)).2
  | meval =>
    obtain ⟨-, v, -, rfl⟩ := mevalBody_ok_iff.1 hb
    exact layerInv_scored hs (by simpa [legalIn] using hl) v _
  | mcommit =>
    obtain ⟨-, -, rfl⟩ := mcommitBody_ok_iff.1 hb
    exact layerInv_committed hs (by simpa [legalIn] using hl) (bounds (matrixPhase_of_usesGrid hl rfl)).2 _
  | fmtwrite =>
    obtain ⟨h21, hmax⟩ := bounds (matrixPhase_of_usesGrid hl rfl)
    obtain ⟨hv, -, rfl⟩ := fmtwriteBody_ok_iff.1 hb
    exact layerInv_fmtWritten hs hf (by simpa [legalIn] using hl) hv h21 hmax
  | qzone =>
    obtain rfl := Except.ok.inj hb
    exact layerInv_bordered hs (by simpa [legalIn] using hl)
  | _ => exact keep rfl (by simp [writeSet])

/-- Settles O53: the layers, carried with the control invariant (the grid fits), the format registers (the winner's value) and
the shape (no data cell before PLACE). -/
theorem stepKeepsLayers : Obligations.StepKeepsLayers := by
  unfold Obligations.StepKeepsLayers
  intro s t hc hf hg hs h
  refine (step_keeps (P := fun s => s.ControlInv ∧ s.FormatInv ∧ s.GridInv ∧ s.LayerInv) (fun _ _ _ hs => hs)
    (fun s _ => ⟨controlInv_resetBlock s, formatInv_resetBlock s, gridInv_resetBlock s, layerInv_resetBlock s⟩) ?fault ?body
    ⟨hc, hf, hg, hs⟩ h).2.2.2
  case fault =>
    rintro s f w ⟨hc, hf, hg, hs⟩ hp h0 h2
    exact ⟨controlInv_takeFault hc hp w h0 h2, formatInv_takeFault hf hp f w, gridInv_takeFault hg hp f w,
      layerInv_takeFault hs hp f w⟩
  case body =>
    rintro i s t ⟨hc, hf, hg, hs⟩ hi hp hl hu hb
    exact ⟨controlInv_body hc hi hp hl hb, formatInv_body hc hf hi hp hl hb, gridInv_body hg hi hp hl hu hb,
      layerInv_body hc hf hg hs hi hp hl hb⟩

end Sys2Proof.Machine

namespace Sys2Proof.Machine

/-! PROOFS. The Data Placement Walker (42_data_walker.md): the walk, the free cells, PLACE, then what `INCOMPLETE = 0` promises
in every phase. -/

/-! ## The walk -/

/-- A list whose last two elements are known ends with them. -/
theorem drop_eq_pair {α : Type} {l : List α} {n : Nat} {a b : α} (hlen : l.length = n + 2) (ha : l[n]? = some a)
    (hb : l[n + 1]? = some b) : l.drop n = [a, b] := by
  obtain ⟨_, rfl⟩ := List.getElem?_eq_some_iff.1 ha
  obtain ⟨_, rfl⟩ := List.getElem?_eq_some_iff.1 hb
  rw [List.drop_eq_getElem_cons (by omega), List.drop_eq_getElem_cons (by omega), List.drop_eq_nil_of_le (by omega)]

/-- The number of sweeps, and so the length of the walk, for an odd grid size (R182 items 1 and 4). -/
theorem length_walk_of_odd {gs : Nat} (ho : gs % 2 = 1) : (walk gs).length = gs * (gs - 1) := by
  rw [length_walk, ← mul_assoc, mul_right_comm, Nat.div_mul_cancel (by omega), mul_comm]

/-- With an even number of sweeps the last one goes down in columns 1 and 0 (R182 items 1 and 5). -/
theorem walk_ends {gs : Nat} (h1 : gs % 4 = 1) (hg : 5 ≤ gs) :
    (walk gs).drop (gs * (gs - 1) - 2) = [(gs - 1, 1), (gs - 1, 0)] := by
  obtain ⟨m, rfl⟩ : ∃ m, gs = 4 * m + 5 := ⟨gs / 4 - 1, by omega⟩
  have hsize : (4 * m + 5) * (4 * m + 5 - 1) = 2 * (4 * m + 5) * (2 * m + 1) + 2 * (4 * m + 4) + 2 := by
    rw [Nat.add_sub_assoc (by decide)]
    ring
  have hlen := length_walk_of_odd (gs := 4 * m + 5) (by omega)
  have hlast : ∀ b < 2, (walk (4 * m + 5))[2 * (4 * m + 5) * (2 * m + 1) + (2 * (4 * m + 4) + b)]? = some (4 * m + 4, 1 - b) := by
    intro b hb
    rw [getElem?_walk (by omega) (by omega) hb, if_neg (by omega), sweepColumn, if_pos (by omega)]
    congr 2
    omega
  rw [hsize, Nat.add_sub_cancel]
  exact drop_eq_pair (hlen.trans hsize) (hlast 0 (by decide)) (hlast 1 (by decide))

/-- Settles O27: the sweeps one by one, and the last two steps of the last sweep. -/
theorem walkVisitsEachCellOnce : Obligations.WalkVisitsEachCellOnce := by
  unfold Obligations.WalkVisitsEachCellOnce
  intro v hlo hhi
  have h1 : gridSize v % 4 = 1 := by rw [gridSize]; omega
  have h17 : 17 ≤ gridSize v := by rw [gridSize]; omega
  refine ⟨length_walk_of_odd (by omega), nodup_walk (by omega) (by omega), fun r c => mem_walk (by omega) (by omega), ?steps,
    walk_ends h1 (by omega)⟩
  case steps =>
    rintro k hk j hj r c rfl rfl
    exact ⟨getElem?_walk (b := 0) hk hj (by decide), getElem?_walk (b := 1) hk hj (by decide)⟩

/-! ## The free cells -/

/-- Settles O28: the free cells are the free region of the patterned Matrix, counted in bands of rows. -/
theorem freeCellsAreCapacity : Obligations.FreeCellsAreCapacity := by
  unfold Obligations.FreeCellsAreCapacity
  exact fun s hv hs => (length_freeCells_patterned hv hs).symm

/-- The free cells of a grid inside the arrays are fewer than `NPLACED` can count (R20). -/
theorem length_freeCells_lt {s : State} (hg : s.gs ≤ Config.gmax) : (freeCells s).length < 2 ^ 12 :=
  calc (freeCells s).length
    _ ≤ (walk s.gs).length := List.length_filter_le _ _
    _ = s.gs * (s.gs - 1) := length_walk_of_odd (gs_odd s)
    _ ≤ 41 * 40 := Nat.mul_le_mul hg (Nat.sub_le_sub_right hg 1)
    _ < 2 ^ 12 := by decide

/-! ## PLACE -/

theorem mem_placedCells {s : State} {r c : Nat} :
    (r, c) ∈ placedCells s ↔ ∃ i < s.pay.length, (freeCells s)[i]? = some (r, c) := by
  simp only [placedCells, State.payLen, List.mem_iff_getElem?, List.getElem?_take, Option.ite_none_right_eq_some]

/-- A payload that fits is placed whole: beside the arrays PLACE writes its length, whether cells are left, and the phase. -/
theorem placedBits_eq {s : State} (hfit : s.pay.length ≤ (freeCells s).length) :
    s.placedBits = { s with grid := s.placedBits.grid, dflag := s.placedBits.dflag, nplaced := BitVec.ofNat 12 s.pay.length,
                            incomplete := decide (s.pay.length < (freeCells s).length), phase := .placed } := by
  obtain ⟨-, -, hn⟩ := placedBits_parts s
  rw [State.payLen, Nat.min_eq_right hfit] at hn
  exact hn ▸ rfl

/-- Settles O29: the rule of PLACE on both sides of its check; the bits by their free cells. -/
theorem placePutsBitsInWalkOrder : Obligations.PlacePutsBitsInWalkOrder := by
  unfold Obligations.PlacePutsBitsInWalkOrder
  intro s hp hv
  obtain ⟨-, hg⟩ := gs_of_supported hv
  have hl : legalIn .place s.phase = true := by simp [hp, legalIn]
  constructor
  · intro hfit
    refine ⟨s.placedBits, exec_of_rule (by decide) hl hg (placeBody_ok_iff.2 ⟨hfit, rfl⟩), placedBits_eq hfit,
      toNat_nplaced_placedBits hfit (hfit.trans_lt (length_freeCells_lt hg)), fun i r c b hb hi => placedBits_of_mem hg hi hb,
      fun r c hn => placedBits_of_not_mem fun hm => ?_⟩
    obtain ⟨i, hi, hrc⟩ := mem_placedCells.1 hm
    exact hn i hi hrc
  · intro hlong
    exact exec_of_error (by decide) (ne_fault_of_legalIn (by decide) hl) hl (fun _ => hg) (if_pos hlong)

/-! ## Completeness -/

/-- What one step makes of states with `P`, in six goals: neither predicate speaks of the model's bus fields, and waiting, a
reset, fault entry and the rule of every command each lead from `P` to `Q`. Where `P` needs more to be kept than `Q` does,
`step_keeps` asks too much. -/
theorem step_leads {P Q : State → Prop}
    (hP : ∀ (s : State) (rest : List Input), P s → P (s.taken rest))
    (hQ : ∀ (s : State) (rest : List Input) (x : Option Reply), Q s → Q { s with inputs := rest, reply := x })
    (hstay : ∀ s : State, P s → Q s)
    (hreset : ∀ s : State, P s → Q s.resetBlock)
    (hfault : ∀ (s : State) (f : ErrCode) (w : Word), P s → s.phase ≠ .fault → Q (s.takeFault f w))
    (hbody : ∀ (i : Instr) (s t : State), P s → i ≠ .reset → s.phase ≠ .fault → legalIn i s.phase = true →
      (usesGrid i = true → s.gs ≤ Config.gmax) → bodyOf i s = .ok t → Q t)
    {s t : State} (hs : P s) (h : step s = .next t) : Q t := by
  have answer : ∀ (s : State) r, Q s → Q (s.answer r) := fun s r => hQ s s.inputs (some r)
  rcases step_cases h with ⟨-, rfl⟩ | ⟨rest, -, rfl⟩ | ⟨a, rest, r, -, rfl⟩ | ⟨w, rest, u, -, hu, rfl⟩
  · exact hstay _ hs
  · exact hQ _ _ none (hreset _ (hP s rest hs))
  · exact answer _ _ (hstay _ (hP s rest hs))
  · have hs' := hP s rest hs
    refine answer _ _ ?_
    rcases executeWord_cases hu with ⟨-, -, rfl⟩ | ⟨-, hp, rfl⟩ | ⟨i, -, hx⟩
    · exact hstay _ hs'
    · exact hfault _ _ _ hs' hp
    · rcases exec_cases hx with ⟨-, rfl⟩ | ⟨-, -, rfl⟩ | ⟨-, hp, -, rfl⟩ | ⟨hi, hp, hl, hg, hb | ⟨f, -, rfl⟩⟩
      · exact hreset _ hs'
      · exact hstay _ hs'
      · exact hfault _ _ _ hs' hp
      · exact hbody i _ _ hs' hi hp hl hg hb
      · exact hfault _ _ _ hs' hp

/-- `PLACED` to `DONE`, the phases in which `INCOMPLETE` says what PLACE left free (R192). -/
abbrev afterPlacement (p : Phase) : Prop := placedPhase p = true ∨ p = .done

/-- Only PLACE leads into the phases after it, and none of their commands writes what completeness speaks of. -/
theorem afterPlacement_before {i : Instr} {p : Phase} (hl : legalIn i p = true) (ha : afterPlacement ((entersPhase i).getD p)) :
    i = .place ∨ afterPlacement p ∧ ∀ x ∈ [Item.version, .dflag, .incomplete], x ∉ writeSet i := by
  cases i <;> cases p <;> simp [legalIn, entersPhase, afterPlacement, placedPhase, writeSet] at hl ha ⊢

section Completeness

variable {s t : State}

/-- Completeness is kept by whatever keeps the version, the data flags and `INCOMPLETE`, when the phases after PLACE are not
entered. -/
theorem completeInv_of_same (hs : s.CompleteInv) (hv : t.version = s.version) (hd : t.dflag = s.dflag)
    (hinc : t.incomplete = s.incomplete) (ha : afterPlacement t.passPhase → afterPlacement s.passPhase) : t.CompleteInv := by
  have hgs : t.gs = s.gs := by rw [State.gs, hv, State.gs]
  simp only [State.CompleteInv, State.flag, hgs, hd, hinc]
  exact fun h => hs (ha h)

theorem completeInv_resetBlock (s : State) : s.resetBlock.CompleteInv := fun h => absurd h (by simp [placedPhase])

theorem completeInv_takeFault (hs : s.CompleteInv) (hp : s.phase ≠ .fault) (f : ErrCode) (w : Word) :
    (s.takeFault f w).CompleteInv :=
  completeInv_of_same hs rfl rfl rfl fun h => passPhase_takeFault s f w hp ▸ h

/-- In `PATTERNED` the live grid is the patterned Matrix (R172). -/
theorem cell_patterned (hs : s.LayerInv) (hp : s.phase = .patterned) {r c : Nat} (hr : r < s.gs) (hc : c < s.gs) :
    s.cell r c = patternedCell s.gs r c := by
  have hpass : s.passPhase = .patterned := by simp [State.passPhase, hp]
  have hcell := (layerOk_iff_passCell (by rw [hpass]; rfl)).1 (hs r hr c hc)
  rwa [hpass] at hcell

/-- When PLACE clears `INCOMPLETE`, it writes every free cell of the walk, and over the patterned Matrix those are all the cells
the fixed passes left free (R188). -/
theorem completeInv_placedBits (hs : s.LayerInv) (hp : s.phase = .patterned) (hg : s.gs ≤ Config.gmax) :
    s.placedBits.CompleteInv := by
  intro _ hinc r hr c hc hfree
  rw [State.placedBits_gs] at hr hc hfree
  have hall : placedCells s = freeCells s := List.take_of_length_le (Nat.le_of_not_lt (of_decide_eq_false hinc))
  have h6 : c ≠ 6 := fun h6 => patternedCell_column_six (h6 ▸ hfree)
  have hm : (r, c) ∈ placedCells s := hall ▸ mem_freeCells.2 ⟨⟨hr, hc, h6⟩, (cell_patterned hs hp hr hc).trans hfree⟩
  exact (placedBits_of_mem_placedCells hg hm).2

/-- PLACE fills the free cells; every other rule that leads to a phase after PLACE starts in one, and writes nothing that
completeness speaks of. -/
theorem completeInv_body {i : Instr} (hlayer : s.LayerInv) (hs : s.CompleteInv) (hi : i ≠ .reset) (hp : s.phase ≠ .fault)
    (hl : legalIn i s.phase = true) (hg : usesGrid i = true → s.gs ≤ Config.gmax) (hb : bodyOf i s = .ok t) :
    t.CompleteInv := by
  intro ha
  have hbefore := ha
  rw [bodyOf_passPhase hi hp hb] at hbefore
  rcases afterPlacement_before hl hbefore with rfl | ⟨hbefore, hw⟩
  · obtain ⟨-, rfl⟩ := placeBody_ok_iff.1 hb
    exact completeInv_placedBits hlayer (by simpa [legalIn] using hl) (hg rfl) ha
  · have same : ∀ x ∈ [Item.version, .dflag, .incomplete], sameItem x s t := fun x hx => bodyOf_same hi hb (hw x hx)
    simp only [List.forall_mem_cons] at same
    obtain ⟨hv, hd, hinc, -⟩ := same
    exact completeInv_of_same hs hv hd hinc (fun _ => passPhase_of_ne hp ▸ hbefore) ha

end Completeness

/-- Settles O54: the layers say what is free before PLACE. They are not carried along, since FMTWRITE keeps them only under the
format invariant, which is not assumed here. -/
theorem stepKeepsCompleteness : Obligations.StepKeepsCompleteness := by
  unfold Obligations.StepKeepsCompleteness
  intro s t _ _ hlayer hs h
  exact step_leads (P := fun s => s.LayerInv ∧ s.CompleteInv) (Q := State.CompleteInv) (fun _ _ hs => hs) (fun _ _ _ hs => hs)
    (fun _ hs => hs.2) (fun s _ => completeInv_resetBlock s) (fun _ f w hs hp => completeInv_takeFault hs.2 hp f w)
    (fun _ _ _ hs hi hp hl hg hb => completeInv_body hs.1 hs.2 hi hp hl hg hb) ⟨hlayer, hs⟩ h

end Sys2Proof.Machine

namespace Sys2Proof.Machine

/-! PROOFS. The Mask Engine (43_mask_engine.md): MEVAL case by case, the winner over the candidates scored so far, MCOMMIT, then
the winner in every step. -/

/-! ## The score of a candidate -/

section Score

variable {s : State} {k : Nat} {cand : List Cell}

/-- SCORE is asked for the candidate of R208. -/
theorem candScore_of_isCandidate (hm : s.masksAnswer k) (hc : s.isCandidate k cand) :
    s.candScore k = scoreWord (s.collab.scoreAnswer s.gs cand) := by
  rw [(isCandidate_iff hm).1 hc, candScore_of_answers hm]

/-- Outside its type an answer of SCORE counts as `err` (R276). -/
theorem scoreWord_eq_none {a : Config.Answer} (h : a = .err ∨ ∃ n, a = .int n ∧ (n < -2 ^ 31 ∨ 2 ^ 31 ≤ n)) :
    scoreWord a = none := by
  rcases h with rfl | ⟨n, rfl, hn⟩
  · rfl
  · exact if_neg (by omega)

/-- A mask `err` leaves the candidate without a score (R279). -/
theorem candScore_of_maskErr (h : s.maskErr k = true) : s.candScore k = none := if_pos h

end Score

/-! ## MEVAL -/

section Meval

variable {s : State} {v : BitVec 32} {c : Fin 9}

/-- The first score is taken without a comparison, a later one when it is strictly less as a signed number (R210). -/
theorem State.scored_of_less (h : s.mcnt.val = 0 ∨ v.toInt < s.minscore.toInt) :
    s.scored v c = s.withWinner v (BitVec.ofNat 3 s.mcnt.val) c :=
  if_pos (h.imp_right (scoreLess_iff _ _).2)

/-- A later score that is not strictly less leaves the winner (R210). -/
theorem State.scored_of_le (h0 : s.mcnt.val ≠ 0) (h : s.minscore.toInt ≤ v.toInt) :
    s.scored v c = s.withWinner s.minscore s.best c :=
  if_neg (not_or.2 ⟨h0, mt (scoreLess_iff _ _).1 h.not_gt⟩)

theorem legalIn_meval (hp : s.phase = .placed ∨ s.phase = .scoring) : legalIn .meval s.phase = true := by
  rcases hp with hp | hp <;> rw [hp] <;> rfl

/-- MEVAL of a candidate that has a score. -/
theorem exec_meval_of_score (hp : s.phase = .placed ∨ s.phase = .scoring) (hg : s.gs ≤ Config.gmax)
    (hv : s.candScore s.mcnt.val = some v) (hc : c.val = s.mcnt.val + 1) : exec .meval s = .next (s.scored v c) :=
  exec_of_rule (by decide) (legalIn_meval hp) hg (mevalBody_ok_iff.2 ⟨by omega, v, hv, congrArg _ (Fin.ext hc)⟩)

/-- A fault that the rule of MEVAL raises is entered with the word of MEVAL (R280). -/
theorem exec_meval_of_error {f : ErrCode} (hp : s.phase = .placed ∨ s.phase = .scoring) (hg : s.gs ≤ Config.gmax)
    (hb : mevalBody s = .error f) : exec .meval s = .next (s.takeFault f 0x30000000) :=
  exec_of_error (by decide) (ne_fault_of_legalIn (by decide) (legalIn_meval hp)) (legalIn_meval hp) (fun _ => hg) hb

theorem mevalBody_of_eight (h : s.mcnt.val = 8) : mevalBody s = .error .sequence := dif_neg (by omega)

theorem mevalBody_of_no_score (h : s.mcnt.val < 8) (hv : s.candScore s.mcnt.val = none) : mevalBody s = .error .collaborator := by
  rw [mevalBody, dif_pos h, hv]

end Meval

/-- Settles O30: the candidate's score, then the two cases of the running minimum. -/
theorem mevalKeepsRunningMinimum : Obligations.MevalKeepsRunningMinimum := by
  unfold Obligations.MevalKeepsRunningMinimum
  intro s cand n h hp hv hm hcand hans hlo hhi
  have hscore : s.candScore s.mcnt.val = some (BitVec.ofInt 32 n) := by
    rw [candScore_of_isCandidate hm hcand, hans, scoreWord_of_range hlo hhi]
  have hint : (BitVec.ofInt 32 n).toInt = n := toInt_ofInt_score hlo hhi
  have hx := exec_meval_of_score hp (gs_of_supported hv).2 hscore (c := ⟨s.mcnt.val + 1, by omega⟩) rfl
  constructor
  · intro hless
    exact hx.trans (congrArg _ (State.scored_of_less (by rwa [hint])))
  · intro h0 hle
    exact hx.trans (congrArg _ (State.scored_of_le h0 (by rwa [hint])))

/-- Settles O31: the count's check, then the two ways in which a candidate has no score. -/
theorem mevalFaults : Obligations.MevalFaults := by
  unfold Obligations.MevalFaults
  intro s hp hv
  obtain ⟨-, hg⟩ := gs_of_supported hv
  refine ⟨fun h8 => exec_meval_of_error hp hg (mevalBody_of_eight h8), fun hn herr => ?mask, fun hn hm cand hcand hans => ?score⟩
  case mask => exact exec_meval_of_error hp hg (mevalBody_of_no_score hn (candScore_of_maskErr (maskErr_iff.2 herr)))
  case score =>
    have hnone := (candScore_of_isCandidate hm hcand).trans (scoreWord_eq_none hans)
    exact exec_meval_of_error hp hg (mevalBody_of_no_score hn hnone)

/-! ## The winner -/

/-- Every candidate below `MCNT` has a score, and `BEST` is the least index of their signed minimum `MINSCORE` (R212): the
winner in terms of the scores the model computes. `winnerInv_iff` ties it to the invariant. -/
structure State.WinnerFound (s : State) : Prop where
  best_lt : s.best.toNat < s.mcnt.val
  best_score : s.candScore s.best.toNat = some s.minscore
  least : ∀ k < s.mcnt.val, ∃ v, s.candScore k = some v ∧ s.minscore.toInt ≤ v.toInt
    ∧ (k < s.best.toNat → s.minscore.toInt < v.toInt)

/-- The invariant describes the scores independently of the model's own computation of them. -/
theorem winnerInv_iff {s : State} : s.WinnerInv ↔ (s.passPhase = .scoring → s.WinnerFound) := by
  refine forall_congr' fun _ => ⟨?_, ?_⟩
  · rintro ⟨hall, hlt, hbest, hmin⟩
    obtain ⟨v, hv, hint⟩ := hasScore_iff.1 hbest
    refine ⟨hlt, BitVec.eq_of_toInt_eq hint ▸ hv, fun k hk => ?_⟩
    obtain ⟨n, hn⟩ := hall k hk
    obtain ⟨u, hu, rfl⟩ := hasScore_iff.1 hn
    exact ⟨u, hu, hmin k hk _ hn⟩
  · rintro ⟨hlt, hbest, hleast⟩
    refine ⟨fun k hk => ?_, hlt, hasScore_iff.2 ⟨_, hbest, rfl⟩, fun k hk n hn => ?_⟩
    · obtain ⟨v, hv, -⟩ := hleast k hk
      exact ⟨_, hasScore_iff.2 ⟨v, hv, rfl⟩⟩
    · obtain ⟨v, hv, hmin⟩ := hleast k hk
      obtain ⟨u, hu, rfl⟩ := hasScore_iff.1 hn
      obtain rfl := Option.some.inj (hv.symm.trans hu)
      exact hmin

section Winner

variable {s : State} {v : BitVec 32} {c : Fin 9}

@[simp] theorem State.withWinner_minscore (s : State) (m : BitVec 32) (b : BitVec 3) (c : Fin 9) :
    (s.withWinner m b c).minscore = m := rfl

@[simp] theorem State.withWinner_best (s : State) (m : BitVec 32) (b : BitVec 3) (c : Fin 9) :
    (s.withWinner m b c).best = b := rfl

@[simp] theorem State.withWinner_mcnt (s : State) (m : BitVec 32) (b : BitVec 3) (c : Fin 9) :
    (s.withWinner m b c).mcnt = c := rfl

/-- Writing the mask registers changes no score. -/
@[simp] theorem State.withWinner_candScore (s : State) (m : BitVec 32) (b : BitVec 3) (c : Fin 9) (k : Nat) :
    (s.withWinner m b c).candScore k = s.candScore k := rfl

/-- A score that is taken is strictly less than every earlier one, so candidate `MCNT` is the winner. -/
theorem winnerFound_taken (hbefore : s.mcnt.val ≠ 0 → s.WinnerFound) (hv : s.candScore s.mcnt.val = some v)
    (hc : c.val = s.mcnt.val + 1) (hless : s.mcnt.val = 0 ∨ v.toInt < s.minscore.toInt) :
    (s.withWinner v (BitVec.ofNat 3 s.mcnt.val) c).WinnerFound := by
  have hbest : (BitVec.ofNat 3 s.mcnt.val).toNat = s.mcnt.val := by
    rw [BitVec.toNat_ofNat]
    omega
  refine ⟨by simp [hbest, hc], by simpa [hbest] using hv, fun k hk => ?_⟩
  simp only [State.withWinner_mcnt, State.withWinner_minscore, State.withWinner_best, State.withWinner_candScore, hbest, hc]
    at hk ⊢
  rcases Nat.lt_succ_iff_lt_or_eq.1 hk with hk | rfl
  · obtain ⟨u, hu, hmin, -⟩ := (hbefore (by omega)).least k hk
    exact ⟨u, hu, by omega, by omega⟩
  · exact ⟨v, hv, le_rfl, fun h => absurd h (lt_irrefl _)⟩

/-- A score that is not taken leaves the winner, whose index is the smaller one on a tie. -/
theorem winnerFound_kept (hs : s.WinnerFound) (hv : s.candScore s.mcnt.val = some v) (hc : c.val = s.mcnt.val + 1)
    (hle : s.minscore.toInt ≤ v.toInt) : (s.withWinner s.minscore s.best c).WinnerFound := by
  refine ⟨hc ▸ Nat.lt_succ_of_lt hs.best_lt, hs.best_score, fun k hk => ?_⟩
  rcases Nat.lt_succ_iff_lt_or_eq.1 (hc ▸ hk) with hk | rfl
  · exact hs.least k hk
  · exact ⟨v, hv, hle, fun h => absurd h hs.best_lt.not_gt⟩

/-- MEVAL finds the winner among one candidate more (R210). -/
theorem winnerFound_scored (hbefore : s.mcnt.val ≠ 0 → s.WinnerFound) (hv : s.candScore s.mcnt.val = some v)
    (hc : c.val = s.mcnt.val + 1) : (s.scored v c).WinnerFound := by
  by_cases hless : s.mcnt.val = 0 ∨ v.toInt < s.minscore.toInt
  · rw [State.scored_of_less hless]
    exact winnerFound_taken hbefore hv hc hless
  · obtain ⟨h0, hle⟩ := not_or.1 hless
    rw [State.scored_of_le h0 (not_lt.1 hle)]
    exact winnerFound_kept (hbefore h0) hv hc (not_lt.1 hle)

theorem State.scored_eq_withWinner (s : State) (v : BitVec 32) (c : Fin 9) :
    s.scored v c = s.withWinner (s.scored v c).minscore (s.scored v c).best c := by
  unfold State.scored
  split <;> rfl

/-- MEVAL of a candidate that has a score writes the mask registers and the phase alone, and finds the winner. -/
theorem exec_meval_winner (hp : s.phase = .placed ∨ s.phase = .scoring) (hg : s.gs ≤ Config.gmax)
    (hscores : ∀ k < 8, ∃ v, s.candScore k = some v) (hbefore : s.mcnt.val ≠ 0 → s.WinnerFound) (hc : c.val = s.mcnt.val + 1) :
    ∃ m b, exec .meval s = .next (s.withWinner m b c) ∧ (s.withWinner m b c).WinnerFound := by
  obtain ⟨v, hv⟩ := hscores s.mcnt.val (by omega)
  refine ⟨(s.scored v c).minscore, (s.scored v c).best, ?_⟩
  rw [← State.scored_eq_withWinner]
  exact ⟨exec_meval_of_score hp hg hv hc, winnerFound_scored hbefore hv hc⟩

/-- A run of MEVAL over candidates that have scores does the same as one MEVAL, and counts them all. -/
theorem execList_mevals_winner (n : Nat) (hp : s.phase = .placed ∨ s.phase = .scoring) (hg : s.gs ≤ Config.gmax)
    (hscores : ∀ k < 8, ∃ v, s.candScore k = some v) (hbefore : s.mcnt.val ≠ 0 → s.WinnerFound)
    (hc : c.val = s.mcnt.val + (n + 1)) :
    ∃ m b, execList (List.replicate (n + 1) .meval) s = .next (s.withWinner m b c) ∧ (s.withWinner m b c).WinnerFound := by
  induction n generalizing s with
  | zero =>
    obtain ⟨m, b, hx, hw⟩ := exec_meval_winner hp hg hscores hbefore hc
    exact ⟨m, b, execList_cons_of_next hx, hw⟩
  | succ n ih =>
    obtain ⟨m, b, hx, hw⟩ := exec_meval_winner hp hg hscores hbefore (c := ⟨s.mcnt.val + 1, by omega⟩) rfl
    obtain ⟨m', b', hrest, hw'⟩ := ih (s := s.withWinner m b ⟨s.mcnt.val + 1, by omega⟩) (.inr rfl) hg hscores (fun _ => hw)
      (by simp only [State.withWinner_mcnt]; omega)
    exact ⟨m', b', (execList_cons_of_next hx).trans hrest, hw'⟩

end Winner

/-- Settles O32: a run of eight MEVAL, whose winner is read in the scores of the state before it. -/
theorem winnerIsLeastIndexOfMinimum : Obligations.WinnerIsLeastIndexOfMinimum := by
  unfold Obligations.WinnerIsLeastIndexOfMinimum
  intro s score hp h0 hv hscore
  obtain ⟨m, b, hx, hw⟩ := execList_mevals_winner 7 (c := 8) (.inl hp) (gs_of_supported hv).2
    (fun k hk => ⟨_, hscore k hk⟩) (fun h => absurd h0 h) (by rw [h0]; rfl)
  obtain ⟨hlt, hbest, hleast⟩ := hw
  have hm : m = score b.toNat := Option.some.inj (hbest.symm.trans (hscore _ hlt))
  have hmin : ∀ k < 8, m.toInt ≤ (score k).toInt ∧ (k < b.toNat → m.toInt < (score k).toInt) := by
    intro k hk
    obtain ⟨v, hv, hmin⟩ := hleast k hk
    obtain rfl := Option.some.inj (hv.symm.trans (hscore k hk))
    exact hmin
  exact ⟨_, hx, rfl, hm, fun k hk => hm ▸ (hmin k hk).1, fun k hk => hm ▸ (hmin k (hk.trans hlt)).2 hk⟩

/-! ## MCOMMIT -/

/-- A fault that the rule of MCOMMIT raises is entered with the word of MCOMMIT (R280). -/
theorem exec_mcommit_of_error {s : State} {f : ErrCode} (hp : s.phase = .scoring) (hg : s.gs ≤ Config.gmax)
    (hb : mcommitBody s = .error f) : exec .mcommit s = .next (s.takeFault f 0x31000000) :=
  exec_of_error (by decide) (by rw [hp]; decide) (by rw [hp]; rfl) (fun _ => hg) hb

theorem mcommitBody_of_lt_eight {s : State} (h : s.mcnt.val < 8) : mcommitBody s = .error .sequence := if_pos (by omega)

theorem mcommitBody_of_maskErr {s : State} (h8 : s.mcnt.val = 8) (h : s.maskErr s.best.toNat = true) :
    mcommitBody s = .error .collaborator := by
  rw [mcommitBody, if_neg (not_not.2 h8), if_pos h]

/-- Settles O33: the committed grid cell by cell, then the two checks of MCOMMIT. -/
theorem mcommitAppliesWinner : Obligations.McommitAppliesWinner := by
  unfold Obligations.McommitAppliesWinner
  intro s hp hv
  obtain ⟨-, hg⟩ := gs_of_supported hv
  refine ⟨fun h8 hm => ?commit, fun hlt => exec_mcommit_of_error hp hg (mcommitBody_of_lt_eight hlt),
    fun h8 herr => exec_mcommit_of_error hp hg (mcommitBody_of_maskErr h8 (maskErr_iff.2 herr))⟩
  case commit =>
    refine ⟨s.committed s.best.toNat, exec_of_rule (by decide) (by rw [hp]; rfl) hg
      (mcommitBody_ok_iff.2 ⟨h8, maskErr_false_iff.2 hm, rfl⟩), rfl, fun r hr c hc => ?cell, fun cand hcand r hr c hc => ?cand⟩
    case cell =>
      rw [State.committed_cell s _ hr hc]
      by_cases hin : r < s.gs ∧ c < s.gs
      · simp only [hin, candCell_eq hm hin.1 hin.2, and_self, true_and, if_true]
      · rw [if_neg hin, if_neg fun h => hin ⟨h.1, h.2.1⟩]
    case cand =>
      rw [(isCandidate_iff hm).1 hcand, getElem?_candidate hr hc, State.committed_cell s _ (hr.trans_le hg) (hc.trans_le hg),
        if_pos ⟨hr, hc⟩]

/-- The candidate of the candidate has the cells of the grid: both applications ask the same mask at the same data cells, and
inverting a cell twice restores it (R208, R216). -/
theorem candCell_committed (s : State) (k : Nat) {r c : Nat} (hr : r < s.gs ∧ r < Config.gmax) (hc : c < s.gs ∧ c < Config.gmax) :
    (s.committed k).candCell k r c = s.cell r c := by
  have hquery : (s.committed k).maskQuery k r c = s.maskQuery k r c := rfl
  simp only [State.candCell, State.committed_cell s k hr.2 hc.2, State.committed_flag, hquery, hr.1, hc.1, and_self, if_true]
  split
  · exact cellXor_cellXor _ _
  · rfl

/-- Settles O34: inside the live grid the candidate of the candidate, outside it no cell is written. -/
theorem maskTwiceRestoresGrid : Obligations.MaskTwiceRestoresGrid := by
  unfold Obligations.MaskTwiceRestoresGrid
  intro s k r hr c hc
  rw [State.committed_cell _ k hr hc, State.committed_gs]
  by_cases hin : r < s.gs ∧ c < s.gs
  · rw [if_pos hin, candCell_committed s k ⟨hin.1, hr⟩ ⟨hin.2, hc⟩]
  · rw [if_neg hin, State.committed_cell s k hr hc, if_neg hin]

/-! ## The winner in every step -/

/-- Only MEVAL leads into `SCORING` from elsewhere, and the other commands that stay there write nothing that the scores and the
winner rest on. -/
theorem scoring_before {i : Instr} {p : Phase} (hl : legalIn i p = true) (hs : (entersPhase i).getD p = .scoring) :
    i = .meval ∨ p = .scoring ∧ ∀ x ∈ [Item.version, .grid, .dflag, .mcnt, .minscore, .best], x ∉ writeSet i := by
  cases i <;> cases p <;> simp [legalIn, entersPhase, writeSet] at hl hs ⊢

section EveryStep

variable {s t : State}

/-- The winner is kept by whatever keeps the mask registers and what the scores depend on, in the same phase. -/
theorem winnerInv_of_same (hs : s.WinnerInv) (hp : t.passPhase = s.passPhase) (hv : t.version = s.version) (hg : t.grid = s.grid)
    (hd : t.dflag = s.dflag) (hx : t.collab = s.collab) (hn : t.mcnt = s.mcnt) (hm : t.minscore = s.minscore)
    (hb : t.best = s.best) : t.WinnerInv := by
  simpa only [State.WinnerInv, hasScore_congr hv hg hd hx, hp, hn, hm, hb] using hs

theorem winnerInv_resetBlock (s : State) : s.resetBlock.WinnerInv := fun h => absurd h (by simp)

theorem winnerInv_takeFault (hs : s.WinnerInv) (hp : s.phase ≠ .fault) (f : ErrCode) (w : Word) : (s.takeFault f w).WinnerInv :=
  winnerInv_of_same hs (passPhase_takeFault s f w hp) rfl rfl rfl rfl rfl rfl rfl

/-- MEVAL scores the first candidate in `PLACED`, where `MCNT` is 0, and a later one in `SCORING`, where a winner is found. -/
theorem winnerFound_meval (hc : s.ControlInv) (hs : s.passPhase = .scoring → s.WinnerFound) (hp : s.phase ≠ .fault)
    (hl : legalIn .meval s.phase = true) (hb : mevalBody s = .ok t) : t.WinnerFound := by
  obtain ⟨-, hmcnt, -⟩ := hc
  rw [passPhase_of_ne hp] at hmcnt hs
  obtain ⟨-, v, hv, rfl⟩ := mevalBody_ok_iff.1 hb
  have hl : s.phase = .placed ∨ s.phase = .scoring := by simpa [legalIn] using hl
  refine winnerFound_scored (fun h0 => hs (hl.resolve_left fun hplaced => h0 ?_)) hv rfl
  simpa [hplaced, mcntAllowed] using hmcnt

/-- MEVAL finds the next winner; every other rule that ends in `SCORING` starts there and leaves the winner. -/
theorem winnerInv_body {i : Instr} (hc : s.ControlInv) (hs : s.WinnerInv) (hi : i ≠ .reset) (hp : s.phase ≠ .fault)
    (hl : legalIn i s.phase = true) (hb : bodyOf i s = .ok t) : t.WinnerInv := by
  intro hpass
  have hnext := (bodyOf_passPhase hi hp hb).symm.trans hpass
  rcases scoring_before hl hnext with rfl | ⟨hscoring, hw⟩
  · exact winnerInv_iff.2 (fun _ => winnerFound_meval hc (winnerInv_iff.1 hs) hp hl hb) hpass
  · have same : ∀ x ∈ [Item.version, .grid, .dflag, .mcnt, .minscore, .best], sameItem x s t :=
      fun x hx => bodyOf_same hi hb (hw x hx)
    simp only [List.forall_mem_cons] at same
    obtain ⟨hv, hg, hd, hn, hm, hbest, -⟩ := same
    obtain ⟨-, -, hx, -⟩ := bodyOf_frame hi hb
    exact winnerInv_of_same hs (hpass.trans ((passPhase_of_ne hp).trans hscoring).symm) hv hg hd hx hn hm hbest hpass

end EveryStep

/-- Settles O56: the winner, carried with the control invariant, which gives `MCNT = 0` in `PLACED`. -/
theorem stepKeepsWinner : Obligations.StepKeepsWinner := by
  unfold Obligations.StepKeepsWinner
  intro s t hc hs h
  refine (step_keeps (P := fun s => s.ControlInv ∧ s.WinnerInv) (fun _ _ _ hs => hs)
    (fun s _ => ⟨controlInv_resetBlock s, winnerInv_resetBlock s⟩) ?fault ?body ⟨hc, hs⟩ h).2
  case fault =>
    rintro s f w ⟨hc, hs⟩ hp h0 h2
    exact ⟨controlInv_takeFault hc hp w h0 h2, winnerInv_takeFault hs hp f w⟩
  case body =>
    rintro i s t ⟨hc, hs⟩ hi hp hl - hb
    exact ⟨controlInv_body hc hi hp hl hb, winnerInv_body hc hs hi hp hl hb⟩

end Sys2Proof.Machine

namespace Sys2Proof.Machine

/-! PROOFS. The Format-Information Codec (44_format_info.md): FMTENC and FMTENCW, the code of the format words, then FMTWRITE
under any placement and under the standard one. -/

/-! ## FMTENC and FMTENCW -/

/-- The word of FMTENC, written out (R94). -/
theorem fmtenc_word (m : BitVec 3) : (0x40000000 : Word) ||| m.setWidth 32 = encode (.fmtenc m) := by
  revert m
  decide

/-- Settles O35: outside `FAULT` the rule of FMTENC, which has no check. -/
theorem fmtencProbes : Obligations.FmtencProbes := by
  unfold Obligations.FmtencProbes
  intro m
  refine ⟨fmtenc_word m ▸ decode_encode (.fmtenc m), fun s => ⟨fun hp => ?_, exec_in_fault (by simp)⟩⟩
  exact exec_of_ok (by simp) hp (by simp [legalIn, hp]) (by simp [usesGrid]) rfl

/-- Settles O36: FMTENCW's rule in its one phase, and the phase check outside it. -/
theorem fmtencwEncodesWinner : Obligations.FmtencwEncodesWinner := by
  unfold Obligations.FmtencwEncodesWinner
  refine ⟨decode_encode .fmtencw, fun s => ⟨fun hp => ?_, fun hc hp => ?_, exec_in_fault (by decide)⟩⟩
  · exact exec_of_ok (by decide) (by simp [hp]) (by simp [legalIn, hp]) (by simp [usesGrid]) rfl
  · exact exec_illegal (by decide) hp (by simp [legalIn, hc])

/-! ## The code of the format words -/

/-- The code word of five data bits (R236). -/
def codeword (d : BitVec 5) : BitVec 15 := d ++ bchRem d

theorem formatRaw_eq_codeword (e : BitVec 2) (m : BitVec 3) : formatRaw e m = codeword (formatData e m) := rfl

/-- The number of 1 bits of a 15-bit word; the distance of two words is the weight of their XOR. -/
def weight (w : BitVec 15) : Nat := ((List.range 15).filter fun i => w.getLsbD i).length

/-- A step of the division subtracts the generator by its leading bit, so it is linear. -/
theorem bchStep_xor (x y : BitVec 15) (i : Nat) : bchStep (x ^^^ y) i = bchStep x i ^^^ bchStep y i := by
  unfold bchStep
  rw [BitVec.getLsbD_xor]
  cases x.getLsbD i <;> cases y.getLsbD i
  · rfl
  · exact BitVec.xor_assoc ..
  · change x ^^^ y ^^^ _ = x ^^^ _ ^^^ y
    ac_rfl
  · change x ^^^ y = x ^^^ _ ^^^ (y ^^^ _)
    rw [BitVec.xor_comm y, BitVec.xor_assoc, ← BitVec.xor_assoc _ _ y, BitVec.xor_self, BitVec.zero_xor]

theorem foldl_bchStep_xor (l : List Nat) (x y : BitVec 15) :
    l.foldl bchStep (x ^^^ y) = l.foldl bchStep x ^^^ l.foldl bchStep y := by
  induction l generalizing x y with
  | nil => rfl
  | cons i l ih => rw [List.foldl_cons, bchStep_xor, ih, List.foldl_cons, List.foldl_cons]

/-- The code is linear: the XOR of two code words is the code word of the XOR of their data. -/
theorem codeword_xor (d d' : BitVec 5) : codeword (d ^^^ d') = codeword d ^^^ codeword d' := by
  have hshift : (d ^^^ d') ++ 0#10 = (d ++ 0#10) ^^^ (d' ++ 0#10) := by rw [BitVec.xor_append, BitVec.xor_self]
  have hrem : bchRem (d ^^^ d') = bchRem d ^^^ bchRem d' := by
    rw [bchRem, hshift, foldl_bchStep_xor, BitVec.extractLsb'_xor]
    rfl
  rw [codeword, hrem, codeword, codeword, BitVec.xor_append]

/-- The least weight of the code, over its 31 nonzero code words (R242). -/
theorem weight_codeword : ∀ d : BitVec 5, d ≠ 0 → 7 ≤ weight (codeword d) := by
  decide

/-- The level and the mask id are fields of the data bits (R232, R234). -/
theorem formatData_injective : ∀ {e e' : BitVec 2} {m m' : BitVec 3}, formatData e m = formatData e' m' → (e, m) = (e', m') := by
  decide

/-- Two different code words differ in at least 7 places: their XOR is a code word, and not that of data 0 (R242). -/
theorem weight_formatRaw_xor {e e' : BitVec 2} {m m' : BitVec 3} (h : (e, m) ≠ (e', m')) :
    7 ≤ weight (formatRaw e m ^^^ formatRaw e' m') := by
  rw [formatRaw_eq_codeword, formatRaw_eq_codeword, ← codeword_xor]
  exact weight_codeword _ fun h0 => h (formatData_injective (BitVec.xor_eq_zero_iff.1 h0))

/-- Data 0 has code word 0, so every other code word has the least weight of the code (R242). -/
theorem weight_formatRaw {e : BitVec 2} {m : BitVec 3} (h : formatRaw e m ≠ 0) : 7 ≤ weight (formatRaw e m) := by
  rw [formatRaw_eq_codeword] at h ⊢
  refine weight_codeword _ fun h0 => h ?_
  rw [h0]
  rfl

/-- The fixed XOR leaves no value of the 32 all 0 or all 1 (R237, R242). -/
theorem formatVal_ne_constant : ∀ e m, formatVal e m ≠ 0 ∧ formatVal e m ≠ 0x7FFF := by
  decide

/-- Settles O37: the table by evaluation, the distances by the linearity of the code and its least weight. -/
theorem formatCodewordTable : Obligations.FormatCodewordTable := by
  unfold Obligations.FormatCodewordTable
  exact ⟨by decide, by decide, by decide, by decide, fun e m => ⟨rfl, formatVal_ne_constant e m⟩,
    fun _ _ _ _ h => weight_formatRaw_xor h, fun _ _ h => weight_formatRaw h, by decide⟩

/-! ## FMTWRITE -/

section Fmtwrite

variable {s : State} {r c : Nat}

/-- The two timing cells are inside every grid, so Overlay's check on FMTWRITE's list is one on the placement (R246). -/
theorem formatTriples_inGrid_iff : (∀ x ∈ formatTriples s, inGrid s.gs x.1 x.2.1 = true) ↔
    ∀ i < 15, ∀ k, k = 1 ∨ k = 2 → inGrid s.gs (s.collab.coordsOf s.gs k i).1 (s.collab.coordsOf s.gs k i).2 = true := by
  have hgs := gs_ge s
  constructor
  · exact fun h i hi k hk => h (formatTriple s k i) (mem_formatTriples.2 (.inl ⟨i, hi, k, hk, rfl⟩))
  · intro h x hx
    rcases mem_formatTriples.1 hx with ⟨i, hi, k, hk, rfl⟩ | rfl | rfl
    · exact h i hi k hk
    · rw [inGrid_iff]; dsimp only; omega
    · rw [inGrid_iff]; dsimp only; omega

/-- A fault that the rule of FMTWRITE raises is entered with the word of FMTWRITE (R280). -/
theorem exec_fmtwrite_of_error {f : ErrCode} (hp : s.phase = .committed) (hg : s.gs ≤ Config.gmax)
    (hb : fmtwriteBody s = .error f) : exec .fmtwrite s = .next (s.takeFault f 0x42000000) :=
  exec_of_error (by decide) (by simp [hp]) (by simp [hp, legalIn]) (fun _ => hg) hb

theorem fmtwriteBody_of_invalid (h : s.fmtValid = false) : fmtwriteBody s = .error .sequence := if_pos h

theorem fmtwriteBody_of_outside (hv : s.fmtValid = true) (hout : ∃ x ∈ formatTriples s, inGrid s.gs x.1 x.2.1 = false) :
    fmtwriteBody s = .error .overlayOutOfBounds := by
  rw [fmtwriteBody_eq hv, overlayThen, overlay_error_iff.2 ⟨hout, rfl⟩]

/-- FMTWRITE with a valid format value and its list inside the grid writes the list (R246). -/
theorem exec_fmtwrite (hp : s.phase = .committed) (hg : s.gs ≤ Config.gmax) (hv : s.fmtValid = true)
    (hin : ∀ x ∈ formatTriples s, inGrid s.gs x.1 x.2.1 = true) :
    exec .fmtwrite s = .next (s.written (formatTriples s) .fmtWritten) :=
  exec_overlayThen (fmtwriteBody_eq hv) (by decide) (by simp [hp, legalIn]) hg hin

/-- Inside the grid a placement is the cell that Overlay writes for it. -/
theorem toNat_eq_iff_of_inGrid {gs : Nat} {p : Int × Int} (h : inGrid gs p.1 p.2 = true) :
    p.1.toNat = r ∧ p.2.toNat = c ↔ p = ((r : Int), (c : Int)) := by
  rw [inGrid_iff] at h
  rw [Prod.ext_iff]
  dsimp only
  omega

/-- An overlay leaves a cell that its list gives no value, inside the array and outside it. -/
theorem State.written_cell_of_none {l : List Triple} {p : Phase} (h : lastAt l r c = none) :
    (s.written l p).cell r c = s.cell r c := by
  by_cases hout : Config.gmax ≤ r ∨ Config.gmax ≤ c
  · rw [State.cell_out _ hout, State.cell_out s hout]
  · rw [State.written_cell s l p (by omega) (by omega), h, Option.getD_none]

/-- The timing cells are `Black` after FMTWRITE, whatever else the placement puts there (R248). -/
theorem written_timing_cell {p : Phase} (h : (r = 6 ∧ c = 8) ∨ (r = 8 ∧ c = 6)) :
    (s.written (formatTriples s) p).cell r c = .black := by
  have hin : r < Config.gmax ∧ c < Config.gmax := by rcases h with ⟨rfl, rfl⟩ | ⟨rfl, rfl⟩ <;> decide
  rw [State.written_cell s _ p hin.1 hin.2, format_lastAt_timing h, Option.getD_some]

end Fmtwrite

/-- Settles O39: Overlay's check as one on the placement, then each cell by the last triple of the list that names it. -/
theorem fmtwriteAnyPlacement : Obligations.FmtwriteAnyPlacement := by
  unfold Obligations.FmtwriteAnyPlacement
  intro s hp hsup hv
  obtain ⟨-, hmax⟩ := gs_of_supported hsup
  constructor
  · rintro ⟨i, hi, k, hk, hout⟩
    have hmem : formatTriple s k i ∈ formatTriples s := mem_formatTriples.2 (.inl ⟨i, hi, k, hk, rfl⟩)
    exact exec_fmtwrite_of_error hp hmax (fmtwriteBody_of_outside hv ⟨_, hmem, hout⟩)
  · intro hplace
    have untimed : ∀ r c : Nat, (r, c) ≠ (6, 8) → (r, c) ≠ (8, 6) → ¬((r = 6 ∧ c = 8) ∨ (r = 8 ∧ c = 6)) :=
      fun r c h68 h86 => by simpa [not_or] using And.intro h68 h86
    refine ⟨_, exec_fmtwrite hp hmax hv (formatTriples_inGrid_iff.2 hplace), rfl, written_timing_cell (by simp),
      written_timing_cell (by simp), ?bit, ?rest⟩
    case bit =>
      intro i k r c hi hk he h68 h86 hlast
      have hin := inGrid_iff.1 (hplace i hi k hk)
      rw [he] at hin
      rw [State.written_cell _ _ _ (by omega) (by omega), format_lastAt_bit hi hk
        ((toNat_eq_iff_of_inGrid (hplace i hi k hk)).2 he) (untimed r c h68 h86)
        fun j hj hij m hm hn => hlast j hj hij m hm ((toNat_eq_iff_of_inGrid (hplace j hj m hm)).1 hn)]
      rfl
    case rest =>
      intro r c h68 h86 hfree
      exact State.written_cell_of_none (format_lastAt_none (untimed r c h68 h86)
        fun j hj m hm hn => hfree j hj m hm ((toNat_eq_iff_of_inGrid (hplace j hj m hm)).1 hn))

/-- Settles O38: the list of the standard placement inside the live grid, and no triple outside it. -/
theorem fmtwriteStandardPlacement : Obligations.FmtwriteStandardPlacement := by
  unfold Obligations.FmtwriteStandardPlacement
  intro s hp hsup
  obtain ⟨h21, hmax⟩ := gs_of_supported hsup
  refine ⟨fun hv hstd => ?write, fun hv => exec_fmtwrite_of_error hp hmax (fmtwriteBody_of_invalid hv)⟩
  case write =>
    have hin := format_inGrid_standard hstd h21
    refine ⟨_, exec_fmtwrite hp hmax hv hin, rfl, fun r hr c hc => ?_⟩
    by_cases hlive : r < s.gs ∧ c < s.gs
    · rw [State.written_cell _ _ _ hr hc, format_lastAt_standard hstd h21 hlive.1 hlive.2]
      simp only [hlive, true_and]
      split_ifs <;> rfl
    · rw [State.written_cell_of_none (lastAt_outside hin (by omega)), if_neg fun h => hlive ⟨h.1, h.2.1⟩]

end Sys2Proof.Machine

namespace Sys2Proof.Machine

/-! PROOFS. The quiet zone (45_quiet_zone.md): the bordered output cell by cell, then `OUT` in every step. -/

/-! ## The bordered output, cell by cell -/

section Bordered

variable {s : State} {r c : Nat}

theorem borderedCell_ring (hin : r ≤ s.gs + 1 ∧ c ≤ s.gs + 1) (hring : r = 0 ∨ r = s.gs + 1 ∨ c = 0 ∨ c = s.gs + 1) :
    borderedCell s r c = .white :=
  (if_pos hin).trans (if_pos hring)

theorem borderedCell_centre (hr : r < s.gs) (hc : c < s.gs) : borderedCell s (r + 1) (c + 1) = s.cell r c :=
  (if_pos (by omega)).trans (if_neg (by omega))

theorem borderedCell_beyond (h : s.gs + 1 < r ∨ s.gs + 1 < c) : borderedCell s r c = .unset := if_neg (by omega)

end Bordered

/-- Settles O41: the bordered output in its three regions, all inside the 43 x 43 array since `gs` is at most 41. -/
theorem qzoneBordersGrid : Obligations.QzoneBordersGrid := by
  unfold Obligations.QzoneBordersGrid
  intro s hp hv
  obtain ⟨-, hmax⟩ := gs_of_supported hv
  have inArray : ∀ k < s.gs, k + 1 < Config.omax := fun k hk => by simp only [Config.gmax, Config.omax] at hmax ⊢; omega
  refine ⟨s.bordered, exec_qzone hp hmax, rfl, fun r hr c hc hin hring => ?ring, fun r hr c hc => ?centre,
    fun r hr c hc hout => ?beyond⟩
  case ring => rw [s.bordered_outCell hr hc, borderedCell_ring hin hring]
  case centre => rw [s.bordered_outCell (inArray r hr) (inArray c hc), borderedCell_centre hr hc]
  case beyond => rw [s.bordered_outCell hr hc, borderedCell_beyond hout]

/-! ## The output in every step -/

/-- Only QZONE leads into `DONE`, and the commands that stay there write nothing that the bordered output rests on. -/
theorem done_before {i : Instr} {p : Phase} (hl : legalIn i p = true) (hd : (entersPhase i).getD p = .done) :
    i = .qzone ∨ p = .done ∧ ∀ x ∈ [Item.version, .grid, .out], x ∉ writeSet i := by
  cases i <;> cases p <;> simp [legalIn, entersPhase, writeSet] at hl hd ⊢

section EveryStep

variable {s t : State}

theorem borderedCell_congr (hv : t.version = s.version) (hg : t.grid = s.grid) : borderedCell t = borderedCell s := by
  funext r c
  unfold borderedCell State.gs State.cell
  rw [hv, hg]

/-- The output is kept by whatever keeps it, the version and the grid, when `DONE` is not entered. -/
theorem outInv_of_same (hs : s.OutInv) (hp : t.passPhase = .done → s.passPhase = .done) (hv : t.version = s.version)
    (hg : t.grid = s.grid) (ho : t.out = s.out) : t.OutInv := by
  simp only [State.OutInv, State.outCell, borderedCell_congr hv hg, ho]
  exact fun h => hs (hp h)

theorem outInv_resetBlock (s : State) : s.resetBlock.OutInv := fun h => absurd h (by simp)

theorem outInv_takeFault (hs : s.OutInv) (hp : s.phase ≠ .fault) (f : ErrCode) (w : Word) : (s.takeFault f w).OutInv :=
  outInv_of_same hs (fun h => passPhase_takeFault s f w hp ▸ h) rfl rfl rfl

/-- QZONE leaves `GRID` and `VERSION`, so the border it wrote is that of the state it answers (R260). -/
theorem outInv_bordered (s : State) : s.bordered.OutInv := fun _ r hr c hc => by
  rw [s.bordered_outCell hr hc, borderedCell_congr s.bordered_version s.bordered_grid]

/-- QZONE writes the bordered output; every other rule that ends in `DONE` starts there and leaves it. -/
theorem outInv_body {i : Instr} (hs : s.OutInv) (hi : i ≠ .reset) (hp : s.phase ≠ .fault) (hl : legalIn i s.phase = true)
    (hb : bodyOf i s = .ok t) : t.OutInv := by
  intro hpass
  rcases done_before hl ((bodyOf_passPhase hi hp hb).symm.trans hpass) with rfl | ⟨hdone, hw⟩
  · obtain rfl := Except.ok.inj hb
    exact outInv_bordered s hpass
  · have same : ∀ x ∈ [Item.version, .grid, .out], sameItem x s t := fun x hx => bodyOf_same hi hb (hw x hx)
    simp only [List.forall_mem_cons] at same
    obtain ⟨hv, hg, ho, -⟩ := same
    exact outInv_of_same hs (fun _ => (passPhase_of_ne hp).trans hdone) hv hg ho hpass

end EveryStep

/-- Settles O55: fault entry, reset and the rule of every command keep the output; the control invariant is not needed. -/
theorem stepKeepsOutput : Obligations.StepKeepsOutput := by
  unfold Obligations.StepKeepsOutput
  intro s t _ hs h
  exact step_keeps (P := State.OutInv) (fun _ _ _ hs => hs) (fun s _ => outInv_resetBlock s)
    (fun _ f w hs hp _ _ => outInv_takeFault hs hp f w) (fun _ _ _ hs hi hp hl _ hb => outInv_body hs hi hp hl hb) hs h

end Sys2Proof.Machine

namespace Sys2Proof.Machine

/-! PROOFS. Faults (60_exceptions.md): the words that match no row, the commands out of their phase, fault entry, then the phase
`FAULT` and the ways out of it. -/

/-! ## Words that match no row -/

theorem rowOf_mem_opcodeTable (i : Instr) : rowOf i ∈ opcodeTable := by
  cases i <;> simp [opcodeTable, rowOf]

/-- A word of no row does not decode: a word that decodes is the word of its command, which stands on a row (R96, R97). -/
theorem decode_error_of_unmatched {w : Word} (h : ∀ row ∈ opcodeTable, w &&& row.mask ≠ row.value) :
    ∃ e, decode w = .error e := by
  cases hd : decode w with
  | error e => exact ⟨e, rfl⟩
  | ok i => exact absurd (encode_of_decode hd ▸ encode_and_mask i) (h _ (rowOf_mem_opcodeTable i))

/-- Settles O5: the word does not decode, so it is an illegal word, outside `FAULT` and in it. -/
theorem unmatchedWordIsIllegal : Obligations.UnmatchedWordIsIllegal := by
  unfold Obligations.UnmatchedWordIsIllegal
  intro w s h
  obtain ⟨e, he⟩ := decode_error_of_unmatched h
  rw [executeWord_of_error he]
  exact ⟨illegalWord_of_ne, illegalWord_fault⟩

/-! ## Commands out of their phase -/

/-- RESET is legal in every phase (R124), so a command that the table does not list is another one. -/
theorem ne_reset_of_not_legalIn {i : Instr} {p : Phase} (h : legalIn i p = false) : i ≠ .reset := by
  rintro rfl
  cases h

/-- Settles O42: the phase check, then the first checks of MEVAL, MCOMMIT and FMTWRITE. -/
theorem sequenceFaults : Obligations.SequenceFaults := by
  unfold Obligations.SequenceFaults
  refine ⟨fun i s hp hl => ?phase, fun s hv => ?registers⟩
  case phase =>
    rw [legalCommands_eq_legalIn] at hl
    exact exec_illegal (ne_reset_of_not_legalIn hl) hp hl
  case registers =>
    obtain ⟨-, hg⟩ := gs_of_supported hv
    exact ⟨fun hp h8 => exec_meval_of_error hp hg (mevalBody_of_eight h8),
      fun hp hlt => exec_mcommit_of_error hp hg (mcommitBody_of_lt_eight hlt),
      fun hp hf => exec_fmtwrite_of_error hp hg (fmtwriteBody_of_invalid hf)⟩

/-! ## Fault entry -/

section Entry

variable {s t : State}

/-- A rule that does not fault does not lead to `FAULT` (R26). -/
theorem bodyOf_phase_ne_fault {i : Instr} (hi : i ≠ .reset) (hp : s.phase ≠ .fault) (hb : bodyOf i s = .ok t) :
    t.phase ≠ .fault := bodyOf_phase hi hb ▸ entersPhase_ne_fault hp

/-- A command that leads to `FAULT` entered it by a code that is raised, with its own word (R273, R280). -/
theorem exec_enters_fault {i : Instr} (hp : s.phase ≠ .fault) (h : exec i s = .next t) (ht : t.phase = .fault) :
    ∃ f, f ≠ .noFault ∧ f ≠ .nonSquareMatrix ∧ t = s.takeFault f (encode i) := by
  rcases exec_cases h with ⟨-, rfl⟩ | ⟨-, hf, -⟩ | ⟨-, -, -, rfl⟩ | ⟨hi, -, -, -, hb | ⟨f, hb, rfl⟩⟩
  · cases ht
  · exact absurd hf hp
  · exact ⟨.sequence, by decide, by decide, rfl⟩
  · exact absurd ht (bodyOf_phase_ne_fault hi hp hb)
  · obtain ⟨h0, h2, -⟩ := bodyOf_error_ne hb
    exact ⟨f, h0, h2, rfl⟩

/-- The same of a word: `ERRINFO` is the word itself, since a word that decodes is the word of its command (R280). -/
theorem executeWord_enters_fault {w : Word} (hp : s.phase ≠ .fault) (h : executeWord w s = .next t) (ht : t.phase = .fault) :
    ∃ f, f ≠ .noFault ∧ f ≠ .nonSquareMatrix ∧ t = s.takeFault f w := by
  rcases executeWord_cases h with ⟨-, hf, -⟩ | ⟨-, -, rfl⟩ | ⟨i, hd, hx⟩
  · exact absurd hf hp
  · exact ⟨.illegalCommand, by decide, by decide, rfl⟩
  · exact encode_of_decode hd ▸ exec_enters_fault hp hx ht

end Entry

/-- Settles O43: the new state is a fault entry with the word. -/
theorem faultEntryWritesFourItems : Obligations.FaultEntryWritesFourItems := by
  unfold Obligations.FaultEntryWritesFourItems
  intro w s t hp h ht
  obtain ⟨f, h0, h2, rfl⟩ := executeWord_enters_fault hp h ht
  exact ⟨rfl, h0, h2, rfl, rfl⟩

/-! ## The phase `FAULT` and the ways out of it -/

/-- Settles O13: the lines are the two flags, which are functions of `PHASE`. -/
theorem outputLinesFollowPhase : Obligations.OutputLinesFollowPhase := by
  unfold Obligations.OutputLinesFollowPhase
  exact fun _ => ⟨errFlag_iff, doneFlag_iff, rfl, rfl⟩

/-- In `FAULT` every word but that of RESET is discarded, whether it decodes or not (R282). -/
theorem executeWord_in_fault {w : Word} {s : State} (hw : w ≠ 0x01000000) (hp : s.phase = .fault) :
    executeWord w s = .next s := by
  cases hd : decode w with
  | error e => rw [executeWord_of_error hd, illegalWord_fault hp]
  | ok i =>
    have hi : i ≠ .reset := by
      rintro rfl
      exact hw (encode_of_decode hd).symm
    rw [executeWord_of_ok hd, exec_in_fault hi hp]

/-- Settles O44: the discard, alone and in a step, then the three windows by their gates. -/
theorem faultPhaseDiscardsWords : Obligations.FaultPhaseDiscardsWords := by
  unfold Obligations.FaultPhaseDiscardsWords
  intro s hp
  refine ⟨fun w hw => executeWord_in_fault hw hp, fun w rest hw h => ?step, fun r hr c hc => ?grid, fun r hr c hc => ?out,
    fun r hr c hc => dflagRead_of_le s hr hc⟩
  case step =>
    rw [step_of_command h, executeWord_in_fault (s := s.taken rest) hw hp]
    rfl
  case grid => rw [gridRead_of_le s hr hc, if_pos hp]
  case out => rw [outRead_of_le s hr hc, hp, if_neg (by decide)]

/-- Settles O45: of what a step can do, waiting, another access and every other word stay in `FAULT`. -/
theorem onlyResetLeavesFault : Obligations.OnlyResetLeavesFault := by
  unfold Obligations.OnlyResetLeavesFault
  intro s t hp h ht
  rcases step_cases h with ⟨-, rfl⟩ | ⟨rest, hpin, -⟩ | ⟨a, rest, r, -, rfl⟩ | ⟨w, rest, u, hin, hx, rfl⟩
  · exact absurd hp ht
  · exact .inl ⟨rest, hpin⟩
  · exact absurd hp ht
  · by_cases hw : w = 0x01000000
    · exact .inr ⟨rest, hw ▸ hin⟩
    · rw [executeWord_in_fault (s := s.taken rest) hw hp] at hx
      cases hx
      exact absurd hp ht

end Sys2Proof.Machine

namespace Sys2Proof.Machine

/-! PROOFS. Reset on the bus (70_reset_and_hazards.md, R301): what the register map and the windows show of the reset state's
items (R40). -/

@[simp] theorem State.reset_cell (r c : Nat) : State.reset.cell r c = .unset := by simp [State.cell]

@[simp] theorem State.reset_flag (r c : Nat) : State.reset.flag r c = false := by simp [State.flag]

/-- `PHASE` is `IDLE`, whose code is 0, and all four flags are low (R26, R31). -/
theorem busRead_reset_status : busRead State.reset 0x0008 = some 0 := rfl

/-- The registers from `PAYLEN` up show items that are 0 at reset, in every field. -/
theorem busRead_reset_from_paylen :
    ∀ a ∈ [0x0014, 0x0018, 0x001C, 0x0020, 0x0024, 0x0028, 0x002C, 0x0030], busRead State.reset a = some 0 := by
  obtain ⟨-, -, -, -, hpaylen, hnplaced, hmaskst, hminscore, hfmtraw, hfmtval, herr, herrinfo⟩ := registerFields State.reset
  simp only [List.forall_mem_cons]
  exact ⟨hpaylen, hnplaced, hmaskst, hminscore, hfmtraw, hfmtval, herr, herrinfo, List.forall_mem_nil _⟩

/-- Settles O12: the fields of the registers and the elements of the windows, at their reset values. The `OUT` window reads 3
by its gate, since the reset phase is not `DONE`; the `GRID` window is open and reads 3 because its cells are `Unset`. -/
theorem resetReadsOnTheBus : Obligations.ResetReadsOnTheBus := by
  unfold Obligations.ResetReadsOnTheBus
  obtain ⟨hid, hcmd, hcfg, hgsize, -⟩ := registerFields State.reset
  obtain ⟨hgrid, hout, hpay, hdflag⟩ := windowsShowTheArrays State.reset
  refine ⟨hid, hcmd, busRead_reset_status, hcfg, hgsize, busRead_reset_from_paylen, fun i hi => ?pay, fun r hr c hc => ?dflag,
    fun r hr c hc => ?grid, fun r hr c hc => ?out⟩
  case pay => rw [hpay i hi, State.reset_pay, List.getElem?_nil, if_neg (by decide)]
  case dflag => rw [hdflag r hr c hc, State.reset_flag, if_neg (by decide)]
  case grid =>
    rw [hgrid r hr c hc, State.reset_phase, if_neg (by decide), State.reset_cell]
    rfl
  case out => rw [hout r hr c hc, State.reset_phase, if_neg (by decide)]

end Sys2Proof.Machine
